-- ==== Sys2Proof/Word.lean ====
section
/-! DEFINITION. The Word: the machine's storage cell, which holds a text (spec/10_state.md R20). What a text MEANS
(as_integer, store_integer, …) stands in Sys2Proof/Machine/Text.lean. -/

namespace Sys2Proof

/-- A text: the characters of a Word, of an instruction slot, of a console line. Index 0 is the first character
(R10). A character stands for the byte with its code (R20: bytes 0x01 to 0xFF; log 1). -/
abbrev Text := List Char

/-- The smallest addressable storage cell (R20). Its value is its text: "007" and "7" are different Words. -/
structure Word where
  text : Text
  deriving DecidableEq, Repr

/-- The Word whose text is written as a string. -/
def Word.ofString (s : String) : Word := ⟨s.toList⟩

/-- The empty Word "", which is a legal Word (R20). -/
def Word.blank : Word := ⟨[]⟩

/-- A character of a legal text: a byte 0x01 to 0xFF; 0x00 never occurs inside a text (R20, D5). -/
abbrev LegalChar (c : Char) : Prop := 1 ≤ c.toNat ∧ c.toNat ≤ 255

/-- A legal Word of a machine whose Words hold at most `cap` characters (R20). -/
abbrev Word.Legal (cap : Nat) (w : Word) : Prop := w.text.length ≤ cap ∧ ∀ c ∈ w.text, LegalChar c

end Sys2Proof
end

