-- ==== Sys2Proof/Config.lean ====
section
/-! DEFINITION. The parameters of the machine: the structural parameters (spec/00_scope.md R5), the configuration
record (R6), the fixed numbers the spec's decisions name, and the free values (R7): the constants without a body. -/

namespace Sys2Proof

/-- The parameters of one machine: R5's structural parameters and R6's configuration record. They are fixed at launch
and no step writes them (R54); State carries them, so that a claim about every state is a claim about every
configuration (log 2). -/
structure Config where
  /-- WORD_SIZE, the capacity in bytes of a Word's buffer (R5, D1). -/
  wordSize : Nat
  /-- PAGE_SIZE, Words per page (R5, D2). -/
  pageSize : Nat
  /-- NUM_PAGES, pages of memory (R5, D2). -/
  numPages : Nat
  /-- INSTR_SIZE, Words in one instruction slot (R5, D3). -/
  instrSize : Nat
  /-- NUM_BLOCKS, blocks of the block store (R5, D28: OPEN). -/
  numBlocks : Nat
  /-- timer_interval; a value ≤ 0 disables the timer (R6, D26: OPEN). -/
  timerInterval : Int
  /-- disk_latency ≥ 0 (R6: OPEN). -/
  diskLatency : Nat
  /-- console_latency ≥ 0 (R6: OPEN). -/
  consoleLatency : Nat
  /-- debug_enabled (R6: OPEN); without architectural effect (R322). -/
  debugEnabled : Bool
  deriving DecidableEq, Repr

namespace Config

/-- WORD_CAP = WORD_SIZE − 1, the greatest number of characters of a Word's text (R5, R20). -/
def wordCap (c : Config) : Nat := c.wordSize - 1

/-- MEMORY_SIZE = PAGE_SIZE × NUM_PAGES (R5, R46). -/
def memorySize (c : Config) : Nat := c.pageSize * c.numPages

/-- INT_MAX = 10^WORD_CAP − 1 (R24). -/
def intMax (c : Config) : Int := ((10 ^ c.wordCap : Nat) : Int) - 1

/-- INT_MIN = −(10^(WORD_CAP−1) − 1) (R24). -/
def intMin (c : Config) : Int := -(((10 ^ (c.wordCap - 1) : Nat) : Int) - 1)

/-- The constraints R5 puts on the structural parameters, the joint one last. R332: a launch that violates them
produces no machine (log 19). R6's `disk_latency ≥ 0` and `console_latency ≥ 0` hold by the fields' type. -/
abbrev Valid (c : Config) : Prop :=
  2 ≤ c.wordSize ∧ 1 ≤ c.pageSize ∧ 41 ≤ c.numPages ∧ 1 ≤ c.instrSize ∧ 1 ≤ c.numBlocks ∧
    (c.memorySize : Int) + c.instrSize ≤ c.intMax

/-- R5's default structural parameters, with a configuration record of the model's own: DESIGN CHOICE, log 2 (timer
disabled; the latencies 3 and 1 of the spec's examples; 16 blocks, the fewest its test vectors ask for). -/
def standard : Config :=
  { wordSize := 16, pageSize := 512, numPages := 128, instrSize := 2, numBlocks := 16,
    timerInterval := 0, diskLatency := 3, consoleLatency := 1, debugEnabled := false }

/-- The physical address of the first instruction after reset, RESET_IP (R60, R331, D33). -/
def resetIP : Int := 0

/-- The interrupt number of every fault delivered from User mode (R292, D22). -/
def exceptionNumber : Nat := 0

/-- The greatest interrupt number that has a vector (R290). -/
def lastInterrupt : Nat := 18

/-- FREE VALUE (log 9): the text ENCRYPT makes of a text, on a machine whose Words hold the given number of
characters. R255 gives no algorithm; nothing is known of this constant. `Machine.encrypt` keeps the one bound R255
sets: the result is a legal Word. -/
opaque encryptText : Nat → Text → Text

/-- FREE VALUE (log 10): the console line at a position of the input for which the host has supplied none (R7(c),
R258: "an unconstrained draw"). -/
opaque consoleLine : Nat → Text

end Config
end Sys2Proof
end

