-- ==== Sys2Proof/Machine/Text.lean ====
section
/-! DEFINITION. What a Word's text means: classify, as_integer, store_integer, store_string
(spec/10_state.md R21 to R27), and the decimal helpers the decoder and the encoder share with them. -/

namespace Sys2Proof.Machine

/-- The value of one decimal digit. -/
def digitValue (c : Char) : Nat := c.toNat - '0'.toNat

/-- The decimal value of a run of digits, most significant first (R22, R107). -/
def digitsValue (t : Text) : Nat := t.foldl (fun n c => 10 * n + digitValue c) 0

/-- The character of one decimal digit. -/
def digitChar (n : Nat) : Char := Char.ofNat ('0'.toNat + n)

/-- The digits of `n` without leading zeros, provided `fuel` is greater than `n`. -/
def digitsFuel : (fuel n : Nat) → Text
  | 0, _ => []
  | fuel + 1, n => if n < 10 then [digitChar n] else digitsFuel fuel (n / 10) ++ [digitChar (n % 10)]

/-- The canonical decimal digits of a natural number: no leading zeros, "0" for zero (R24). -/
def renderNat (n : Nat) : Text := digitsFuel (n + 1) n

/-- The canonical decimal rendering of an integer: the digits of |v|, preceded by `-` when v < 0, never a `+` (R24). -/
def renderInt (v : Int) : Text := if v < 0 then '-' :: renderNat v.natAbs else renderNat v.natAbs

/-- The leading digits of a text. -/
def leadingDigits (t : Text) : Text := t.takeWhile Char.isDigit

/-- `as_integer` on a text: the value of the longest prefix that matches `[+-]?[0-9]+`, 0 when there is none; no
white space is skipped (R22). A sign without a digit has no leading digits, whose value is 0. -/
def integerOfText : Text → Int
  | '-' :: t => -(digitsValue (leadingDigits t) : Int)
  | '+' :: t => (digitsValue (leadingDigits t) : Int)
  | t => (digitsValue (leadingDigits t) : Int)

/-- `as_integer(w)` (R22); it never raises. -/
def asInteger (w : Word) : Int := integerOfText w.text

/-- `as_string(w)`: the text, whatever it is (R23). -/
def asString (w : Word) : Text := w.text

/-- The two classes of R21. -/
inductive WordClass where
  | integer
  | string
  deriving DecidableEq, Repr

/-- One or more decimal digits and nothing else. -/
def allDigits (t : Text) : Bool := !t.isEmpty && t.all Char.isDigit

/-- `classify(w)`: Integer iff the text matches `[+-]?[0-9]+` in full (R21). No instruction uses it. -/
def classify (w : Word) : WordClass :=
  let body := match w.text with
    | '-' :: t => t
    | '+' :: t => t
    | t => t
  if allDigits body then .integer else .string

/-- The Word of `store_integer(v)` before its length is looked at (R24). -/
def integerWord (v : Int) : Word := ⟨renderInt v⟩

/-- `store_integer(v)`: none stands for WordOverflow(v), raised when the canonical text has more than WORD_CAP
characters (R24, D7). -/
def storeInteger? (cap : Nat) (v : Int) : Option Word :=
  if (renderInt v).length ≤ cap then some (integerWord v) else none

/-- `store_string(s)`: none stands for its failure, a source longer than WORD_CAP characters (R25, D8). -/
def storeString? (cap : Nat) (s : Text) : Option Word :=
  if s.length ≤ cap then some ⟨s⟩ else none

/-- `clamp(v)`: the nearest integer a Word can hold (spec/60_exceptions.md R279). -/
def clampInt (c : Config) (v : Int) : Int := max c.intMin (min c.intMax v)

/-- `Encrypt` (R255): the free transform's text cut to a legal Word, the one bound the spec sets (log 9). -/
def encrypt (cap : Nat) (w : Word) : Word :=
  ⟨((Config.encryptText cap w.text).filter fun c => decide (LegalChar c)).take cap⟩

/-- The Word NextConsoleWord makes of a line: its first WORD_CAP characters, 0x00 bytes dropped
(spec/48_misc.md R258; the cut comes first, log 10). -/
def consoleWord (cap : Nat) (line : Text) : Word := ⟨(line.take cap).filter fun c => decide (c.toNat ≠ 0)⟩

end Sys2Proof.Machine
end

