-- ==== Sys2Proof/Syntax.lean ====
section
/-! DEFINITION. The decoded instruction: registers, operand forms and one constructor for each of the 35 rows of
spec/opcode_table.json (spec/30_encoding.md R112, R113, R120). -/

namespace Sys2Proof

/-- The 33 named registers (spec/10_state.md R30). The constant-zero register ZR is not among them (R43). -/
inductive Reg where
  | r (n : Fin 20)  -- R0 … R19, general purpose (R32)
  | p (n : Fin 4)   -- P0 … P3, port (R33)
  | bp              -- base pointer (R34)
  | sp              -- stack pointer, a virtual address (R35)
  | ip              -- instruction pointer, a physical address (R36)
  | ptbr            -- page-table base (R37)
  | ptlr            -- page-table length (R38)
  | eip             -- exception instruction pointer (R39)
  | ec              -- exception cause (R40)
  | epn             -- exception page number (R41)
  | ema             -- exception memory address (R42)
  deriving DecidableEq, Repr

/-- The number R30's table gives a register: its place in the document's list. -/
def Reg.index : Reg → Fin 33
  | .r n => ⟨n.val, by omega⟩
  | .p n => ⟨20 + n.val, by omega⟩
  | .bp => 24
  | .sp => 25
  | .ip => 26
  | .ptbr => 27
  | .ptlr => 28
  | .eip => 29
  | .ec => 30
  | .epn => 31
  | .ema => 32

/-- `names()`: the registers in the order of the document's list (R30). -/
def Reg.all : List Reg :=
  (List.finRange 20).map .r ++ (List.finRange 4).map .p ++
    [.bp, .sp, .ip, .ptbr, .ptlr, .eip, .ec, .epn, .ema]

/-- An operand of form r or i (R112); also the base of a dereference (R113). -/
inductive RegInt where
  | reg (r : Reg)
  | int (v : Int)
  deriving DecidableEq, Repr

/-- A destination operand: r or m (R120 rows 1 and 2). `mem base off` is `Deref(base, off)` (R113). -/
inductive Dst where
  | reg (r : Reg)
  | mem (base : RegInt) (off : Int)
  deriving DecidableEq, Repr

/-- A source operand of a move: r, i, s or m (R120 rows 1 and 2). -/
inductive Src where
  | reg (r : Reg)
  | int (v : Int)
  | str (s : Text)
  | mem (base : RegInt) (off : Int)
  deriving DecidableEq, Repr

/-- A decoded instruction record (R103): one constructor per row of R120, in its order. -/
inductive Instr where
  | mov (dst : Dst) (src : Src)
  | port (dst : Dst) (src : Src)
  | add (ra : Reg) (b : RegInt)
  | sub (ra : Reg) (b : RegInt)
  | mul (ra : Reg) (b : RegInt)
  | div (ra : Reg) (b : RegInt)
  | mod (ra : Reg) (b : RegInt)
  | inr (ra : Reg)
  | dcr (ra : Reg)
  | lt (ra rb : Reg)
  | gt (ra rb : Reg)
  | eq (ra rb : Reg)
  | ne (ra rb : Reg)
  | ge (ra rb : Reg)
  | le (ra rb : Reg)
  | jz (ra : Reg) (target : Int)
  | jnz (ra : Reg) (target : Int)
  | jmp (target : Int)
  | push (ra : Reg)
  | pop (ra : Reg)
  | call (target : Int)
  | ret
  | backup
  | restore
  | int (n : Int)
  | iret
  | loadi (page block : RegInt)
  | load (page block : RegInt)
  | store (page block : RegInt)
  | encrypt (ra : Reg)
  | inp
  | ini
  | out
  | brkp
  | halt
  deriving DecidableEq, Repr

end Sys2Proof
end

