-- ==== Sys2Proof/Decode.lean ====
section
/-! DEFINITION. From the text of an instruction slot to a decoded instruction, and back: the reference lexical layer
(spec/30_encoding.md R104 to R110), the operand grammar (R111 to R113), the opcode map (R120), the decoding faults
(R122 to R128), and the encoder (R126). -/

namespace Sys2Proof

open Machine (digitsValue renderNat renderInt leadingDigits)

/-! ### Level 1: characters to tokens -/

/-- The token kinds of R102 with their payloads. -/
inductive Token where
  | keyword (text : Text)
  | register (name : Text)
  | int (v : Int)
  | str (s : Text)
  | comma
  | openBracket
  | closeBracket
  deriving DecidableEq, Repr

/-- What scanning for one token gives: the end of the text, a lexical error, or a token and the text after it. -/
inductive Scan where
  | finished
  | bad
  | token (t : Token) (rest : Text)
  deriving DecidableEq, Repr

/-- Space and tab, skipped before each token (R105). -/
def isBlank (c : Char) : Bool := c == ' ' || c == '\t'

/-- A character that starts an identifier (R106). -/
def isIdStart (c : Char) : Bool := c.isAlpha

/-- A character inside an identifier: A–Z a–z 0–9 _ (R106). -/
def isIdChar (c : Char) : Bool := c.isAlpha || c.isDigit || c == '_'

/-- The text after its leading blanks (R105). -/
def skipBlanks (t : Text) : Text := t.dropWhile isBlank

/-- The rest of an identifier; the first token of the slot is the keyword, every later one a register name (R106). -/
def scanIdentifier (first : Bool) (c : Char) (t : Text) : Scan :=
  let name := c :: t.takeWhile isIdChar
  .token (if first then .keyword name else .register name) (t.dropWhile isIdChar)

/-- An integer literal after its sign: the longest run of digits, of which there must be one (R107). -/
def scanInteger (negative : Bool) (t : Text) : Scan :=
  match leadingDigits t with
  | [] => .bad
  | ds => .token (.int (if negative then -(digitsValue ds : Int) else digitsValue ds)) (t.dropWhile Char.isDigit)

/-- A string literal after its opening quote: every character up to the next quote; no closing quote is an error
(R108). -/
def scanString (t : Text) : Scan :=
  match t.dropWhile (· != '"') with
  | [] => .bad
  | _ :: rest => .token (.str (t.takeWhile (· != '"'))) rest

/-- The next token (R105 to R109). -/
def scan (first : Bool) (t : Text) : Scan :=
  match skipBlanks t with
  | [] => .finished
  | c :: rest =>
    if isIdStart c then scanIdentifier first c rest
    else if c.isDigit then scanInteger false (c :: rest)
    else if c = '+' then scanInteger false rest
    else if c = '-' then scanInteger true rest
    else if c = '"' then scanString rest
    else if c = ',' then .token .comma rest
    else if c = '[' then .token .openBracket rest
    else if c = ']' then .token .closeBracket rest
    else .bad

/-- The tokens after the keyword; none on a lexical error (R110). Every token takes a character, so `fuel` greater
than the text's length is enough. -/
def tokensFuel : (fuel : Nat) → Text → Option (List Token)
  | 0, _ => none
  | fuel + 1, t =>
    match scan false t with
    | .finished => some []
    | .bad => none
    | .token tok rest =>
      match tokensFuel fuel rest with
      | none => none
      | some toks => some (tok :: toks)

/-- The tokens after the keyword. -/
def tokens (t : Text) : Option (List Token) := tokensFuel (t.length + 1) t

/-! ### Level 2: tokens to an instruction -/

/-- The base of a dereference before register names are looked up (R113). -/
inductive RawBase where
  | reg (name : Text)
  | int (v : Int)
  deriving DecidableEq, Repr

/-- An operand before register names are looked up: the four forms of R112. -/
inductive RawOperand where
  | reg (name : Text)
  | int (v : Int)
  | str (s : Text)
  | mem (base : RawBase) (off : Int)
  deriving DecidableEq, Repr

/-- One operand at the head of a token list, told apart by its first token (R112, R113). -/
def parseOperand : List Token → Option (RawOperand × List Token)
  | .register n :: ts => some (.reg n, ts)
  | .int v :: ts => some (.int v, ts)
  | .str s :: ts => some (.str s, ts)
  | .openBracket :: .register n :: .closeBracket :: ts => some (.mem (.reg n) 0, ts)
  | .openBracket :: .register n :: .int off :: .closeBracket :: ts => some (.mem (.reg n) off, ts)
  | .openBracket :: .int v :: .closeBracket :: ts => some (.mem (.int v) 0, ts)
  | .openBracket :: .int v :: .int off :: .closeBracket :: ts => some (.mem (.int v) off, ts)
  | _ => none

/-- Zero, one or two operands, two separated by one Comma, nothing after the last (R111). -/
def parseOperands (ts : List Token) : Option (List RawOperand) :=
  match ts with
  | [] => some []
  | _ =>
    match parseOperand ts with
    | some (a, []) => some [a]
    | some (a, .comma :: rest) =>
      match parseOperand rest with
      | some (b, []) => some [a, b]
      | _ => none
    | _ => none

/-- Why a text is no instruction, by name (R122, R123, R124). -/
inductive DecodeError where
  | illegalInstruction
  | malformedOperand
  | unknownRegister (name : Text)
  deriving DecidableEq, Repr

/-- An ASCII letter in upper case, any other character unchanged (R31). -/
def upperChar (c : Char) : Char := if c.isLower then Char.ofNat (c.toNat - 32) else c

/-- The canonical name of a register (R30). -/
def Reg.name : Reg → Text
  | .r n => 'R' :: renderNat n.val
  | .p n => 'P' :: renderNat n.val
  | .bp => ['B', 'P']
  | .sp => ['S', 'P']
  | .ip => ['I', 'P']
  | .ptbr => ['P', 'T', 'B', 'R']
  | .ptlr => ['P', 'T', 'L', 'R']
  | .eip => ['E', 'I', 'P']
  | .ec => ['E', 'C']
  | .epn => ['E', 'P', 'N']
  | .ema => ['E', 'M', 'A']

/-- `lookup(name)`: the upper-cased name compared whole with the 33 names (R31). -/
def lookup (name : Text) : Option Reg := Reg.all.find? fun r => r.name == name.map upperChar

/-- A register name resolved; the failure is UnknownRegister(name) (R124). -/
def resolve (name : Text) : Except DecodeError Reg :=
  match lookup name with
  | some r => .ok r
  | none => .error (.unknownRegister name)

/-- The base of a dereference resolved. -/
def RawBase.resolve : RawBase → Except DecodeError RegInt
  | .reg n => (Sys2Proof.resolve n).map .reg
  | .int v => .ok (.int v)

/-- A source operand resolved: all four forms (R120 rows 1 and 2). -/
def RawOperand.toSrc : RawOperand → Except DecodeError Src
  | .reg n => (resolve n).map .reg
  | .int v => .ok (.int v)
  | .str s => .ok (.str s)
  | .mem b off => b.resolve.map fun base => .mem base off

/-- What a row of the opcode map makes of the operands: an instruction or a decoding fault. -/
abbrev Builder := List RawOperand → Except DecodeError Instr

/-- The pattern (none). -/
def shapeNone (i : Instr) : Builder
  | [] => .ok i
  | _ => .error .malformedOperand

/-- The pattern `r`. -/
def shapeR (mk : Reg → Instr) : Builder
  | [.reg a] => (resolve a).map mk
  | _ => .error .malformedOperand

/-- The pattern `i`. -/
def shapeI (mk : Int → Instr) : Builder
  | [.int v] => .ok (mk v)
  | _ => .error .malformedOperand

/-- The pattern `r , r`. -/
def shapeRR (mk : Reg → Reg → Instr) : Builder
  | [.reg a, .reg b] => (resolve a).bind fun ra => (resolve b).map (mk ra)
  | _ => .error .malformedOperand

/-- The pattern `r , i`. -/
def shapeRI (mk : Reg → Int → Instr) : Builder
  | [.reg a, .int v] => (resolve a).map fun ra => mk ra v
  | _ => .error .malformedOperand

/-- The pattern `r , r/i`. -/
def shapeRRi (mk : Reg → RegInt → Instr) : Builder
  | [.reg a, .reg b] => (resolve a).bind fun ra => (resolve b).map fun rb => mk ra (.reg rb)
  | [.reg a, .int v] => (resolve a).map fun ra => mk ra (.int v)
  | _ => .error .malformedOperand

/-- The pattern `r/i , r/i`. -/
def shapeRiRi (mk : RegInt → RegInt → Instr) : Builder
  | [.reg a, .reg b] => (resolve a).bind fun ra => (resolve b).map fun rb => mk (.reg ra) (.reg rb)
  | [.reg a, .int w] => (resolve a).map fun ra => mk (.reg ra) (.int w)
  | [.int v, .reg b] => (resolve b).map fun rb => mk (.int v) (.reg rb)
  | [.int v, .int w] => .ok (mk (.int v) (.int w))
  | _ => .error .malformedOperand

/-- The pattern `r/m , r/i/s/m`. -/
def shapeMove (mk : Dst → Src → Instr) : Builder
  | [.reg a, src] => (resolve a).bind fun ra => src.toSrc.map (mk (.reg ra))
  | [.mem b off, src] => b.resolve.bind fun base => src.toSrc.map (mk (.mem base off))
  | _ => .error .malformedOperand

/-- The opcode map: keyword and operand pattern of the 35 instructions, in the order of R120. -/
def opcodeMap : List (Text × Builder) :=
  [ ("MOV".toList, shapeMove .mov), ("PORT".toList, shapeMove .port),
    ("ADD".toList, shapeRRi .add), ("SUB".toList, shapeRRi .sub), ("MUL".toList, shapeRRi .mul),
    ("DIV".toList, shapeRRi .div), ("MOD".toList, shapeRRi .mod),
    ("INR".toList, shapeR .inr), ("DCR".toList, shapeR .dcr),
    ("LT".toList, shapeRR .lt), ("GT".toList, shapeRR .gt), ("EQ".toList, shapeRR .eq),
    ("NE".toList, shapeRR .ne), ("GE".toList, shapeRR .ge), ("LE".toList, shapeRR .le),
    ("JZ".toList, shapeRI .jz), ("JNZ".toList, shapeRI .jnz), ("JMP".toList, shapeI .jmp),
    ("PUSH".toList, shapeR .push), ("POP".toList, shapeR .pop),
    ("CALL".toList, shapeI .call), ("RET".toList, shapeNone .ret),
    ("BACKUP".toList, shapeNone .backup), ("RESTORE".toList, shapeNone .restore),
    ("INT".toList, shapeI .int), ("IRET".toList, shapeNone .iret),
    ("LOADI".toList, shapeRiRi .loadi), ("LOAD".toList, shapeRiRi .load), ("STORE".toList, shapeRiRi .store),
    ("ENCRYPT".toList, shapeR .encrypt),
    ("IN".toList, shapeNone .inp), ("INI".toList, shapeNone .ini), ("OUT".toList, shapeNone .out),
    ("BRKP".toList, shapeNone .brkp), ("HALT".toList, shapeNone .halt) ]

/-- The row of a keyword: compared exactly, upper case only (R121). -/
def builderOf (keyword : Text) : Option Builder :=
  match opcodeMap.find? fun row => row.1 == keyword with
  | some row => some row.2
  | none => none

/-- `Decode(slot)` on the slot's text (R144), the faults in the order of R128: no keyword, an unknown keyword, a
lexical error or a wrong shape, an unknown register. -/
def decode (t : Text) : Except DecodeError Instr :=
  match scan true t with
  | .token (.keyword k) rest =>
    match builderOf k with
    | none => .error .illegalInstruction
    | some build =>
      match tokens rest with
      | none => .error .malformedOperand
      | some toks =>
        match parseOperands toks with
        | none => .error .malformedOperand
        | some ops => build ops
  | _ => .error .illegalInstruction

/-! ### The encoder (R126) -/

/-- The keyword of an instruction (R120). -/
def Instr.keyword : Instr → Text
  | .mov _ _ => "MOV".toList
  | .port _ _ => "PORT".toList
  | .add _ _ => "ADD".toList
  | .sub _ _ => "SUB".toList
  | .mul _ _ => "MUL".toList
  | .div _ _ => "DIV".toList
  | .mod _ _ => "MOD".toList
  | .inr _ => "INR".toList
  | .dcr _ => "DCR".toList
  | .lt _ _ => "LT".toList
  | .gt _ _ => "GT".toList
  | .eq _ _ => "EQ".toList
  | .ne _ _ => "NE".toList
  | .ge _ _ => "GE".toList
  | .le _ _ => "LE".toList
  | .jz _ _ => "JZ".toList
  | .jnz _ _ => "JNZ".toList
  | .jmp _ => "JMP".toList
  | .push _ => "PUSH".toList
  | .pop _ => "POP".toList
  | .call _ => "CALL".toList
  | .ret => "RET".toList
  | .backup => "BACKUP".toList
  | .restore => "RESTORE".toList
  | .int _ => "INT".toList
  | .iret => "IRET".toList
  | .loadi _ _ => "LOADI".toList
  | .load _ _ => "LOAD".toList
  | .store _ _ => "STORE".toList
  | .encrypt _ => "ENCRYPT".toList
  | .inp => "IN".toList
  | .ini => "INI".toList
  | .out => "OUT".toList
  | .brkp => "BRKP".toList
  | .halt => "HALT".toList

/-- A register or an integer as the base of a dereference. -/
def RegInt.rawBase : RegInt → RawBase
  | .reg r => .reg r.name
  | .int v => .int v

/-- A register or an integer as an operand. -/
def RegInt.raw : RegInt → RawOperand
  | .reg r => .reg r.name
  | .int v => .int v

/-- A destination as an operand. -/
def Dst.raw : Dst → RawOperand
  | .reg r => .reg r.name
  | .mem base off => .mem base.rawBase off

/-- A source as an operand. -/
def Src.raw : Src → RawOperand
  | .reg r => .reg r.name
  | .int v => .int v
  | .str s => .str s
  | .mem base off => .mem base.rawBase off

/-- The operands of an instruction, left to right (R120). -/
def Instr.rawOperands : Instr → List RawOperand
  | .mov d s => [d.raw, s.raw]
  | .port d s => [d.raw, s.raw]
  | .add a b => [.reg a.name, b.raw]
  | .sub a b => [.reg a.name, b.raw]
  | .mul a b => [.reg a.name, b.raw]
  | .div a b => [.reg a.name, b.raw]
  | .mod a b => [.reg a.name, b.raw]
  | .inr a => [.reg a.name]
  | .dcr a => [.reg a.name]
  | .lt a b => [.reg a.name, .reg b.name]
  | .gt a b => [.reg a.name, .reg b.name]
  | .eq a b => [.reg a.name, .reg b.name]
  | .ne a b => [.reg a.name, .reg b.name]
  | .ge a b => [.reg a.name, .reg b.name]
  | .le a b => [.reg a.name, .reg b.name]
  | .jz a t => [.reg a.name, .int t]
  | .jnz a t => [.reg a.name, .int t]
  | .jmp t => [.int t]
  | .push a => [.reg a.name]
  | .pop a => [.reg a.name]
  | .call t => [.int t]
  | .ret => []
  | .backup => []
  | .restore => []
  | .int n => [.int n]
  | .iret => []
  | .loadi p b => [p.raw, b.raw]
  | .load p b => [p.raw, b.raw]
  | .store p b => [p.raw, b.raw]
  | .encrypt a => [.reg a.name]
  | .inp => []
  | .ini => []
  | .out => []
  | .brkp => []
  | .halt => []

/-- The text of a dereference's base. -/
def RawBase.text : RawBase → Text
  | .reg n => n
  | .int v => renderInt v

/-- The text of a dereference's offset: nothing for 0, else the signed number (R126, R113). -/
def offsetText (off : Int) : Text :=
  if off = 0 then [] else if off < 0 then renderInt off else '+' :: renderInt off

/-- The text of an operand (R126). -/
def RawOperand.text : RawOperand → Text
  | .reg n => n
  | .int v => renderInt v
  | .str s => '"' :: s ++ ['"']
  | .mem base off => '[' :: base.text ++ offsetText off ++ [']']

/-- The operands' text after the keyword: one space, the operands separated by a comma and a space (R126). -/
def operandsText : List RawOperand → Text
  | [] => []
  | [a] => ' ' :: a.text
  | a :: b :: _ => ' ' :: a.text ++ [',', ' '] ++ b.text

/-- The text of an instruction (R126). -/
def encodeText (i : Instr) : Text := i.keyword ++ operandsText i.rawOperands

/-- A text cut into `n` Words of at most `cap` characters, the unused ones empty (R126). -/
def cutWords (cap : Nat) : (n : Nat) → Text → List Word
  | 0, _ => []
  | n + 1, t => ⟨t.take cap⟩ :: cutWords cap n (t.drop cap)

/-- The Words of an instruction's slot: at most WORD_CAP characters each, INSTR_SIZE of them (R126). -/
def encode (c : Config) (i : Instr) : List Word := cutWords c.wordCap c.instrSize (encodeText i)

/-! ### An instruction given as a number (the host's numbering; log 7) -/

/-- The `n` lowest bytes of a number, least significant first, as characters. -/
def bytesOfNumber : (n w : Nat) → Text
  | 0, _ => []
  | n + 1, w => Char.ofNat (w % 256) :: bytesOfNumber n (w / 256)

/-- The text of an instruction whose bits are `w`: byte k (bits 8k+7 … 8k) is the k-th byte of the slot's buffers in
ascending order; 0x00 is a terminator or padding, never a character of a text (R20, log 7). At most the slot's
capacity is kept. -/
def numberText (c : Config) (nbits w : Nat) : Text :=
  ((bytesOfNumber ((nbits + 7) / 8) w).filter fun ch => decide (ch.toNat ≠ 0)).take (c.instrSize * c.wordCap)

/-- The instruction the decoder reads from an instruction whose bits are `w`. -/
def decodeTableWord (nbits w : Nat) : Option Instr :=
  match decode (numberText Config.standard nbits w) with
  | .ok i => some i
  | .error _ => none

end Sys2Proof
end

