-- ==== Sys2Proof/Machine/State.lean ====
section
/-! DEFINITION. The state of the machine as plain data (spec/10_state.md), the fault kinds, the reasons a step can
stop, and the state after reset. -/

namespace Sys2Proof.Machine

/-- The privilege mode (R48). -/
inductive Mode where
  | kernel
  | user
  deriving DecidableEq, Repr

/-- The fault kinds of spec/60_exceptions.md R270. -/
inductive FaultKind where
  | illegalInstruction
  | malformedOperand
  | unknownRegister
  | outOfRange
  | pageFault
  | memoryProtectionFault
  | divisionByZero
  | wordOverflow
  deriving DecidableEq, Repr

/-- A fault an instruction cycle raises, with the information R270's table gives it. It is not a stop of the model:
`deliverFault` turns it into the next state R279 gives. -/
inductive Exn where
  | illegalInstruction
  | malformedOperand
  | unknownRegister (name : Text)
  | outOfRange (addr : Int)
  | pageFault (va page : Int)
  | memoryProtectionFault (va page : Int)
  | divisionByZero
  | wordOverflow (value : Int)
  deriving DecidableEq, Repr

/-- The kind of `Crashed(kind)`: the fault kind that caused the crash, or DoubleFault (R53, R282). -/
inductive CrashKind where
  | fault (k : FaultKind)
  | doubleFault
  deriving DecidableEq, Repr

/-- The run status (R53). -/
inductive Status where
  | running
  | halted
  | crashed (k : CrashKind)
  deriving DecidableEq, Repr

/-- The operation of a disk request (R50). -/
inductive DiskOp where
  | load
  | store
  deriving DecidableEq, Repr

/-- The disk device-pending record while it is busy (R50). -/
structure DiskRequest where
  remaining : Nat
  op : DiskOp
  page : Nat
  block : Nat
  deriving DecidableEq, Repr

/-- The operation of a console request; a Print carries the Word captured when it was issued (R51). -/
inductive ConsoleOp where
  | read
  | print (word : Word)
  deriving DecidableEq, Repr

/-- The console device-pending record while it is busy (R51). -/
structure ConsoleRequest where
  remaining : Nat
  op : ConsoleOp
  deriving DecidableEq, Repr

/-- A store of Words by index: (index, Word) pairs in canonical form (`Memory.wf`). An index that is not listed reads
as the empty Word (DESIGN CHOICE, log 4). -/
structure Memory where
  cells : List (Nat × Word)
  deriving DecidableEq, Repr

/-- The canonical form: indexes strictly rising, and no entry equal to what an unlisted index reads as. -/
abbrev Memory.wf (m : Memory) : Prop :=
  (m.cells.map Prod.fst).Pairwise (· < ·) ∧ ∀ e ∈ m.cells, e.2 ≠ Word.blank

/-- Everything the spec gives the machine (INVENTORY.md, State). -/
structure State where
  /-- The parameters fixed at launch (R5, R6, R54). -/
  cfg : Config
  /-- The register file, in the order of R30's list. -/
  regs : Vector Word 33
  /-- Physical memory (R46). -/
  mem : Memory
  /-- The privilege mode (R48). -/
  mode : Mode
  /-- The countdown timer (R49). -/
  timer : Int
  /-- The disk device-pending record; none is idle (R50, log 11). -/
  disk : Option DiskRequest
  /-- The console device-pending record; none is idle (R51, log 11). -/
  console : Option ConsoleRequest
  /-- The latch timer_pending (R52). -/
  timerPending : Bool
  /-- The latch disk_pending (R52). -/
  diskPending : Bool
  /-- The latch console_pending (R52). -/
  consolePending : Bool
  /-- The run status (R53). -/
  status : Status
  /-- The block store `Disk`: Word i of block b at index b × PAGE_SIZE + i (R55(a), R240, log 5). -/
  blocks : Memory
  /-- The host-supplied sequence of console input lines, `ConsoleIn` (R7(c)). -/
  consoleIn : List Text
  /-- The console input position (R55(c)): how many lines have been read. -/
  consoleInPos : Nat
  /-- The Words printed so far, `ConsoleOut` (R55(b)). -/
  consoleOut : List Word
  deriving DecidableEq, Repr

/-- Why a step stops. Raised by `step` alone, and only when the run is over: R9 gives Halted and Crashed no
successor. -/
inductive Fault where
  /-- Raised by `step` in a state whose status is Halted (R262: no instruction is fetched afterwards). Safe. -/
  | halted
  /-- Raised by `step` in a state whose status is Crashed(k) (R281, R282: no further cycle runs). Safe. -/
  | crashed (k : CrashKind)
  deriving DecidableEq, Repr

/-- Why an instruction has no meaning. No arm of `exec` uses it in this model. -/
inductive Refusal where
  /-- Raised by an arm of `exec` for an instruction that has no meaning yet. Safe. -/
  | notModelled (mnemonic : String)
  deriving DecidableEq, Repr

/-- The registers after reset: IP holds RESET_IP's text "0" (R60); the spec states no value for the others, which
hold "0" (DESIGN CHOICE, log 3). -/
def resetRegs : Vector Word 33 := Vector.replicate 33 (Word.ofString "0")

/-- The machine right after reset (R60, R331), with the values log 2, 3, 4, 5 and 10 name where the spec leaves the
value to the launch state. -/
def State.reset : State :=
  { cfg := Config.standard
    regs := resetRegs
    mem := ⟨[]⟩
    mode := .kernel
    timer := Config.standard.timerInterval
    disk := none
    console := none
    timerPending := false
    diskPending := false
    consolePending := false
    status := .running
    blocks := ⟨[]⟩
    consoleIn := []
    consoleInPos := 0
    consoleOut := [] }

end Sys2Proof.Machine
end

