-- ==== Sys2Proof/Machine/Ops.lean ====
section
/-! DEFINITION. The shared operations: registers, memory, translation, the stack, trap entry, the delivery of a fault
and the return from a trap (spec/10_state.md, 20_memory.md, 45_stack_context.md R215, 60_exceptions.md R279 to R294). -/

namespace Sys2Proof.Machine

/-! ### Registers (R12, R31, R43, R44) -/

/-- `x[r]`: the Word in a register. -/
def State.reg (s : State) (r : Reg) : Word := s.regs[r.index]

/-- `x[r] <- w`: every register can be written in both modes, nothing else changes (R31, R44). -/
def State.setReg (s : State) (r : Reg) (w : Word) : State := { s with regs := s.regs.set r.index w }

/-- `xi[r] = as_integer(x[r])` (R12). -/
def State.xi (s : State) (r : Reg) : Int := asInteger (s.reg r)

/-- The constant-zero register ZR: it reads as "0" in every state and nothing writes it (R43). -/
def State.zr (_ : State) : Word := integerWord 0

/-- `x[r] <-i v`: store_integer, then the write; WordOverflow(v) when the text does not fit (R12, R24). -/
def setInt (r : Reg) (v : Int) (s : State) : Except Exn State :=
  match storeInteger? s.cfg.wordCap v with
  | some w => .ok (s.setReg r w)
  | none => .error (.wordOverflow v)

/-- `x[r] <-i clamp(v)`, which always fits (R279; for EIP and EC log 13). -/
def State.putClamped (s : State) (r : Reg) (v : Int) : State := s.setReg r (integerWord (clampInt s.cfg v))

/-! ### The cells of a memory (R46, R72) -/

/-- The Word listed first for an index, the empty Word if none is. -/
def readCells (a : Nat) : List (Nat × Word) → Word
  | [] => Word.blank
  | (b, v) :: rest => if a = b then v else readCells a rest

/-- The cells with a Word other than the empty one put at an index, in rising order. -/
def insertCells (a : Nat) (w : Word) : List (Nat × Word) → List (Nat × Word)
  | [] => [(a, w)]
  | (b, v) :: rest =>
    if a < b then (a, w) :: (b, v) :: rest
    else if a = b then (a, w) :: rest
    else (b, v) :: insertCells a w rest

/-- The Word at an index (R72); a read has no side effect. -/
def Memory.read (m : Memory) (a : Nat) : Word := readCells a m.cells

/-- The memory with one Word changed and nothing else (R72). Writing what an unlisted index reads as removes the
entry, so that the canonical form is kept. -/
def Memory.write (m : Memory) (a : Nat) (w : Word) : Memory :=
  if w = Word.blank then ⟨m.cells.filter fun e => e.1 != a⟩ else ⟨insertCells a w m.cells⟩

/-- `n` Words copied from `src` at `i` to `dst` at `j`, in ascending order (R81, R240). -/
def copyWords (src : Memory) (i : Nat) (dst : Memory) (j : Nat) : (n : Nat) → Memory
  | 0 => dst
  | n + 1 => (copyWords src i dst j n).write (j + n) (src.read (i + n))

/-! ### Physical access and translation (R72 to R78) -/

/-- The range test of R72: `0 ≤ pa < MEMORY_SIZE`. -/
abbrev State.inMemory (s : State) (pa : Int) : Prop := 0 ≤ pa ∧ pa < s.cfg.memorySize

/-- `PhysRead(pa)` (R72). -/
def physRead (pa : Int) (s : State) : Except Exn Word :=
  if s.inMemory pa then .ok (s.mem.read pa.toNat) else .error (.outOfRange pa)

/-- `PhysWrite(pa, w)` (R72). -/
def physWrite (pa : Int) (w : Word) (s : State) : Except Exn State :=
  if s.inMemory pa then .ok { s with mem := s.mem.write pa.toNat w } else .error (.outOfRange pa)

/-- Whether the flag character at an index is set: any character but '0'; a missing one counts as '0' (R75, D34). -/
def flagSet (f : Text) (i : Nat) : Bool :=
  match f[i]? with
  | some c => c != '0'
  | none => false

/-- `valid(f)`: the flag at index 1 (R75). -/
def entryValid (f : Text) : Bool := flagSet f 1

/-- `writable(f)`: the flag at index 2 (R75). -/
def entryWritable (f : Text) : Bool := flagSet f 2

/-- `Translate(User, va, for_write)`, step by step (R77). -/
def translateUser (va : Int) (forWrite : Bool) (s : State) : Except Exn Int :=
  if va < 0 then .error (.pageFault va (-1)) else
  let page := va / s.cfg.pageSize
  let offset := va % s.cfg.pageSize
  if page ≥ s.xi .ptlr then .error (.pageFault va page) else
  let base := s.xi .ptbr
  match physRead (base + 2 * page + 1) s with
  | .error e => .error e
  | .ok flags =>
    if entryValid (asString flags) = false then .error (.pageFault va page)
    else if forWrite = true ∧ entryWritable (asString flags) = false then .error (.memoryProtectionFault va page)
    else
      match physRead (base + 2 * page) s with
      | .error e => .error e
      | .ok frame => .ok (asInteger frame * s.cfg.pageSize + offset)

/-- `Translate(m, va, for_write)`: the identity in Kernel mode (R76), the page walk in User mode (R77). -/
def translateAddr (m : Mode) (va : Int) (forWrite : Bool) (s : State) : Except Exn Int :=
  match m with
  | .kernel => .ok va
  | .user => translateUser va forWrite s

/-- `MemRead(va, 1)`, with the current mode (R74). -/
def memRead (va : Int) (s : State) : Except Exn Word :=
  match translateAddr s.mode va false s with
  | .error e => .error e
  | .ok pa => physRead pa s

/-- `MemWrite(va, 1, w)`, with the current mode (R74). -/
def memWrite (va : Int) (w : Word) (s : State) : Except Exn State :=
  match translateAddr s.mode va true s with
  | .error e => .error e
  | .ok pa => physWrite pa w s

/-! ### The stack (R215) -/

/-- A push: store at SP + 1, then SP <- SP + 1 (R215, R216). -/
def pushWord (w : Word) (s : State) : Except Exn State :=
  match memWrite (s.xi .sp + 1) w s with
  | .error e => .error e
  | .ok t => setInt .sp (s.xi .sp + 1) t

/-- A pop: load from SP, then SP <- SP − 1 (R215, R217). -/
def popWord (s : State) : Except Exn (Word × State) :=
  match memRead (s.xi .sp) s with
  | .error e => .error e
  | .ok w =>
    match setInt .sp (s.xi .sp - 1) s with
    | .error e => .error e
    | .ok t => .ok (w, t)

/-- A pop into a register, the destination written last (R217, D15). -/
def popInto (r : Reg) (s : State) : Except Exn State :=
  match popWord s with
  | .error e => .error e
  | .ok (w, t) => .ok (t.setReg r w)

/-! ### Jumps (R203) -/

/-- `JumpTo(t)`: the target translated with the current mode as a read, stored into IP (R203). -/
def jumpTo (target : Int) (s : State) : Except Exn State :=
  match translateAddr s.mode target false s with
  | .error e => .error e
  | .ok pa => setInt .ip pa s

/-! ### Trap entry, the delivery of a fault, the return from a trap (R279 to R294) -/

/-- `vector(n) = (2n + 4) × PAGE_SIZE` (R290). -/
def vector (c : Config) (n : Nat) : Int := ((2 * n + 4) * c.pageSize : Nat)

/-- `interrupt_address(n)`: the vector of a number in [0, 18]; a number outside is rejected (R231, R290). -/
def interruptAddress (c : Config) (n : Int) : Option Int :=
  if 0 ≤ n ∧ n ≤ Config.lastInterrupt then some (vector c n.toNat) else none

/-- `TrapEntry(n)`, the one path of INT, faults and interrupts: push the Word in IP with the current mode, enter
Kernel mode, go to the vector (R291). -/
def trapEntry (n : Nat) (s : State) : Except Exn State :=
  match pushWord (s.reg .ip) s with
  | .error e => .error e
  | .ok t => setInt .ip (vector s.cfg n) { t with mode := .kernel }

/-- The return from a trap: User mode first, then the pop through the page table into IP, untranslated (R232, R294). -/
def returnFromTrap (s : State) : Except Exn State := popInto .ip { s with mode := .user }

/-- The fault kind of a raised fault (R270). -/
def Exn.kind : Exn → FaultKind
  | .illegalInstruction => .illegalInstruction
  | .malformedOperand => .malformedOperand
  | .unknownRegister _ => .unknownRegister
  | .outOfRange _ => .outOfRange
  | .pageFault _ _ => .pageFault
  | .memoryProtectionFault _ _ => .memoryProtectionFault
  | .divisionByZero => .divisionByZero
  | .wordOverflow _ => .wordOverflow

/-- The cause code EC receives (R271). -/
def causeCode : FaultKind → Int
  | .pageFault => 0
  | .illegalInstruction => 1
  | .malformedOperand => 1
  | .unknownRegister => 1
  | .memoryProtectionFault => 2
  | .outOfRange => 2
  | .divisionByZero => 3
  | .wordOverflow => 3

/-- The exception registers as R280's table writes them: EIP and EC for every kind; EPN and EMA for the two faults of
a page; EMA alone for OutOfRange. -/
def writeExceptionRegs (e : Exn) (ia : Int) (s : State) : State :=
  let t := (s.putClamped .eip ia).putClamped .ec (causeCode e.kind)
  match e with
  | .pageFault va page => (t.putClamped .epn page).putClamped .ema va
  | .memoryProtectionFault va page => (t.putClamped .epn page).putClamped .ema va
  | .outOfRange addr => t.putClamped .ema addr
  | _ => t

/-- `status <- Crashed(k)`, nothing else changed (R281, R282). -/
def crash (k : CrashKind) (s : State) : State := { s with status := .crashed k }

/-- `DeliverFault(K, info, ia, m0)` (R279). `s` is the state at the start of the cycle, IP advanced unless the fetch
faulted; so its mode is m0. Kernel: the machine crashes (R281). User: the exception registers, then TrapEntry(0); a
trap entry that raises is a double fault, whose own writes are discarded (R282). -/
def deliverFault (e : Exn) (ia : Int) (s : State) : State :=
  match s.mode with
  | .kernel => crash (.fault e.kind) s
  | .user =>
    match trapEntry Config.exceptionNumber (writeExceptionRegs e ia s) with
    | .ok t => t
    | .error _ => crash .doubleFault (writeExceptionRegs e ia s)

/-- `ia`, the address the instruction in execution was fetched from: IP already holds `ia + INSTR_SIZE`
(R14, R142, log 12). -/
def State.currentInstr (s : State) : Int := s.xi .ip - s.cfg.instrSize

/-- An instruction is atomic: its pseudocode's state if it completes; if it raises, none of its writes is kept and the
fault is delivered to the state it began in (R150, R140). -/
def commit (s : State) (body : Except Exn State) : Host.Outcome State Fault Refusal :=
  match body with
  | .ok t => .next t
  | .error e => .next (deliverFault e s.currentInstr s)

end Sys2Proof.Machine
end

