-- ==== Sys2Proof/Machine/Operands.lean ====
section
/-! DEFINITION. Operand evaluation: IntOf, EA, ValOf, WriteTo (spec/40_cycle.md R146 to R149). -/

namespace Sys2Proof.Machine

/-- `IntOf(o)` for the forms r and i; it never faults (R146). -/
def intOf (o : RegInt) (s : State) : Int :=
  match o with
  | .reg r => s.xi r
  | .int v => v

/-- `EA(Deref(base, off)) = IntOf(base) + off`, unbounded (R147). -/
def effAddr (base : RegInt) (off : Int) (s : State) : Int := intOf base s + off

/-- `ValOf(o)`, the Word a source supplies (R148). -/
def valOf (o : Src) (s : State) : Except Exn Word :=
  match o with
  | .reg r => .ok (s.reg r)
  | .int v =>
    match storeInteger? s.cfg.wordCap v with
    | some w => .ok w
    | none => .error (.wordOverflow v)
  | .str t =>
    match storeString? s.cfg.wordCap t with
    | some w => .ok w
    | none => .error .malformedOperand
  | .mem base off => memRead (effAddr base off s) s

/-- `WriteTo(d, w)`; the destination's base register is read now, after the source (R149). -/
def writeTo (d : Dst) (w : Word) (s : State) : Except Exn State :=
  match d with
  | .reg r => .ok (s.setReg r w)
  | .mem base off => memWrite (effAddr base off s) w s

end Sys2Proof.Machine
end

