-- ==== Sys2Proof/Machine/Disk.lean ====
section
/-! DEFINITION. The Disk family: LOADI, LOAD, STORE, and the block store's two transfers (spec/47_disk.md). -/

namespace Sys2Proof.Machine

/-- `read_block(p, b)`: Word i of block b to Word i of page p (R240). -/
def readBlock (page block : Nat) (s : State) : State :=
  { s with mem := copyWords s.blocks (block * s.cfg.pageSize) s.mem (page * s.cfg.pageSize) s.cfg.pageSize }

/-- `write_block(p, b)`: Word i of page p to Word i of block b (R240). -/
def writeBlock (page block : Nat) (s : State) : State :=
  { s with blocks := copyWords s.mem (page * s.cfg.pageSize) s.blocks (block * s.cfg.pageSize) s.cfg.pageSize }

/-- `validate(p, b)` (R242): the page first, then the block. -/
def validateTransfer (p b : Int) (s : State) : Except Exn (Nat × Nat) :=
  if p < 0 ∨ p ≥ s.cfg.numPages then .error (.outOfRange (p * s.cfg.pageSize))
  else if b < 0 ∨ b ≥ s.cfg.numBlocks then .error (.outOfRange b)
  else .ok (p.toNat, b.toNat)

/-- `IssueDisk(op, p, b)`: dropped when the disk is busy, recorded with the configured latency otherwise
(R246, R247). -/
def issueDisk (op : DiskOp) (p b : Nat) (s : State) : State :=
  match s.disk with
  | some _ => s
  | none => { s with disk := some { remaining := s.cfg.diskLatency, op := op, page := p, block := b } }

/-- LOADI page, block: the transfer at once, without the device record (R243). -/
def execLoadi (page block : RegInt) (s : State) : Host.Outcome State Fault Refusal :=
  commit s <|
    match validateTransfer (intOf page s) (intOf block s) s with
    | .error e => .error e
    | .ok (p, b) => .ok (readBlock p b s)

/-- LOAD page, block (R244). -/
def execLoad (page block : RegInt) (s : State) : Host.Outcome State Fault Refusal :=
  commit s <|
    match validateTransfer (intOf page s) (intOf block s) s with
    | .error e => .error e
    | .ok (p, b) => .ok (issueDisk .load p b s)

/-- STORE page, block (R245). -/
def execStore (page block : RegInt) (s : State) : Host.Outcome State Fault Refusal :=
  commit s <|
    match validateTransfer (intOf page s) (intOf block s) s with
    | .error e => .error e
    | .ok (p, b) => .ok (issueDisk .store p b s)

end Sys2Proof.Machine
end

