-- ==== Sys2Proof/Machine/Misc.lean ====
section
/-! DEFINITION. The Misc family: ENCRYPT, IN, INI, OUT, BRKP, HALT, and the console (spec/48_misc.md). -/

namespace Sys2Proof.Machine

/-- The next line of the console: the host's line at the input position; a free line (bytes 0x00 to 0xFF) where the
host has supplied none (R258, R7(c), log 10). -/
def nextLine (s : State) : Text :=
  match s.consoleIn[s.consoleInPos]? with
  | some line => line
  | none => (Config.consoleLine s.consoleInPos).filter fun c => decide (c.toNat ≤ 255)

/-- `x[P0] <- NextConsoleWord()`, which takes one line (R258, R55(c)). -/
def readConsole (s : State) : State :=
  { s.setReg (.p 0) (consoleWord s.cfg.wordCap (nextLine s)) with consoleInPos := s.consoleInPos + 1 }

/-- `ConsoleOut <- ConsoleOut ++ [w]` (R302). -/
def printConsole (w : Word) (s : State) : State := { s with consoleOut := s.consoleOut ++ [w] }

/-- `IssueConsole(op, w)`: dropped when the console is busy (R260). -/
def issueConsole (op : ConsoleOp) (s : State) : State :=
  match s.console with
  | some _ => s
  | none => { s with console := some { remaining := s.cfg.consoleLatency, op := op } }

/-- `DebugHook(addr)`: the debugger can only read, so the hook is the identity on the state (R322, D31, log 16). -/
def debugHook (_addr : Int) (s : State) : State := s

/-- The hook, called only when debugging is enabled (R140, R261). -/
def callDebugHook (addr : Int) (s : State) : State := if s.cfg.debugEnabled then debugHook addr s else s

/-- ENCRYPT Ra (R255). -/
def execEncrypt (ra : Reg) (s : State) : Host.Outcome State Fault Refusal :=
  .next (s.setReg ra (encrypt s.cfg.wordCap (s.reg ra)))

/-- IN (R257). -/
def execIn (s : State) : Host.Outcome State Fault Refusal := .next (issueConsole .read s)

/-- INI: a line read at once, without the device record (R258). -/
def execIni (s : State) : Host.Outcome State Fault Refusal := .next (readConsole s)

/-- OUT: the Word in P1 is captured now (R259). -/
def execOut (s : State) : Host.Outcome State Fault Refusal := .next (issueConsole (.print (s.reg (.p 1))) s)

/-- BRKP: the debugger hook with the address of the next instruction; no state change (R261). -/
def execBrkp (s : State) : Host.Outcome State Fault Refusal := .next (callDebugHook (s.xi .ip) s)

/-- HALT (R262). -/
def execHalt (s : State) : Host.Outcome State Fault Refusal := .next { s with status := .halted }

end Sys2Proof.Machine
end

