-- ==== Sys2Proof/Machine/Tick.lean ====
section
/-! DEFINITION. The post-execute phase: the timer, the disk, the console, and the delivery of an interrupt
(spec/60_exceptions.md R299 to R305). -/

namespace Sys2Proof.Machine

/-- The three sources of asynchronous interrupts (R292, R320). -/
inductive Source where
  | timer
  | disk
  | console
  deriving DecidableEq, Repr

/-- The interrupt number of a source (R292, D22). -/
def Source.number : Source → Nat
  | .timer => 1
  | .disk => 2
  | .console => 3

/-- `TimerTick()` (R300). -/
def timerTick (s : State) : State :=
  if s.cfg.timerInterval > 0 then
    if s.timer - 1 ≤ 0 then { s with timer := s.cfg.timerInterval, timerPending := true }
    else { s with timer := s.timer - 1 }
  else s

/-- The transfer a disk request performs at its completion (R301). -/
def transfer (r : DiskRequest) (s : State) : State :=
  match r.op with
  | .load => readBlock r.page r.block s
  | .store => writeBlock r.page r.block s

/-- `DiskTick()`: the test comes before the decrement (R301). -/
def diskTick (s : State) : State :=
  match s.disk with
  | none => s
  | some r =>
    if r.remaining > 0 then { s with disk := some { r with remaining := r.remaining - 1 } }
    else { transfer r s with disk := none, diskPending := true }

/-- What a console request does at its completion (R302). -/
def consoleTransfer (op : ConsoleOp) (s : State) : State :=
  match op with
  | .read => readConsole s
  | .print w => printConsole w s

/-- `ConsoleTick()` (R302). -/
def consoleTick (s : State) : State :=
  match s.console with
  | none => s
  | some r =>
    if r.remaining > 0 then { s with console := some { r with remaining := r.remaining - 1 } }
    else { consoleTransfer r.op s with console := none, consolePending := true }

/-- The pending interrupt with the highest priority: timer, then disk, then console (R303, R304). -/
def pendingSource (s : State) : Option Source :=
  if s.timerPending then some .timer
  else if s.diskPending then some .disk
  else if s.consolePending then some .console
  else none

/-- The latch of a source cleared; delivery clears exactly the latch delivered (R305). -/
def clearLatch (src : Source) (s : State) : State :=
  match src with
  | .timer => { s with timerPending := false }
  | .disk => { s with diskPending := false }
  | .console => { s with consolePending := false }

/-- `DeliverInterrupt()`: only in User mode, at most one; an entry that raises is a double fault and leaves the latch
set (R303, R282). -/
def deliverInterrupt (s : State) : State :=
  match s.mode, pendingSource s with
  | .user, some src =>
    match trapEntry src.number s with
    | .ok t => clearLatch src t
    | .error _ => crash .doubleFault s
  | _, _ => s

/-- `PostExecute(issued_disk, issued_console)`: the three ticks, then the delivery (R299). -/
def postExecute (issuedDisk issuedConsole : Bool) (s : State) : State :=
  let s1 := timerTick s
  let s2 := if issuedDisk then s1 else diskTick s1
  let s3 := if issuedConsole then s2 else consoleTick s2
  deliverInterrupt s3

end Sys2Proof.Machine
end

