-- ==== Sys2Proof/Machine/Cycle.lean ====
section
/-! DEFINITION. The parts of the instruction cycle around Execute (spec/40_cycle.md R140 to R144): fetch, advance,
the decoding faults, and the end of the cycle. -/

namespace Sys2Proof.Machine

/-- The texts of `n` Words from a physical address on, joined; the first address out of range raises
(R141, R104). -/
def fetchText (s : State) : (a : Int) → (n : Nat) → Except Exn Text
  | _, 0 => .ok []
  | a, n + 1 =>
    match physRead a s with
    | .error e => .error e
    | .ok w =>
      match fetchText s (a + 1) n with
      | .error e => .error e
      | .ok rest => .ok (asString w ++ rest)

/-- `Fetch(ia)` at IP's value, untranslated in both modes (R141): the slot's text (R104). -/
def fetch (s : State) : Except Exn Text := fetchText s (s.xi .ip) s.cfg.instrSize

/-- The advance of IP by one slot (R142). R5's joint constraint makes it storable; where a configuration breaks that
constraint, WordOverflow (log 19). -/
def advance (s : State) : Except Exn State := setInt .ip (s.xi .ip + s.cfg.instrSize) s

/-- A decoding fault as a fault of the cycle (R122, R123, R124). -/
def decodeFault : DecodeError → Exn
  | .illegalInstruction => .illegalInstruction
  | .malformedOperand => .malformedOperand
  | .unknownRegister name => .unknownRegister name

/-- `issued_disk`: a request was recorded between two states of one cycle. Only LOAD and STORE make an idle disk busy,
and no instruction makes it idle, so this is exactly R246's Boolean (log 11). -/
def issuedDisk (before after : State) : Bool := before.disk.isNone && after.disk.isSome

/-- `issued_console`, likewise (R260, log 11). -/
def issuedConsole (before after : State) : Bool := before.console.isNone && after.console.isSome

/-- The end of a cycle: the post-execute phase, if the machine still runs (R140). -/
def finishCycle (before after : State) : State :=
  match after.status with
  | .running => postExecute (issuedDisk before after) (issuedConsole before after) after
  | _ => after

/-- The cycle of a slot whose fetch, advance or decode raised: the fault is delivered, then the cycle ends (R140). -/
def faultCycle (e : Exn) (ia : Int) (s : State) : Host.Outcome State Fault Refusal :=
  .next (finishCycle s (deliverFault e ia s))

/-- The cycle after Execute. -/
def completeCycle (before : State) (o : Host.Outcome State Fault Refusal) : Host.Outcome State Fault Refusal :=
  match o with
  | .next t => .next (finishCycle before t)
  | .fault r => .fault r
  | .refused r => .refused r

/-- Words stored at consecutive physical addresses from `a` on, those outside memory left out. -/
def placeWords (s : State) : (a : Int) → List Word → State
  | _, [] => s
  | a, w :: ws =>
    placeWords (if s.inMemory a then { s with mem := s.mem.write a.toNat w } else s) (a + 1) ws

/-- The slot at IP holding the instruction whose bits are `w` (log 6, log 7). -/
def placeNumber (s : State) (nbits w : Nat) : State :=
  placeWords s (s.xi .ip) (cutWords s.cfg.wordCap s.cfg.instrSize (numberText s.cfg nbits w))

end Sys2Proof.Machine
end

