-- ==== Sys2Proof/Machine/Arithmetic.lean ====
section
/-! DEFINITION. The Arithmetic and Unary families: ADD, SUB, MUL, DIV, MOD, INR, DCR (spec/42_arithmetic.md). -/

namespace Sys2Proof.Machine

/-- A quotient or a remainder: DivisionByZero when the divisor is 0, before anything else (R174, R175, R178). -/
def divideInto (op : Int → Int → Int) (ra : Reg) (b : RegInt) (s : State) : Except Exn State :=
  if intOf b s = 0 then .error .divisionByZero else setInt ra (op (s.xi ra) (intOf b s)) s

/-- ADD Ra, b (R171). -/
def execAdd (ra : Reg) (b : RegInt) (s : State) : Host.Outcome State Fault Refusal :=
  commit s (setInt ra (s.xi ra + intOf b s) s)

/-- SUB Ra, b (R172). -/
def execSub (ra : Reg) (b : RegInt) (s : State) : Host.Outcome State Fault Refusal :=
  commit s (setInt ra (s.xi ra - intOf b s) s)

/-- MUL Ra, b (R173). -/
def execMul (ra : Reg) (b : RegInt) (s : State) : Host.Outcome State Fault Refusal :=
  commit s (setInt ra (s.xi ra * intOf b s) s)

/-- DIV Ra, b: the quotient truncated toward zero (R174, R178). -/
def execDiv (ra : Reg) (b : RegInt) (s : State) : Host.Outcome State Fault Refusal :=
  commit s (divideInto Int.tdiv ra b s)

/-- MOD Ra, b: the remainder with the sign of the dividend (R175, R178). -/
def execMod (ra : Reg) (b : RegInt) (s : State) : Host.Outcome State Fault Refusal :=
  commit s (divideInto Int.tmod ra b s)

/-- INR Ra (R176). -/
def execInr (ra : Reg) (s : State) : Host.Outcome State Fault Refusal :=
  commit s (setInt ra (s.xi ra + 1) s)

/-- DCR Ra (R177). -/
def execDcr (ra : Reg) (s : State) : Host.Outcome State Fault Refusal :=
  commit s (setInt ra (s.xi ra - 1) s)

end Sys2Proof.Machine
end

