-- ==== Sys2Proof/Machine/Flags.lean ====
section
/-! DEFINITION. The machine has no flags, no condition codes and no predicates (spec/10_state.md R45), so no flag is
computed anywhere. What stands in their place is the result of a comparison, a Word "1" or "0" in the left register
(spec/43_comparison.md R190). -/

namespace Sys2Proof.Machine

/-- The Word a comparison stores: "1" when the relation holds, "0" when it does not (R190). -/
def truthWord (holds : Bool) : Word := integerWord (if holds then 1 else 0)

/-- The six relations on the signed integers of two registers (R190 to R196). -/
inductive Relation where
  | lt
  | gt
  | eq
  | ne
  | ge
  | le
  deriving DecidableEq, Repr

/-- Whether a relation holds between two integers. -/
def Relation.holds : Relation → Int → Int → Bool
  | .lt, a, b => decide (a < b)
  | .gt, a, b => decide (b < a)
  | .eq, a, b => decide (a = b)
  | .ne, a, b => !decide (a = b)
  | .ge, a, b => decide (b ≤ a)
  | .le, a, b => decide (a ≤ b)

/-- A comparison: the truth Word of `xi[Ra] rel xi[Rb]` written to Ra; it never faults (R190, log 18). -/
def compareInto (rel : Relation) (ra rb : Reg) (s : State) : State :=
  s.setReg ra (truthWord (rel.holds (s.xi ra) (s.xi rb)))

end Sys2Proof.Machine
end

