-- ==== Sys2Proof/Machine/Comparison.lean ====
section
/-! DEFINITION. The Comparison family: LT, GT, EQ, NE, GE, LE (spec/43_comparison.md). -/

namespace Sys2Proof.Machine

/-- LT Ra, Rb (R191). -/
def execLt (ra rb : Reg) (s : State) : Host.Outcome State Fault Refusal := .next (compareInto .lt ra rb s)

/-- GT Ra, Rb (R192). -/
def execGt (ra rb : Reg) (s : State) : Host.Outcome State Fault Refusal := .next (compareInto .gt ra rb s)

/-- EQ Ra, Rb (R193). -/
def execEq (ra rb : Reg) (s : State) : Host.Outcome State Fault Refusal := .next (compareInto .eq ra rb s)

/-- NE Ra, Rb (R194). -/
def execNe (ra rb : Reg) (s : State) : Host.Outcome State Fault Refusal := .next (compareInto .ne ra rb s)

/-- GE Ra, Rb (R195). -/
def execGe (ra rb : Reg) (s : State) : Host.Outcome State Fault Refusal := .next (compareInto .ge ra rb s)

/-- LE Ra, Rb (R196). -/
def execLe (ra rb : Reg) (s : State) : Host.Outcome State Fault Refusal := .next (compareInto .le ra rb s)

end Sys2Proof.Machine
end

