-- ==== Sys2Proof/Machine/Control.lean ====
section
/-! DEFINITION. The Control transfer and Call/Return families: JZ, JNZ, JMP, CALL, RET
(spec/44_control_transfer.md). -/

namespace Sys2Proof.Machine

/-- A jump taken when the test holds; a jump not taken neither translates nor checks its target (R200, R201). -/
def jumpWhen (taken : Bool) (target : Int) (s : State) : Except Exn State :=
  if taken then jumpTo target s else .ok s

/-- JZ Ra, t (R200). -/
def execJz (ra : Reg) (target : Int) (s : State) : Host.Outcome State Fault Refusal :=
  commit s (jumpWhen (decide (s.xi ra = 0)) target s)

/-- JNZ Ra, t (R201). -/
def execJnz (ra : Reg) (target : Int) (s : State) : Host.Outcome State Fault Refusal :=
  commit s (jumpWhen (!decide (s.xi ra = 0)) target s)

/-- JMP t: a JZ on the constant-zero register (R202, R43). -/
def execJmp (target : Int) (s : State) : Host.Outcome State Fault Refusal :=
  commit s (jumpWhen (decide (asInteger s.zr = 0)) target s)

/-- CALL's pseudocode: push the advanced IP, then jump (R204, R205). -/
def callTo (target : Int) (s : State) : Except Exn State :=
  match pushWord (s.reg .ip) s with
  | .error e => .error e
  | .ok t => jumpTo target t

/-- CALL t (R204). -/
def execCall (target : Int) (s : State) : Host.Outcome State Fault Refusal := commit s (callTo target s)

/-- RET: the top of the stack copied into IP, untranslated (R206). -/
def execRet (s : State) : Host.Outcome State Fault Refusal := commit s (popInto .ip s)

end Sys2Proof.Machine
end

