-- ==== Sys2Proof/Machine/Move.lean ====
section
/-! DEFINITION. The Move family: MOV, PORT (spec/41_move.md). -/

namespace Sys2Proof.Machine

/-- The one effect the two instructions share: the source's Word is read, then written to the destination
(R160, R161). -/
def moveWord (dst : Dst) (src : Src) (s : State) : Except Exn State :=
  match valOf src s with
  | .error e => .error e
  | .ok w => writeTo dst w s

/-- MOV dst, src (R160). -/
def execMov (dst : Dst) (src : Src) (s : State) : Host.Outcome State Fault Refusal :=
  commit s (moveWord dst src s)

/-- PORT dst, src: the same operation under its second keyword (R161, D14). -/
def execPort (dst : Dst) (src : Src) (s : State) : Host.Outcome State Fault Refusal :=
  commit s (moveWord dst src s)

end Sys2Proof.Machine
end

