-- ==== Sys2Proof/Machine/Stack.lean ====
section
/-! DEFINITION. The Stack and Context families: PUSH, POP, BACKUP, RESTORE (spec/45_stack_context.md). -/

namespace Sys2Proof.Machine

/-- PUSH Ra: the Word is read before SP changes (R216). -/
def execPush (ra : Reg) (s : State) : Host.Outcome State Fault Refusal := commit s (pushWord (s.reg ra) s)

/-- POP Ra (R217). -/
def execPop (ra : Reg) (s : State) : Host.Outcome State Fault Refusal := commit s (popInto ra s)

/-- The 23 registers BACKUP saves, in the order it pushes them (R219, D18). -/
def contextRegs : List Reg := [.bp, .ptbr, .ptlr] ++ (List.finRange 20).map .r

/-- Push the registers of a list, first to last (R220). -/
def pushRegs : List Reg → State → Except Exn State
  | [], s => .ok s
  | r :: rs, s =>
    match pushWord (s.reg r) s with
    | .error e => .error e
    | .ok t => pushRegs rs t

/-- Pop into the registers of a list, first to last; each pop is translated with the registers as they then are
(R221, R151). -/
def popRegs : List Reg → State → Except Exn State
  | [], s => .ok s
  | r :: rs, s =>
    match popInto r s with
    | .error e => .error e
    | .ok t => popRegs rs t

/-- BACKUP (R220). -/
def execBackup (s : State) : Host.Outcome State Fault Refusal := commit s (pushRegs contextRegs s)

/-- RESTORE: the exact reverse of BACKUP's order (R221). -/
def execRestore (s : State) : Host.Outcome State Fault Refusal := commit s (popRegs contextRegs.reverse s)

end Sys2Proof.Machine
end

