-- ==== Sys2Proof/Machine/Trap.lean ====
section
/-! DEFINITION. The Trap family: INT, IRET (spec/46_trap.md). -/

namespace Sys2Proof.Machine

/-- INT's pseudocode: the number is checked before any effect, then the trap entry (R230, R231). -/
def softwareInterrupt (n : Int) (s : State) : Except Exn State :=
  match interruptAddress s.cfg n with
  | none => .error .malformedOperand
  | some _ => trapEntry n.toNat s

/-- INT n (R230). -/
def execInt (n : Int) (s : State) : Host.Outcome State Fault Refusal := commit s (softwareInterrupt n s)

/-- IRET (R232). A fault of it is judged in the mode it started in: `commit` delivers it to `s`. -/
def execIret (s : State) : Host.Outcome State Fault Refusal := commit s (returnFromTrap s)

end Sys2Proof.Machine
end

