-- ==== Sys2Proof/Machine/Dispatch.lean ====
section
/-! DEFINITION. Dispatch (spec/40_cycle.md R145): one arm per instruction of spec/opcode_table.json. -/

namespace Sys2Proof.Machine

/-- `Execute(instr)` (R145), on a state whose IP has been advanced past the instruction (R14, R142). -/
def exec (i : Instr) (s : State) : Host.Outcome State Fault Refusal :=
  match i with
  | .mov dst src => Sys2Proof.Machine.execMov dst src s
  | .port dst src => Sys2Proof.Machine.execPort dst src s
  | .add ra b => Sys2Proof.Machine.execAdd ra b s
  | .sub ra b => Sys2Proof.Machine.execSub ra b s
  | .mul ra b => Sys2Proof.Machine.execMul ra b s
  | .div ra b => Sys2Proof.Machine.execDiv ra b s
  | .mod ra b => Sys2Proof.Machine.execMod ra b s
  | .inr ra => Sys2Proof.Machine.execInr ra s
  | .dcr ra => Sys2Proof.Machine.execDcr ra s
  | .lt ra rb => Sys2Proof.Machine.execLt ra rb s
  | .gt ra rb => Sys2Proof.Machine.execGt ra rb s
  | .eq ra rb => Sys2Proof.Machine.execEq ra rb s
  | .ne ra rb => Sys2Proof.Machine.execNe ra rb s
  | .ge ra rb => Sys2Proof.Machine.execGe ra rb s
  | .le ra rb => Sys2Proof.Machine.execLe ra rb s
  | .jz ra target => Sys2Proof.Machine.execJz ra target s
  | .jnz ra target => Sys2Proof.Machine.execJnz ra target s
  | .jmp target => Sys2Proof.Machine.execJmp target s
  | .push ra => Sys2Proof.Machine.execPush ra s
  | .pop ra => Sys2Proof.Machine.execPop ra s
  | .call target => Sys2Proof.Machine.execCall target s
  | .ret => Sys2Proof.Machine.execRet s
  | .backup => Sys2Proof.Machine.execBackup s
  | .restore => Sys2Proof.Machine.execRestore s
  | .int n => Sys2Proof.Machine.execInt n s
  | .iret => Sys2Proof.Machine.execIret s
  | .loadi page block => Sys2Proof.Machine.execLoadi page block s
  | .load page block => Sys2Proof.Machine.execLoad page block s
  | .store page block => Sys2Proof.Machine.execStore page block s
  | .encrypt ra => Sys2Proof.Machine.execEncrypt ra s
  | .inp => Sys2Proof.Machine.execIn s
  | .ini => Sys2Proof.Machine.execIni s
  | .out => Sys2Proof.Machine.execOut s
  | .brkp => Sys2Proof.Machine.execBrkp s
  | .halt => Sys2Proof.Machine.execHalt s

end Sys2Proof.Machine
end

