-- ==== Sys2Proof/Machine/Step.lean ====
section
/-! DEFINITION. One step of the machine: one instruction cycle (spec/40_cycle.md R140). -/

namespace Sys2Proof.Machine

/-- `Cycle` (R140): the debugger hook, fetch, advance, decode, execute, the delivery of a fault, the post-execute
phase. It runs only while the status is Running; Halted and Crashed have no successor (R9, R53), so there the step
stops by name. -/
def step (s : State) : Host.Outcome State Fault Refusal :=
  match s.status with
  | .halted => .fault .halted
  | .crashed k => .fault (.crashed k)
  | .running =>
    let ia := s.xi .ip
    let s0 := callDebugHook ia s
    match fetch s0 with
    | .error e => faultCycle e ia s0
    | .ok text =>
      match advance s0 with
      | .error e => faultCycle e ia s0
      | .ok s1 =>
        match Sys2Proof.decode text with
        | .error e => faultCycle (decodeFault e) ia s1
        | .ok i => completeCycle s1 (exec i s1)

/-- The state with the instruction whose bits are `w` stored where `step` fetches its next instruction: in the slot
at IP (log 6, log 7). -/
def State.withFetchWord (s : State) (nbits w : Nat) : State := placeNumber s nbits w

end Sys2Proof.Machine
end

