-- ==== Sys2Proof/WellFormed.lean ====
section
/-! DEFINITION. When a decoded instruction has an encoding (spec/30_encoding.md R108, R126): what a term of Instr may
hold beyond its type. -/

namespace Sys2Proof

/-- A string literal that can stand between two quotes: legal characters, none of them a quote (R108, R20). -/
abbrev LiteralOk (t : Text) : Prop := ∀ c ∈ t, LegalChar c ∧ c ≠ '"'

/-- The string literal an instruction holds, if it holds one. -/
def Instr.literal : Instr → Text
  | .mov _ (.str t) => t
  | .port _ (.str t) => t
  | _ => []

/-- A well-formed instruction: its string literal can be written (R108). Every other operand can be, whatever its
value: register names and forms are right by type, integers are unbounded (R107). -/
abbrev Instr.WellFormed (i : Instr) : Prop := LiteralOk i.literal

/-- An instruction whose text fits a slot of a machine with these parameters (R104, R126: at most
INSTR_SIZE × WORD_CAP characters; a longer text cannot be encoded). -/
abbrev Instr.Fits (c : Config) (i : Instr) : Prop := (encodeText i).length ≤ c.instrSize * c.wordCap

end Sys2Proof
end

