-- ==== Sys2Proof/Safety.lean ====
section
/-! DEFINITION. The terms claims are stated in: the invariant of a run, what a transition leaves unchanged, and what
an instruction may write. -/

namespace Sys2Proof.Machine

/-- An integer a Word can hold: INT_MIN ≤ v ≤ INT_MAX (spec/10_state.md R24). -/
abbrev Fits (c : Config) (v : Int) : Prop := c.intMin ≤ v ∧ v ≤ c.intMax

/-- The two parts of an integer text: an optional sign and one or more digits (R21, R22, R107). -/
def IntegerText (sign ds : Text) : Prop :=
  (sign = [] ∨ sign = ['+'] ∨ sign = ['-']) ∧ ds ≠ [] ∧ ∀ d ∈ ds, d.isDigit = true

/-- Every Word of a memory is legal, and every listed index is below `size`. -/
structure Memory.Sound (m : Memory) (size cap : Nat) : Prop where
  /-- The canonical form. -/
  wf : m.wf
  /-- Nothing is listed beyond the memory (R46). -/
  bounded : ∀ e ∈ m.cells, e.1 < size
  /-- Every Word is legal (R20). -/
  legal : ∀ e ∈ m.cells, e.2.Legal cap

/-- The invariant of a run: what the launch preconditions (R332) put in and every cycle keeps. -/
structure State.Inv (s : State) : Prop where
  /-- The parameters meet R5's constraints. -/
  cfgValid : s.cfg.Valid
  /-- Every register holds a legal Word (R20, R30). -/
  regsLegal : ∀ r, (s.reg r).Legal s.cfg.wordCap
  /-- Physical memory (R46, R20). -/
  memSound : s.mem.Sound s.cfg.memorySize s.cfg.wordCap
  /-- The block store (R240, R332). -/
  blocksSound : s.blocks.Sound (s.cfg.numBlocks * s.cfg.pageSize) s.cfg.wordCap
  /-- An enabled timer stands between 1 and its interval (R300, R321). -/
  timerBound : 0 < s.cfg.timerInterval → 1 ≤ s.timer ∧ s.timer ≤ s.cfg.timerInterval
  /-- A pending disk request was validated and counts down from the latency (R242, R246). -/
  diskOk : ∀ r, s.disk = some r →
    r.remaining ≤ s.cfg.diskLatency ∧ r.page < s.cfg.numPages ∧ r.block < s.cfg.numBlocks
  /-- A pending console request counts down from the latency; the Word to print is legal (R260). -/
  consoleOk : ∀ r, s.console = some r →
    r.remaining ≤ s.cfg.consoleLatency ∧ ∀ w, r.op = .print w → w.Legal s.cfg.wordCap
  /-- The host's lines are lines of bytes (R20, R258). -/
  linesOk : ∀ line ∈ s.consoleIn, ∀ c ∈ line, c.toNat ≤ 255
  /-- What was printed is legal Words (R259). -/
  outLegal : ∀ w ∈ s.consoleOut, w.Legal s.cfg.wordCap

/-- Every register outside the list is unchanged. -/
def SameRegsBut (rs : List Reg) (s t : State) : Prop := ∀ r, r ∉ rs → t.reg r = s.reg r

/-- Every Word of memory reads as before. -/
def SameMemory (s t : State) : Prop := ∀ a, t.mem.read a = s.mem.read a

/-- Every Word of memory but the one at a physical address reads as before. -/
def SameMemoryBut (pa : Int) (s t : State) : Prop := ∀ a : Nat, (a : Int) ≠ pa → t.mem.read a = s.mem.read a

/-- The configuration, the timer, the device records, the latches and the platform state are unchanged. -/
def SameDevices (s t : State) : Prop :=
  t.cfg = s.cfg ∧ t.timer = s.timer ∧ t.disk = s.disk ∧ t.console = s.console ∧
    t.timerPending = s.timerPending ∧ t.diskPending = s.diskPending ∧ t.consolePending = s.consolePending ∧
    t.blocks = s.blocks ∧ t.consoleIn = s.consoleIn ∧ t.consoleInPos = s.consoleInPos ∧
    t.consoleOut = s.consoleOut

/-- Nothing but the listed registers is changed. -/
def OnlyRegs (rs : List Reg) (s t : State) : Prop :=
  SameRegsBut rs s t ∧ SameMemory s t ∧ SameDevices s t ∧ t.mode = s.mode ∧ t.status = s.status

/-- Nothing but the listed registers and the Word at a physical address is changed. -/
def OnlyRegsAndWord (rs : List Reg) (pa : Int) (s t : State) : Prop :=
  SameRegsBut rs s t ∧ SameMemoryBut pa s t ∧ SameDevices s t ∧ t.mode = s.mode ∧ t.status = s.status

/-- The 23 registers of BACKUP and RESTORE, written out from R219 (the count is decision D18). -/
def savedRegs : List Reg := [.bp, .ptbr, .ptlr] ++ (List.finRange 20).map .r

/-- The registers an instruction's rule writes, explicitly or implicitly (R44). IP's advance is not among them: it is
the cycle's (R142). -/
def writtenRegs : Instr → List Reg
  | .mov (.reg r) _ => [r]
  | .mov (.mem _ _) _ => []
  | .port (.reg r) _ => [r]
  | .port (.mem _ _) _ => []
  | .add a _ => [a]
  | .sub a _ => [a]
  | .mul a _ => [a]
  | .div a _ => [a]
  | .mod a _ => [a]
  | .inr a => [a]
  | .dcr a => [a]
  | .lt a _ => [a]
  | .gt a _ => [a]
  | .eq a _ => [a]
  | .ne a _ => [a]
  | .ge a _ => [a]
  | .le a _ => [a]
  | .jz _ _ => [.ip]
  | .jnz _ _ => [.ip]
  | .jmp _ => [.ip]
  | .push _ => [.sp]
  | .pop a => [.sp, a]
  | .call _ => [.sp, .ip]
  | .ret => [.sp, .ip]
  | .backup => [.sp]
  | .restore => .sp :: savedRegs
  | .int _ => [.sp, .ip]
  | .iret => [.sp, .ip]
  | .loadi _ _ => []
  | .load _ _ => []
  | .store _ _ => []
  | .encrypt a => [a]
  | .inp => []
  | .ini => [.p 0]
  | .out => []
  | .brkp => []
  | .halt => []

/-- The registers the delivery of a fault writes (R279, R280, R291). -/
def trapWrites : List Reg := [.eip, .ec, .epn, .ema, .sp, .ip]

/-- The register holds the canonical text of `v`, what `x[r] <-i v` writes (R12, R24), and so reads as `v`. -/
def HoldsInt (s : State) (r : Reg) (v : Int) : Prop := s.reg r = integerWord v ∧ s.xi r = v

/-- What an instruction that computes `v` for register `ra` does: it stores `v` there and changes nothing else, or
raises WordOverflow(v) when `v` does not fit a Word (R170). -/
def StoresResult (i : Instr) (ra : Reg) (v : Int) (s : State) : Prop :=
  (Fits s.cfg v →
    ∃ t, exec i s = .next t ∧ HoldsInt t ra v ∧ OnlyRegs [ra] s t) ∧
  (¬ Fits s.cfg v → exec i s = .next (deliverFault (.wordOverflow v) s.currentInstr s))

/-- Where an instruction's stack access at the virtual address `va`, translated with mode `m` in the state `view` the
access is made in, faults: the translation's own fault, OutOfRange at a physical address outside memory, WordOverflow
when the new SP does not fit a Word. Each is delivered to the state `s` the instruction began in (R72, R77, R215,
R150). -/
def StackFaults (i : Instr) (m : Mode) (va : Int) (forWrite : Bool) (newSp : Int) (view s : State) : Prop :=
  (∀ e, translateAddr m va forWrite view = .error e → exec i s = .next (deliverFault e s.currentInstr s)) ∧
  (∀ pa, translateAddr m va forWrite view = .ok pa → ¬ s.inMemory pa →
    exec i s = .next (deliverFault (.outOfRange pa) s.currentInstr s)) ∧
  (∀ pa, translateAddr m va forWrite view = .ok pa → s.inMemory pa → ¬ Fits s.cfg newSp →
    exec i s = .next (deliverFault (.wordOverflow newSp) s.currentInstr s))

/-- A push in User mode fails: its address does not translate, or is outside memory, or SP + 1 has no Word
(R215, R282). -/
def PushFails (s : State) : Prop :=
  (∃ e, translateAddr .user (s.xi .sp + 1) true s = .error e) ∨
  (∃ pa, translateAddr .user (s.xi .sp + 1) true s = .ok pa ∧ ¬ s.inMemory pa) ∨
  ∃ pa, translateAddr .user (s.xi .sp + 1) true s = .ok pa ∧ s.inMemory pa ∧
    storeInteger? s.cfg.wordCap (s.xi .sp + 1) = none

/-- The register of BACKUP's push number `k`, from 0 to 22: BP, PTBR, PTLR, then R0 to R19 (R219). -/
def savedReg (k : Nat) : Reg :=
  if k = 0 then .bp else if k = 1 then .ptbr else if k = 2 then .ptlr else .r (Fin.ofNat 20 (k - 3))

/-- Memory after the first `n` pushes of a BACKUP, push `k` having gone to the physical address `addr k` (R220). -/
def backupMem (s : State) (addr : Nat → Int) : (n : Nat) → Memory
  | 0 => s.mem
  | n + 1 => (backupMem s addr n).write (addr n).toNat (s.reg (savedReg n))

/-- The first `n` addresses differ from one another. -/
def AllDiffer (n : Nat) (addr : Nat → Int) : Prop := ∀ k : Nat, k < n → ∀ j : Nat, j < k → addr j ≠ addr k

/-- The state BACKUP's push number `n` is translated in, SP apart: the pushes before it have been made (R151). -/
def backupView (s : State) (addr : Nat → Int) (n : Nat) : State := { s with mem := backupMem s addr n }

/-- The first `n` pushes of a BACKUP go through, push `k` at the physical address `addr k` (R220). -/
def PushesGo (n : Nat) (addr : Nat → Int) (s : State) : Prop :=
  ∀ k : Nat, k < n → translateAddr s.mode (s.xi .sp + 1 + k) true (backupView s addr k) = .ok (addr k) ∧
    s.inMemory (addr k) ∧ Fits s.cfg (s.xi .sp + 1 + k)

/-- The state RESTORE's pop number `n` is translated in, as far as translation looks: pop 20 has written PTLR, pop 21
PTBR (R151, R221). -/
def restoreView (s : State) (addr : Nat → Int) (n : Nat) : State :=
  let limited := s.setReg .ptlr (s.mem.read (addr 20).toNat)
  if n ≤ 20 then s
  else if n = 21 then limited
  else limited.setReg .ptbr (s.mem.read (addr 21).toNat)

/-- The first `n` pops of a RESTORE go through, pop `k` at the physical address `addr k` (R221). -/
def PopsGo (n : Nat) (addr : Nat → Int) (s : State) : Prop :=
  ∀ k : Nat, k < n → translateAddr s.mode (s.xi .sp - k) false (restoreView s addr k) = .ok (addr k) ∧
    s.inMemory (addr k) ∧ Fits s.cfg (s.xi .sp - 1 - k)

/-- None of the first `n` Words above the top of the stack, found at `addr`, is part of a page-table entry that
translates one of them (R75). -/
def ClearOfTable (n : Nat) (addr : Nat → Int) (s : State) : Prop :=
  ∀ j : Nat, j < n → ∀ k : Nat, k < n →
    addr j ≠ s.xi .ptbr + 2 * ((s.xi .sp + 1 + k) / s.cfg.pageSize) ∧
    addr j ≠ s.xi .ptbr + 2 * ((s.xi .sp + 1 + k) / s.cfg.pageSize) + 1

/-- The Word above the top of the stack can be pushed to, at the physical address `pa`, and the push leaves the
translation of that Word as it is (R76, R77). -/
def StackWord (pa : Int) (s : State) : Prop :=
  translateAddr s.mode (s.xi .sp + 1) true s = .ok pa ∧ s.inMemory pa ∧ Fits s.cfg (s.xi .sp + 1) ∧
    (s.mode = .user → ClearOfTable 1 (fun _ => pa) s)

/-- Every Word of memory but `n` consecutive ones reads as before. -/
def SameMemoryButBlock (base : Int) (n : Nat) (s t : State) : Prop :=
  ∀ a : Nat, ((a : Int) < base ∨ base + n ≤ a) → t.mem.read a = s.mem.read a

/-- The cycle from `s` up to its post-execute phase: `before` is the state Execute begins in, `after` the state that
Execute or the delivery of a fault leaves (R140, R141, R142, R144, R279). -/
def CycleBody (s before after : State) : Prop :=
  (∃ e, fetch s = .error e ∧ before = s ∧ after = deliverFault e (s.xi .ip) s) ∨
  (∃ text e, fetch s = .ok text ∧ advance s = .error e ∧ before = s ∧ after = deliverFault e (s.xi .ip) s) ∨
  (∃ text e, fetch s = .ok text ∧ advance s = .ok before ∧ decode text = .error e ∧
    after = deliverFault (decodeFault e) (s.xi .ip) before) ∨
  (∃ text i, fetch s = .ok text ∧ advance s = .ok before ∧ decode text = .ok i ∧ exec i before = .next after)

/-! ### The grammar of operands, as the rules print it (R111 to R113, R120) -/

/-- The four operand forms r, i, s, m (R112). -/
inductive OperandForm where
  | register
  | integer
  | string
  | dereference
  deriving DecidableEq, Repr

/-- The form of an operand. -/
def operandForm : RawOperand → OperandForm
  | .reg _ => .register
  | .int _ => .integer
  | .str _ => .string
  | .mem _ _ => .dereference

/-- The operand patterns of R120's table: for each keyword the forms each operand may have. -/
def operandPatterns : List (Text × List (List OperandForm)) :=
  let rm : List OperandForm := [.register, .dereference]
  let rism : List OperandForm := [.register, .integer, .string, .dereference]
  let r : List OperandForm := [.register]
  let i : List OperandForm := [.integer]
  let ri : List OperandForm := [.register, .integer]
  [ ("MOV".toList, [rm, rism]), ("PORT".toList, [rm, rism]),
    ("ADD".toList, [r, ri]), ("SUB".toList, [r, ri]), ("MUL".toList, [r, ri]), ("DIV".toList, [r, ri]),
    ("MOD".toList, [r, ri]), ("INR".toList, [r]), ("DCR".toList, [r]),
    ("LT".toList, [r, r]), ("GT".toList, [r, r]), ("EQ".toList, [r, r]), ("NE".toList, [r, r]),
    ("GE".toList, [r, r]), ("LE".toList, [r, r]),
    ("JZ".toList, [r, i]), ("JNZ".toList, [r, i]), ("JMP".toList, [i]),
    ("PUSH".toList, [r]), ("POP".toList, [r]), ("CALL".toList, [i]), ("RET".toList, []),
    ("BACKUP".toList, []), ("RESTORE".toList, []), ("INT".toList, [i]), ("IRET".toList, []),
    ("LOADI".toList, [ri, ri]), ("LOAD".toList, [ri, ri]), ("STORE".toList, [ri, ri]),
    ("ENCRYPT".toList, [r]), ("IN".toList, []), ("INI".toList, []), ("OUT".toList, []),
    ("BRKP".toList, []), ("HALT".toList, []) ]

/-- The operands are as many as the pattern lists, each of a form the pattern allows there (R123). -/
def MatchesPattern (pattern : List (List OperandForm)) (ops : List RawOperand) : Prop :=
  List.Forall₂ (fun forms o => operandForm o ∈ forms) pattern ops

/-- The token of a dereference's base (R113). -/
def baseToken : RawBase → Token
  | .reg n => .register n
  | .int v => .int v

/-- The token sequences of one operand (R112, R113): an offset 0 may be left out. -/
inductive SpellsOperand : RawOperand → List Token → Prop where
  | reg (n : Text) : SpellsOperand (.reg n) [.register n]
  | int (v : Int) : SpellsOperand (.int v) [.int v]
  | str (x : Text) : SpellsOperand (.str x) [.str x]
  | bare (b : RawBase) : SpellsOperand (.mem b 0) [.openBracket, baseToken b, .closeBracket]
  | offset (b : RawBase) (off : Int) : SpellsOperand (.mem b off) [.openBracket, baseToken b, .int off, .closeBracket]

/-- The token sequences of zero, one or two operands, two separated by one Comma (R111). -/
inductive SpellsOperands : List RawOperand → List Token → Prop where
  | none : SpellsOperands [] []
  | one {a : RawOperand} {ts : List Token} (ha : SpellsOperand a ts) : SpellsOperands [a] ts
  | two {a b : RawOperand} {ts us : List Token} (ha : SpellsOperand a ts) (hb : SpellsOperand b us) :
      SpellsOperands [a, b] (ts ++ .comma :: us)

/-- The register names of an operand. -/
def operandNames : RawOperand → List Text
  | .reg n => [n]
  | .mem (.reg n) _ => [n]
  | _ => []

/-- The first register name, left to right, that no register has (R124). -/
def firstUnknown (ops : List RawOperand) : Option Text :=
  (ops.flatMap operandNames).find? fun n => (lookup n).isNone

/-- An operand with its register name in upper case, the spelling of R30. -/
def upperNames : RawOperand → RawOperand
  | .reg n => .reg (n.map upperChar)
  | .mem (.reg n) off => .mem (.reg (n.map upperChar)) off
  | o => o

/-- A function applied `n` times. -/
def repeatTick (f : State → State) : (n : Nat) → State → State
  | 0, s => s
  | n + 1, s => f (repeatTick f n s)

end Sys2Proof.Machine
end

