-- ==== Sys2Proof/Certificates/Slice0/Obligations.lean ====
section
/-! DEFINITION. The statements for the provers. A docstring names the rules of spec/ a statement rests on; where a
clause rests on a decision the spec marks as its own (92_eei_decisions.md), the decision is named. -/

open Sys2Proof Sys2Proof.Machine

/-! ### Encoding -/

/-- Decoding the text of a well-formed instruction gives the instruction back, with every operand at every value (R104
to R113, R120, R126; the lexical layer and the assembler syntax are decision D12, log 8; the dereference form is D13,
the operand patterns D14). -/
def Obligations.DecodeReadsBackEveryEncoding : Prop :=
  ∀ i : Instr, i.WellFormed → decode (encodeText i) = .ok i

/-- A slot that holds the Words of an encoded instruction is fetched, in both modes untranslated, as a text that
decodes to that instruction (R104, R126, R141; the slot's text and the cutting into Words are decision D12, log 8;
that fetch is untranslated is D41). -/
def Obligations.EncodedSlotIsFetchedAndDecoded : Prop :=
  ∀ (s : State) (i : Instr) (ia : Nat), i.WellFormed → i.Fits s.cfg → s.xi .ip = ia →
    ia + s.cfg.instrSize ≤ s.cfg.memorySize →
    (∀ k w, (encode s.cfg i)[k]? = some w → s.mem.read (ia + k) = w) →
    ∃ text, fetch s = .ok text ∧ decode text = .ok i

/-- A written-out text of each of the 35 instructions decodes to the instruction it stands for, every row of R129's
table is among the texts, and three instructions are written back as R126 writes them (R120, R126, R129,
95_test_vectors.md 2.3; decisions D12, D14, D36, D37, log 8). -/
def Obligations.WrittenOutTextsDecode : Prop :=
  decode "MOV [SP-1], \"a b\"".toList = .ok (.mov (.mem (.reg .sp) (-1)) (.str "a b".toList)) ∧
  decode "MOV R0, 5".toList = .ok (.mov (.reg (.r 0)) (.int 5)) ∧
  decode "MOV r0, -12".toList = .ok (.mov (.reg (.r 0)) (.int (-12))) ∧
  decode "MOV [1024+8], r0".toList = .ok (.mov (.mem (.int 1024) 8) (.reg (.r 0))) ∧
  decode "PORT R3, [ P0 ]".toList = .ok (.port (.reg (.r 3)) (.mem (.reg (.p 0)) 0)) ∧
  decode "ADD R1,R2".toList = .ok (.add (.r 1) (.reg (.r 2))) ∧
  decode "SUB R6, 2".toList = .ok (.sub (.r 6) (.int 2)) ∧
  decode "MUL R1, +6".toList = .ok (.mul (.r 1) (.int 6)) ∧
  decode "DIV R0, R1".toList = .ok (.div (.r 0) (.reg (.r 1))) ∧
  decode "MOD R0, -1".toList = .ok (.mod (.r 0) (.int (-1))) ∧
  decode "INR BP".toList = .ok (.inr .bp) ∧
  decode "DCR Ptbr".toList = .ok (.dcr .ptbr) ∧
  decode "LT R19, P3".toList = .ok (.lt (.r 19) (.p 3)) ∧
  decode "GT R2, R3".toList = .ok (.gt (.r 2) (.r 3)) ∧
  decode "EQ R4, R5".toList = .ok (.eq (.r 4) (.r 5)) ∧
  decode "NE R6, R7".toList = .ok (.ne (.r 6) (.r 7)) ∧
  decode "GE P1, SP".toList = .ok (.ge (.p 1) .sp) ∧
  decode "LE EC, EPN".toList = .ok (.le .ec .epn) ∧
  decode "JZ R1, 007".toList = .ok (.jz (.r 1) 7) ∧
  decode "JNZ R1, 40".toList = .ok (.jnz (.r 1) 40) ∧
  decode "JMP 2048".toList = .ok (.jmp 2048) ∧
  decode "PUSH EMA".toList = .ok (.push .ema) ∧
  decode "POP EIP".toList = .ok (.pop .eip) ∧
  decode "CALL -6".toList = .ok (.call (-6)) ∧
  decode "RET".toList = .ok .ret ∧
  decode "BACKUP".toList = .ok .backup ∧
  decode "RESTORE".toList = .ok .restore ∧
  decode "INT 7".toList = .ok (.int 7) ∧
  decode "IRET".toList = .ok .iret ∧
  decode "LOADI R1, 5".toList = .ok (.loadi (.reg (.r 1)) (.int 5)) ∧
  decode "LOAD 3, R2".toList = .ok (.load (.int 3) (.reg (.r 2))) ∧
  decode "STORE 50, 7".toList = .ok (.store (.int 50) (.int 7)) ∧
  decode "ENCRYPT PTLR".toList = .ok (.encrypt .ptlr) ∧
  decode "IN".toList = .ok .inp ∧
  decode "INI".toList = .ok .ini ∧
  decode "OUT".toList = .ok .out ∧
  decode "BRKP".toList = .ok .brkp ∧
  decode "HALT".toList = .ok .halt ∧
  decode "  HALT ".toList = .ok .halt ∧
  decode "mov R0, 5".toList = .error .illegalInstruction ∧
  decode "ADD R1 R2".toList = .error .malformedOperand ∧
  decode "PUSH R20".toList = .error (.unknownRegister "R20".toList) ∧
  decode [] = .error .illegalInstruction ∧
  decode "5".toList = .error .illegalInstruction ∧
  decode "NOP".toList = .error .illegalInstruction ∧
  encodeText (.mov (.mem (.int 3001) 0) (.str "0100".toList)) = "MOV [3001], \"0100\"".toList ∧
  encodeText (.mov (.mem (.reg (.r 1)) 4) (.mem (.reg .sp) (-1))) = "MOV [R1+4], [SP-1]".toList ∧
  encodeText (.jz (.r 19) (-7)) = "JZ R19, -7".toList

/-- The tokens of a slot: blanks are skipped; an identifier, an integer, a string or a punctuation mark is read whole;
anything else is a lexical error; an instruction is decoded only from a slot whose first token is that instruction's
own keyword, in upper case (R105 to R110, R120, R121; the lexical layer is decision D12, log 8, the case D36, the
patterns D14). -/
def Obligations.DecodedSlotBeginsWithTheKeyword : Prop :=
  (∀ first : Bool,
    scan first [] = .finished ∧
    (∀ (c : Char) (t : Text), c = ' ' ∨ c = '\t' → scan first (c :: t) = scan first t) ∧
    (∀ (c : Char) (name rest : Text), c.isAlpha = true →
      (∀ ch ∈ name, ch.isAlpha = true ∨ ch.isDigit = true ∨ ch = '_') →
      (∀ ch ∈ rest.head?, ¬ (ch.isAlpha = true ∨ ch.isDigit = true ∨ ch = '_')) →
      scan first (c :: name ++ rest) =
        .token (if first = true then .keyword (c :: name) else .register (c :: name)) rest) ∧
    (∀ sign ds rest : Text, IntegerText sign ds → (∀ ch ∈ rest.head?, ch.isDigit = false) →
      scan first (sign ++ ds ++ rest) =
        .token (.int (if sign = ['-'] then -(digitsValue ds : Int) else digitsValue ds)) rest) ∧
    (∀ (c : Char) (rest : Text), c = '+' ∨ c = '-' → (∀ ch ∈ rest.head?, ch.isDigit = false) →
      scan first (c :: rest) = .bad) ∧
    (∀ x rest : Text, '"' ∉ x → scan first ('"' :: x ++ '"' :: rest) = .token (.str x) rest ∧
      scan first ('"' :: x) = .bad) ∧
    (∀ rest : Text, scan first (',' :: rest) = .token .comma rest ∧
      scan first ('[' :: rest) = .token .openBracket rest ∧ scan first (']' :: rest) = .token .closeBracket rest) ∧
    (∀ (c : Char) (rest : Text), c.isAlpha = false → c.isDigit = false →
      c ∉ [' ', '\t', '+', '-', '"', ',', '[', ']'] → scan first (c :: rest) = .bad)) ∧
  (∀ t : Text,
    (scan false t = .finished → tokens t = some []) ∧ (scan false t = .bad → tokens t = none) ∧
    ∀ tok rest, scan false t = .token tok rest → tokens t = (tokens rest).map (tok :: ·)) ∧
  ∀ (t : Text) (i : Instr), decode t = .ok i → ∃ rest, scan true t = .token (.keyword i.keyword) rest

/-- The decoding faults in their order, and what is left: no keyword; a keyword R120 does not list; a lexical error,
or tokens that spell no operands of the keyword's pattern (an operand missing, extra or of a form not listed); the
leftmost register name that no register has; otherwise the instruction of that keyword and those operands (R110, R111
to R113, R120, R122 to R124, R128; decisions D13, D14, D37, D44). -/
def Obligations.DecodingFaultsComeInOrder : Prop :=
  ∀ t : Text,
    ((∀ k rest, scan true t ≠ .token (.keyword k) rest) → decode t = .error .illegalInstruction) ∧
    ∀ k rest, scan true t = .token (.keyword k) rest →
      (k ∉ operandPatterns.map Prod.fst → decode t = .error .illegalInstruction) ∧
      ∀ pattern, (k, pattern) ∈ operandPatterns →
        (tokens rest = none → decode t = .error .malformedOperand) ∧
        ∀ ts, tokens rest = some ts →
          ((∀ ops, SpellsOperands ops ts → ¬ MatchesPattern pattern ops) → decode t = .error .malformedOperand) ∧
          ∀ ops, SpellsOperands ops ts → MatchesPattern pattern ops →
            (∀ n, firstUnknown ops = some n → decode t = .error (.unknownRegister n)) ∧
            (firstUnknown ops = none →
              ∃ i, decode t = .ok i ∧ i.keyword = k ∧ i.rawOperands = ops.map upperNames)

/-- Register lookup is by exact case-insensitive match with the 33 names, each written out: R and a number below 20, P
and a number below 4, BP, SP, IP, PTBR, PTLR, EIP, EC, EPN, EMA (R30, R31; their number is decision D4). -/
def Obligations.RegisterLookupIsCaseInsensitive : Prop :=
  (∀ (name : Text) (r : Reg), lookup name = some r ↔ name.map upperChar = r.name) ∧
  (∀ c : Char, upperChar c = if 'a' ≤ c ∧ c ≤ 'z' then Char.ofNat (c.toNat - 32) else c) ∧
  (∀ k : Fin 20, (Reg.r k).name = 'R' :: renderInt k) ∧ (∀ k : Fin 4, (Reg.p k).name = 'P' :: renderInt k) ∧
  Reg.bp.name = "BP".toList ∧ Reg.sp.name = "SP".toList ∧ Reg.ip.name = "IP".toList ∧
  Reg.ptbr.name = "PTBR".toList ∧ Reg.ptlr.name = "PTLR".toList ∧ Reg.eip.name = "EIP".toList ∧
  Reg.ec.name = "EC".toList ∧ Reg.epn.name = "EPN".toList ∧ Reg.ema.name = "EMA".toList

/-! ### Words -/

/-- store_integer gives the canonical decimal text exactly for INT_MIN ≤ v ≤ INT_MAX, and fails otherwise; the bounds,
the rendering and the decimal value of digits are written out (R5, R24; the rejection is decision D7, WORD_CAP is
D1). -/
def Obligations.StoreIntegerIsCanonicalWithinItsRange : Prop :=
  (digitsValue [] = 0 ∧ ∀ (ds : Text) (d : Char), digitsValue (ds ++ [d]) = 10 * digitsValue ds + (d.toNat - 48)) ∧
  (∀ v : Int, (integerWord v).text = renderInt v ∧
    ∃ ds : Text, renderInt v = (if v < 0 then ['-'] else []) ++ ds ∧ ds ≠ [] ∧ (∀ ch ∈ ds, ch.isDigit = true) ∧
      (ds.head? = some '0' → ds = ['0']) ∧ digitsValue ds = v.natAbs) ∧
  ∀ (c : Config) (v : Int), 2 ≤ c.wordSize →
    c.wordCap = c.wordSize - 1 ∧ c.intMax = (10 : Int) ^ c.wordCap - 1 ∧
    c.intMin = -((10 : Int) ^ (c.wordCap - 1) - 1) ∧
    (Fits c v → storeInteger? c.wordCap v = some (integerWord v)) ∧
    (¬ Fits c v → storeInteger? c.wordCap v = none)

/-- What the text of a Word means, and the round-trip laws. as_integer is the value of the longest prefix of an
optional sign and digits, 0 where there is none, no blank skipped; classify is Integer exactly for an optional sign
and one or more digits; as_string is the text; store_string keeps a text of at most WORD_CAP characters and fails for
a longer one (R21 to R25, R27; decisions D6, D7, D8, conflict C7). -/
def Obligations.WordsRoundTrip : Prop :=
  (∀ sign ds rest : Text, IntegerText sign ds → (∀ ch ∈ rest.head?, ch.isDigit = false) →
    asInteger ⟨sign ++ ds ++ rest⟩ = if sign = ['-'] then -(digitsValue ds : Int) else digitsValue ds) ∧
  (∀ w : Word, (¬ ∃ sign ds rest, IntegerText sign ds ∧ w.text = sign ++ ds ++ rest) → asInteger w = 0) ∧
  (∀ w : Word, (classify w = .integer ↔ ∃ sign ds, IntegerText sign ds ∧ w.text = sign ++ ds) ∧
    asString w = w.text) ∧
  ∀ c : Config, 2 ≤ c.wordSize →
    (∀ v, Fits c v → ∃ w, storeInteger? c.wordCap v = some w ∧ asInteger w = v ∧ classify w = .integer) ∧
    (∀ t : Text, (t.length ≤ c.wordCap → ∃ w, storeString? c.wordCap t = some w ∧ asString w = t) ∧
      (c.wordCap < t.length → storeString? c.wordCap t = none)) ∧
    (∀ w, w.Legal c.wordCap →
      (storeInteger? c.wordCap (asInteger w) = some w ↔ ∃ v, w.text = renderInt v))

/-! ### Memory and translation -/

/-- PhysRead and PhysWrite: inside memory the Word at the address is read or written, and that Word alone; outside
they raise OutOfRange(pa); memory has PAGE_SIZE × NUM_PAGES Words (R72, R5, R46). -/
def Obligations.PhysicalAccessReadsAndWritesOneWord : Prop :=
  ∀ (s : State) (pa : Int) (w : Word),
    s.cfg.memorySize = s.cfg.pageSize * s.cfg.numPages ∧ (s.inMemory pa ↔ 0 ≤ pa ∧ pa < s.cfg.memorySize) ∧
    (0 ≤ pa ∧ pa < s.cfg.memorySize →
      physRead pa s = .ok (s.mem.read pa.toNat) ∧
      ∃ t, physWrite pa w s = .ok t ∧ t.mem.read pa.toNat = w ∧ OnlyRegsAndWord [] pa s t) ∧
    (¬ (0 ≤ pa ∧ pa < s.cfg.memorySize) →
      physRead pa s = .error (.outOfRange pa) ∧ physWrite pa w s = .error (.outOfRange pa))

/-- Translation in Kernel mode is the identity (R76). -/
def Obligations.KernelTranslationIsTheIdentity : Prop :=
  ∀ (s : State) (va : Int) (forWrite : Bool), translateAddr .kernel va forWrite s = .ok va

/-- Translation in User mode: its checks in their order and its result, and the two flag tests: a flag is set exactly
when the flags text has the character at its index and it is not '0' (R75, R77, R78; decisions D34, D35). -/
def Obligations.UserTranslationChecksInOrder : Prop :=
  (∀ f : Text, (entryValid f = true ↔ ∃ c, f[1]? = some c ∧ c ≠ '0') ∧
    (entryWritable f = true ↔ ∃ c, f[2]? = some c ∧ c ≠ '0')) ∧
  ∀ (s : State) (va : Int) (forWrite : Bool),
    let page := va / s.cfg.pageSize
    let entry := s.xi .ptbr + 2 * page
    let flags := asString (s.mem.read (entry + 1).toNat)
    (va < 0 → translateAddr .user va forWrite s = .error (.pageFault va (-1))) ∧
    (0 ≤ va → s.xi .ptlr ≤ page → translateAddr .user va forWrite s = .error (.pageFault va page)) ∧
    (0 ≤ va → page < s.xi .ptlr → ¬ s.inMemory (entry + 1) →
      translateAddr .user va forWrite s = .error (.outOfRange (entry + 1))) ∧
    (0 ≤ va → page < s.xi .ptlr → s.inMemory (entry + 1) →
      (entryValid flags = false → translateAddr .user va forWrite s = .error (.pageFault va page)) ∧
      (entryValid flags = true → forWrite = true → entryWritable flags = false →
        translateAddr .user va forWrite s = .error (.memoryProtectionFault va page)) ∧
      (entryValid flags = true → (forWrite = false ∨ entryWritable flags = true) →
        (¬ s.inMemory entry → translateAddr .user va forWrite s = .error (.outOfRange entry)) ∧
        (s.inMemory entry → translateAddr .user va forWrite s =
          .ok (asInteger (s.mem.read entry.toNat) * s.cfg.pageSize + va % s.cfg.pageSize))))

/-- The document's worked example of translation, and its continuation by R77 (R79). -/
def Obligations.TranslationWorkedExample : Prop :=
  ∀ s : State, s.cfg.pageSize = 512 → 1004 ≤ s.cfg.memorySize → s.xi .ptbr = 1000 → 1 ≤ s.xi .ptlr →
    s.mem.read 1000 = Word.ofString "5" →
    (s.mem.read 1001 = Word.ofString "x1x" → translateAddr .user 0 true s = .ok 2560) ∧
    (s.mem.read 1001 = Word.ofString "x0x" → translateAddr .user 0 true s = .error (.pageFault 0 0)) ∧
    (s.mem.read 1001 = Word.ofString "x10" →
      translateAddr .user 0 true s = .error (.memoryProtectionFault 0 0) ∧ translateAddr .user 0 false s = .ok 2560) ∧
    (s.xi .ptlr = 1 → translateAddr .user 513 false s = .error (.pageFault 513 1)) ∧
    (s.xi .ptlr = 2 → s.mem.read 1002 = Word.ofString "7" → s.mem.read 1003 = Word.ofString "0110" →
      translateAddr .user 513 false s = .ok 3585)

/-! ### Move -/

/-- MOV and PORT into a register, from each of the four source forms: the register holds the source's Word and nothing
else changes; an effective address is the base's integer plus the offset (R146 to R149, R160, R161; decisions D7, D8,
D13, D14). -/
def Obligations.MoveIntoRegister : Prop :=
  (∀ (s : State) (base : RegInt) (off : Int), effAddr base off s = intOf base s + off) ∧
  (∀ (s : State) (q : Reg) (v : Int), intOf (.reg q) s = asInteger (s.reg q) ∧ intOf (.int v) s = v) ∧
  ∀ (mk : Dst → Src → Instr), mk = .mov ∨ mk = .port → ∀ (s : State) (r : Reg), 2 ≤ s.cfg.wordSize →
    (∀ q, ∃ t, exec (mk (.reg r) (.reg q)) s = .next t ∧ t.reg r = s.reg q ∧ OnlyRegs [r] s t) ∧
    (∀ v, Fits s.cfg v → ∃ t, exec (mk (.reg r) (.int v)) s = .next t ∧ (t.reg r).text = renderInt v ∧
      t.xi r = v ∧ OnlyRegs [r] s t) ∧
    (∀ x : Text, x.length ≤ s.cfg.wordCap → ∃ t, exec (mk (.reg r) (.str x)) s = .next t ∧ (t.reg r).text = x ∧
      OnlyRegs [r] s t) ∧
    (∀ base off pa, translateAddr s.mode (effAddr base off s) false s = .ok pa → s.inMemory pa →
      ∃ t, exec (mk (.reg r) (.mem base off)) s = .next t ∧ t.reg r = s.mem.read pa.toNat ∧ OnlyRegs [r] s t)

/-- MOV and PORT into memory, from each of the four source forms: the Word at the destination's translated address
holds the source's Word and nothing else changes; an effective address is the base's integer plus the offset, without
a bound (R146 to R149, R160 to R162; the effective address is decision D13, that PORT is MOV is D14). -/
def Obligations.MoveIntoMemory : Prop :=
  (∀ (s : State) (base : RegInt) (off : Int), effAddr base off s = intOf base s + off) ∧
  (∀ (s : State) (q : Reg) (v : Int), intOf (.reg q) s = asInteger (s.reg q) ∧ intOf (.int v) s = v) ∧
  ∀ (mk : Dst → Src → Instr), mk = .mov ∨ mk = .port → ∀ (s : State) (base : RegInt) (off pa : Int),
    2 ≤ s.cfg.wordSize → translateAddr s.mode (effAddr base off s) true s = .ok pa → s.inMemory pa →
    (∀ q, ∃ t, exec (mk (.mem base off) (.reg q)) s = .next t ∧ t.mem.read pa.toNat = s.reg q ∧
      OnlyRegsAndWord [] pa s t) ∧
    (∀ v, Fits s.cfg v → ∃ t, exec (mk (.mem base off) (.int v)) s = .next t ∧
      (t.mem.read pa.toNat).text = renderInt v ∧ OnlyRegsAndWord [] pa s t) ∧
    (∀ x : Text, x.length ≤ s.cfg.wordCap → ∃ t, exec (mk (.mem base off) (.str x)) s = .next t ∧
      (t.mem.read pa.toNat).text = x ∧ OnlyRegsAndWord [] pa s t) ∧
    (∀ b o qa, translateAddr s.mode (effAddr b o s) false s = .ok qa → s.inMemory qa →
      ∃ t, exec (mk (.mem base off) (.mem b o)) s = .next t ∧ t.mem.read pa.toNat = s.mem.read qa.toNat ∧
        OnlyRegsAndWord [] pa s t)

/-- Where MOV and PORT trap: first the source's fault, then the destination's, whatever Word the source supplied (R147
to R149, R160, R161, R273; decisions D7, D8, D13, D14). -/
def Obligations.MoveFaultsSourceFirst : Prop :=
  ∀ (mk : Dst → Src → Instr), mk = .mov ∨ mk = .port → ∀ (s : State) (d : Dst), 2 ≤ s.cfg.wordSize →
    (∀ v, ¬ Fits s.cfg v → exec (mk d (.int v)) s = .next (deliverFault (.wordOverflow v) s.currentInstr s)) ∧
    (∀ x : Text, s.cfg.wordCap < x.length →
      exec (mk d (.str x)) s = .next (deliverFault .malformedOperand s.currentInstr s)) ∧
    (∀ base off e, translateAddr s.mode (effAddr base off s) false s = .error e →
      exec (mk d (.mem base off)) s = .next (deliverFault e s.currentInstr s)) ∧
    (∀ base off pa, translateAddr s.mode (effAddr base off s) false s = .ok pa → ¬ s.inMemory pa →
      exec (mk d (.mem base off)) s = .next (deliverFault (.outOfRange pa) s.currentInstr s)) ∧
    ((∀ q, valOf (.reg q) s = .ok (s.reg q)) ∧ (∀ v, Fits s.cfg v → valOf (.int v) s = .ok (integerWord v)) ∧
      (∀ x : Text, x.length ≤ s.cfg.wordCap → valOf (.str x) s = .ok ⟨x⟩) ∧
      ∀ base off pa, translateAddr s.mode (effAddr base off s) false s = .ok pa → s.inMemory pa →
        valOf (.mem base off) s = .ok (s.mem.read pa.toNat)) ∧
    (∀ base off src w, valOf src s = .ok w →
      (∀ e, translateAddr s.mode (effAddr base off s) true s = .error e →
        exec (mk (.mem base off) src) s = .next (deliverFault e s.currentInstr s)) ∧
      (∀ pa, translateAddr s.mode (effAddr base off s) true s = .ok pa → ¬ s.inMemory pa →
        exec (mk (.mem base off) src) s = .next (deliverFault (.outOfRange pa) s.currentInstr s)))

/-! ### Arithmetic and comparison -/

/-- ADD, SUB, MUL, INR, DCR: the exact result in the left register, in canonical text, or WordOverflow; an operand's
integer is a register's leading integer or the literal's value (R12, R22, R146, R170 to R173, R176, R177; the overflow
fault is decision D9). -/
def Obligations.ArithmeticStoresTheExactResult : Prop :=
  ∀ (s : State) (ra : Reg) (b : RegInt), 2 ≤ s.cfg.wordSize →
    ((∀ q, intOf (.reg q) s = s.xi q ∧ s.xi q = asInteger (s.reg q)) ∧ ∀ v, intOf (.int v) s = v) ∧
    StoresResult (.add ra b) ra (s.xi ra + intOf b s) s ∧
    StoresResult (.sub ra b) ra (s.xi ra - intOf b s) s ∧
    StoresResult (.mul ra b) ra (s.xi ra * intOf b s) s ∧
    StoresResult (.inr ra) ra (s.xi ra + 1) s ∧
    StoresResult (.dcr ra) ra (s.xi ra - 1) s

/-- DIV and MOD: DivisionByZero on a zero divisor; otherwise the quotient and the remainder of the division that
rounds toward zero, the remainder with the dividend's sign; MOD of a legal Word always completes (R174, R175, R178;
the signs are decision D10). -/
def Obligations.DivisionTruncatesTowardZero : Prop :=
  ∀ (s : State) (ra : Reg) (b : RegInt), 2 ≤ s.cfg.wordSize →
    (intOf b s = 0 →
      exec (.div ra b) s = .next (deliverFault .divisionByZero s.currentInstr s) ∧
      exec (.mod ra b) s = .next (deliverFault .divisionByZero s.currentInstr s)) ∧
    (intOf b s ≠ 0 → ∃ q m : Int,
      s.xi ra = intOf b s * q + m ∧ m.natAbs < (intOf b s).natAbs ∧ (0 < m → 0 < s.xi ra) ∧ (m < 0 → s.xi ra < 0) ∧
      StoresResult (.div ra b) ra q s ∧ StoresResult (.mod ra b) ra m s ∧
      ((s.reg ra).Legal s.cfg.wordCap → Fits s.cfg m))

/-- LT, GT, EQ, NE, GE, LE: "1" in the left register when the relation of the two signed integers holds, "0" when it
does not, and nothing else changes (R191 to R196). -/
def Obligations.ComparisonsStoreOneOrZero : Prop :=
  ∀ (s : State) (ra rb : Reg),
    (∃ t, exec (.lt ra rb) s = .next t ∧ OnlyRegs [ra] s t ∧
      t.reg ra = if s.xi ra < s.xi rb then Word.ofString "1" else Word.ofString "0") ∧
    (∃ t, exec (.gt ra rb) s = .next t ∧ OnlyRegs [ra] s t ∧
      t.reg ra = if s.xi ra > s.xi rb then Word.ofString "1" else Word.ofString "0") ∧
    (∃ t, exec (.eq ra rb) s = .next t ∧ OnlyRegs [ra] s t ∧
      t.reg ra = if s.xi ra = s.xi rb then Word.ofString "1" else Word.ofString "0") ∧
    (∃ t, exec (.ne ra rb) s = .next t ∧ OnlyRegs [ra] s t ∧
      t.reg ra = if s.xi ra ≠ s.xi rb then Word.ofString "1" else Word.ofString "0") ∧
    (∃ t, exec (.ge ra rb) s = .next t ∧ OnlyRegs [ra] s t ∧
      t.reg ra = if s.xi ra ≥ s.xi rb then Word.ofString "1" else Word.ofString "0") ∧
    (∃ t, exec (.le ra rb) s = .next t ∧ OnlyRegs [ra] s t ∧
      t.reg ra = if s.xi ra ≤ s.xi rb then Word.ofString "1" else Word.ofString "0")

/-! ### Control transfer -/

/-- JMP, and JZ and JNZ when taken, put the translated target into IP and change nothing else; a target that does not
translate traps; a jump not taken changes nothing and does not look at its target (R200 to R203; the literal target is
decision D14, translation only when taken D17). -/
def Obligations.JumpsTranslateTheirTarget : Prop :=
  ∀ (s : State) (ra : Reg) (target : Int), 2 ≤ s.cfg.wordSize →
    (∀ i, (i = .jmp target ∨ i = .jz ra target ∧ s.xi ra = 0 ∨ i = .jnz ra target ∧ s.xi ra ≠ 0) →
      (∀ pa, translateAddr s.mode target false s = .ok pa → Fits s.cfg pa →
        ∃ t, exec i s = .next t ∧ HoldsInt t .ip pa ∧ OnlyRegs [.ip] s t) ∧
      (∀ pa, translateAddr s.mode target false s = .ok pa → ¬ Fits s.cfg pa →
        exec i s = .next (deliverFault (.wordOverflow pa) s.currentInstr s)) ∧
      (∀ e, translateAddr s.mode target false s = .error e →
        exec i s = .next (deliverFault e s.currentInstr s))) ∧
    (s.xi ra ≠ 0 → exec (.jz ra target) s = .next s) ∧
    (s.xi ra = 0 → exec (.jnz ra target) s = .next s)

/-- CALL pushes the advanced IP and jumps, the target translated in the state after the push; where the push or the
jump faults, the fault is delivered to the state before the instruction (R203 to R205, R150, R151; conflict C1,
decisions D14, D16, D17, D19). -/
def Obligations.CallPushesTheReturnAddress : Prop :=
  ∀ (s : State) (target : Int), 2 ≤ s.cfg.wordSize →
    (∀ pa, translateAddr s.mode (s.xi .sp + 1) true s = .ok pa → s.inMemory pa → Fits s.cfg (s.xi .sp + 1) →
      let pushed : State := { s with mem := s.mem.write pa.toNat (s.reg .ip) }
      (∀ pc, translateAddr s.mode target false pushed = .ok pc → Fits s.cfg pc →
        ∃ t, exec (.call target) s = .next t ∧ t.mem.read pa.toNat = s.reg .ip ∧ HoldsInt t .sp (s.xi .sp + 1) ∧
          HoldsInt t .ip pc ∧ OnlyRegsAndWord [.sp, .ip] pa s t) ∧
      (∀ pc, translateAddr s.mode target false pushed = .ok pc → ¬ Fits s.cfg pc →
        exec (.call target) s = .next (deliverFault (.wordOverflow pc) s.currentInstr s)) ∧
      (∀ e, translateAddr s.mode target false pushed = .error e →
        exec (.call target) s = .next (deliverFault e s.currentInstr s))) ∧
    StackFaults (.call target) s.mode (s.xi .sp + 1) true (s.xi .sp + 1) s s

/-- RET copies the Word at the top of the stack into IP, untranslated, and moves SP down; where the pop faults, the
fault is delivered (R206, R215; decisions D15, D17). -/
def Obligations.ReturnCopiesTheTopOfTheStack : Prop :=
  ∀ s : State, 2 ≤ s.cfg.wordSize →
    (∀ pa, translateAddr s.mode (s.xi .sp) false s = .ok pa → s.inMemory pa → Fits s.cfg (s.xi .sp - 1) →
      ∃ t, exec .ret s = .next t ∧ t.reg .ip = s.mem.read pa.toNat ∧ HoldsInt t .sp (s.xi .sp - 1) ∧
        OnlyRegs [.sp, .ip] s t) ∧
    StackFaults .ret s.mode (s.xi .sp) false (s.xi .sp - 1) s s

/-- RET after CALL comes back: from every state in which SP, the mode, the page table's two registers and memory are
as CALL left them, RET puts the caller's advanced IP into IP, untranslated, and SP back (R204 to R207; conflict C1,
decisions D15 to D17). -/
def Obligations.ReturnUndoesCall : Prop :=
  ∀ (s : State) (target pa : Int), 2 ≤ s.cfg.wordSize → StackWord pa s → Fits s.cfg (s.xi .sp) →
    ∀ t, callTo target s = .ok t → exec (.call target) s = .next t ∧
      ∀ u : State, u.cfg = t.cfg → u.mode = t.mode → u.mem = t.mem → u.xi .sp = t.xi .sp →
        u.reg .ptbr = t.reg .ptbr → u.reg .ptlr = t.reg .ptlr →
        ∃ v, exec .ret u = .next v ∧ v.reg .ip = s.reg .ip ∧ HoldsInt v .sp (s.xi .sp)

/-! ### Stack and context -/

/-- PUSH stores the register's Word, read before SP changes, at the translated SP + 1; where the push faults, the
fault is delivered (R215, R216; decision D15). -/
def Obligations.PushStoresAboveTheTop : Prop :=
  ∀ (s : State) (ra : Reg), 2 ≤ s.cfg.wordSize →
    (∀ pa, translateAddr s.mode (s.xi .sp + 1) true s = .ok pa → s.inMemory pa → Fits s.cfg (s.xi .sp + 1) →
      ∃ t, exec (.push ra) s = .next t ∧ t.mem.read pa.toNat = s.reg ra ∧ HoldsInt t .sp (s.xi .sp + 1) ∧
        OnlyRegsAndWord [.sp] pa s t) ∧
    StackFaults (.push ra) s.mode (s.xi .sp + 1) true (s.xi .sp + 1) s s

/-- POP loads the Word at the translated SP into the register, written after SP has moved down, so that POP SP leaves
the popped Word; where the pop faults, the fault is delivered (R215, R217; decision D15). -/
def Obligations.PopLoadsTheTop : Prop :=
  ∀ (s : State) (ra : Reg), 2 ≤ s.cfg.wordSize →
    (∀ pa, translateAddr s.mode (s.xi .sp) false s = .ok pa → s.inMemory pa → Fits s.cfg (s.xi .sp - 1) →
      ∃ t, exec (.pop ra) s = .next t ∧ t.reg ra = s.mem.read pa.toNat ∧
        (ra ≠ .sp → HoldsInt t .sp (s.xi .sp - 1)) ∧ OnlyRegs [.sp, ra] s t) ∧
    StackFaults (.pop ra) s.mode (s.xi .sp) false (s.xi .sp - 1) s s

/-- PUSH then POP: SP comes back, the popped register holds what the pushed one held, and the Word above the top is
left holding it (R216 to R218, for a pushed Word that is not part of the stack page's own table entry, which a push in
User mode could otherwise overwrite; decision D15). -/
def Obligations.PopUndoesPush : Prop :=
  ∀ (s : State) (ra rb : Reg) (pa : Int), 2 ≤ s.cfg.wordSize → rb ≠ .sp → StackWord pa s → Fits s.cfg (s.xi .sp) →
    ∃ t u, exec (.push ra) s = .next t ∧ exec (.pop rb) t = .next u ∧ u.reg rb = s.reg ra ∧
      HoldsInt u .sp (s.xi .sp) ∧ u.mem.read pa.toNat = s.reg ra ∧ OnlyRegsAndWord [.sp, rb] pa s u

/-- BACKUP stores BP, PTBR, PTLR, R0, …, R19 in this order above the top of the stack, moves SP up by 23, and changes
nothing else, in both modes and wherever the 23 Words lie: push k goes to `addr k`, translated after the pushes before
it; in Kernel mode `addr k` is SP + 1 + k (R151, R219, R220; the count 23 is conflict C3, decision D18; the push order
is D15). -/
def Obligations.BackupStoresTheContext : Prop :=
  ∀ (s : State) (addr : Nat → Int), 2 ≤ s.cfg.wordSize → PushesGo 23 addr s →
    ∃ t, exec .backup s = .next t ∧ HoldsInt t .sp (s.xi .sp + 23) ∧ t.mem = backupMem s addr 23 ∧
      (AllDiffer 23 addr →
        t.mem.read (addr 0).toNat = s.reg .bp ∧ t.mem.read (addr 1).toNat = s.reg .ptbr ∧
        t.mem.read (addr 2).toNat = s.reg .ptlr ∧
        ∀ k : Fin 20, t.mem.read (addr (3 + k)).toNat = s.reg (.r k)) ∧
      (s.mode = .kernel → ∀ k : Nat, k < 23 → addr k = s.xi .sp + 1 + k) ∧
      (∀ a : Nat, (∀ k : Nat, k < 23 → (a : Int) ≠ addr k) → t.mem.read a = s.mem.read a) ∧
      SameRegsBut [.sp] s t ∧ SameDevices s t ∧ t.mode = s.mode ∧ t.status = s.status

/-- RESTORE pops R19, …, R0, PTLR, PTBR, BP in this order and moves SP down by 23, in both modes and wherever the 23
Words lie: pop k is made at `addr k`; in User mode the pop of PTBR is translated with the popped PTLR, and the pop of
BP with both popped registers; in Kernel mode `addr k` is SP − k. Where a pop faults, after n pops that go through,
its fault is delivered to the state before the instruction (R150, R151, R221; the order of the list is decision D18,
the pop order D15, the atomicity D19). -/
def Obligations.RestoreLoadsTheContext : Prop :=
  ∀ (s : State) (addr : Nat → Int), 2 ≤ s.cfg.wordSize →
    (PopsGo 23 addr s →
      ∃ t, exec .restore s = .next t ∧ HoldsInt t .sp (s.xi .sp - 23) ∧
        (∀ k : Fin 20, t.reg (.r k) = s.mem.read (addr (19 - k)).toNat) ∧
        t.reg .ptlr = s.mem.read (addr 20).toNat ∧ t.reg .ptbr = s.mem.read (addr 21).toNat ∧
        t.reg .bp = s.mem.read (addr 22).toNat ∧
        (s.mode = .kernel → ∀ k : Nat, k < 23 → addr k = s.xi .sp - k) ∧
        OnlyRegs (.sp :: savedRegs) s t) ∧
    ∀ n : Nat, n < 23 → PopsGo n addr s →
      StackFaults .restore s.mode (s.xi .sp - n) false (s.xi .sp - 1 - n) (restoreView s addr n) s

/-- BACKUP and RESTORE are mirror images: whatever was done to the 23 registers in between, RESTORE brings every one
of them back, if SP, the mode and the 23 stack Words are as BACKUP left them (23 different Words) and, in User mode,
the pops still translate to the same Words; they do when PTBR, PTLR and memory are as BACKUP left them and no push
wrote into the page-table entries used (R219, R222; conflict C3, decisions D15, D18). -/
def Obligations.RestoreUndoesBackup : Prop :=
  ∀ (s : State) (addr : Nat → Int), 2 ≤ s.cfg.wordSize → PushesGo 23 addr s →
    AllDiffer 23 addr → Fits s.cfg (s.xi .sp) →
    ∃ t, exec .backup s = .next t ∧
      ∀ u : State, u.cfg = t.cfg → u.mode = t.mode → u.xi .sp = t.xi .sp →
        (∀ k : Nat, k < 23 → u.mem.read (addr k).toNat = t.mem.read (addr k).toNat) →
        (s.mode = .user → PopsGo 23 (fun k => addr (22 - k)) u ∨
          ClearOfTable 23 addr s ∧ u.reg .ptbr = t.reg .ptbr ∧ u.reg .ptlr = t.reg .ptlr ∧ SameMemory t u) →
        ∃ v, exec .restore u = .next v ∧ v.reg .bp = s.reg .bp ∧ v.reg .ptbr = s.reg .ptbr ∧
          v.reg .ptlr = s.reg .ptlr ∧ (∀ k : Fin 20, v.reg (.r k) = s.reg (.r k)) ∧ HoldsInt v .sp (s.xi .sp) ∧
          OnlyRegs (.sp :: savedRegs) u v

/-- A BACKUP that faults keeps none of its stores. In both modes: where push number n faults after n pushes that go
through, its fault is delivered to the state before the instruction. In Kernel mode, whenever the 23 Words do not lie
in memory, nothing but the status changes (R150, R151, R220, R281; decisions D15, D18, D19, D21). -/
def Obligations.BackupIsAllOrNothing : Prop :=
  ∀ s : State,
    (∀ (n : Nat) (addr : Nat → Int), 2 ≤ s.cfg.wordSize → n < 23 → PushesGo n addr s →
      StackFaults .backup s.mode (s.xi .sp + 1 + n) true (s.xi .sp + 1 + n) (backupView s addr n) s) ∧
    (s.cfg.Valid → s.mode = .kernel → ¬ (0 ≤ s.xi .sp + 1 ∧ s.xi .sp + 23 < s.cfg.memorySize) →
      exec .backup s = .next { s with status := .crashed (.fault .outOfRange) })

/-! ### Traps -/

/-- INT n for n in [0, 18]: the advanced IP is pushed with the current mode, then Kernel mode and the vector; where
the push faults, the fault is delivered (R230, R290, R291; decision D27). -/
def Obligations.IntEntersTheHandler : Prop :=
  ∀ (s : State) (n : Nat), s.cfg.Valid → n ≤ 18 →
    (∀ pa, translateAddr s.mode (s.xi .sp + 1) true s = .ok pa → s.inMemory pa → Fits s.cfg (s.xi .sp + 1) →
      ∃ t, exec (.int n) s = .next t ∧ t.mem.read pa.toNat = s.reg .ip ∧ HoldsInt t .sp (s.xi .sp + 1) ∧
        t.mode = .kernel ∧ HoldsInt t .ip ((2 * n + 4) * s.cfg.pageSize) ∧ SameRegsBut [.sp, .ip] s t ∧
        SameMemoryBut pa s t ∧ SameDevices s t ∧ t.status = s.status) ∧
    StackFaults (.int n) s.mode (s.xi .sp + 1) true (s.xi .sp + 1) s s

/-- A number outside [0, 18] has no vector, and INT raises MalformedOperand for it before any effect (R231, R290;
decision D37). -/
def Obligations.IntRejectsOtherNumbers : Prop :=
  ∀ (s : State) (n : Int), n < 0 ∨ 18 < n →
    interruptAddress s.cfg n = none ∧
    exec (.int n) s = .next (deliverFault .malformedOperand s.currentInstr s)

/-- The vector formula for every number from 0 to 18, and at 4, 0 and 18 (R233, R290). -/
def Obligations.VectorFormula : Prop :=
  ∀ c : Config,
    (∀ n : Nat, n ≤ 18 → interruptAddress c n = some ((2 * n + 4) * c.pageSize)) ∧
    interruptAddress c 4 = some (12 * c.pageSize) ∧ interruptAddress c 4 = some ((4 * 2 + 4) * c.pageSize) ∧
    interruptAddress c 0 = some (4 * c.pageSize) ∧ interruptAddress c 18 = some (40 * c.pageSize) ∧
    (c.pageSize = 512 → interruptAddress c 4 = some 6144 ∧ interruptAddress c 0 = some 2048 ∧
      interruptAddress c 18 = some 20480)

/-- IRET, in both modes: User mode first, then the pop through the page table into IP; where the pop faults, the fault
is delivered in the mode the cycle began in (R232, R279, R294; decisions D15, D21, D27). -/
def Obligations.IretReturnsToUserMode : Prop :=
  ∀ s : State, 2 ≤ s.cfg.wordSize →
    (∀ pa, translateAddr .user (s.xi .sp) false s = .ok pa → s.inMemory pa → Fits s.cfg (s.xi .sp - 1) →
      ∃ t, exec .iret s = .next t ∧ t.mode = .user ∧ t.reg .ip = s.mem.read pa.toNat ∧
        HoldsInt t .sp (s.xi .sp - 1) ∧ SameRegsBut [.sp, .ip] s t ∧ SameMemory s t ∧ SameDevices s t ∧
        t.status = s.status) ∧
    StackFaults .iret .user (s.xi .sp) false (s.xi .sp - 1) s s

/-- INT from User mode and the handler's IRET pair up: if the handler leaves SP, PTBR, PTLR and memory as INT left
them, IRET resumes at the pushed address, in User mode, with SP back (R230, R232, R291; decisions D15, D27). -/
def Obligations.IretUndoesIntFromUserMode : Prop :=
  ∀ (s : State) (n : Nat) (pa : Int), s.cfg.Valid → n ≤ 18 → s.mode = .user → StackWord pa s →
    Fits s.cfg (s.xi .sp) →
    ∃ t, exec (.int n) s = .next t ∧ t.mode = .kernel ∧
      ∀ u : State, u.cfg = t.cfg → u.mem = t.mem → u.xi .sp = t.xi .sp → u.reg .ptbr = t.reg .ptbr →
        u.reg .ptlr = t.reg .ptlr →
        ∃ v, exec .iret u = .next v ∧ v.mode = .user ∧ v.reg .ip = s.reg .ip ∧ HoldsInt v .sp (s.xi .sp)

/-! ### Faults -/

/-- The kind of each of the eight faults, and the cause code of each kind (R270, R271; the grouping is decision D20,
the eighth fault D7). -/
def Obligations.CauseCodes : Prop :=
  (Exn.illegalInstruction.kind = .illegalInstruction ∧ Exn.malformedOperand.kind = .malformedOperand ∧
    (∀ name, (Exn.unknownRegister name).kind = .unknownRegister) ∧ (∀ a, (Exn.outOfRange a).kind = .outOfRange) ∧
    (∀ va page, (Exn.pageFault va page).kind = .pageFault) ∧
    (∀ va page, (Exn.memoryProtectionFault va page).kind = .memoryProtectionFault) ∧
    Exn.divisionByZero.kind = .divisionByZero ∧ ∀ v, (Exn.wordOverflow v).kind = .wordOverflow) ∧
  causeCode .pageFault = 0 ∧
  causeCode .illegalInstruction = 1 ∧ causeCode .malformedOperand = 1 ∧ causeCode .unknownRegister = 1 ∧
  causeCode .memoryProtectionFault = 2 ∧ causeCode .outOfRange = 2 ∧
  causeCode .divisionByZero = 3 ∧ causeCode .wordOverflow = 3

/-- A fault in Kernel mode crashes the machine with that fault's kind and changes nothing but the status; and an
instruction that ends a Kernel-mode cycle in a crash changes nothing but the status: every write it made before it
raised is undone, no exception register is written, and the kind is that of the fault it raised (R150, R279 to R281;
decisions D19, D20, D21). -/
def Obligations.KernelFaultChangesOnlyTheStatus : Prop :=
  (∀ (e : Exn) (ia : Int) (s : State), s.mode = .kernel →
    deliverFault e ia s = { s with status := .crashed (.fault e.kind) }) ∧
  ∀ (i : Instr) (s t : State) (k : CrashKind), s.mode = .kernel → s.status = .running → exec i s = .next t →
    t.status = .crashed k → t = { s with status := .crashed k } ∧ ∃ e : Exn, k = .fault e.kind

/-- A fault in User mode, if the trap entry's push succeeds: EIP, EC, EPN and EMA as R280's table says, the Word in IP
pushed, Kernel mode, vector 0, nothing else changed; the clamp is to the nearest integer a Word can hold (R271, R279,
R280, R291, R292; decisions D20, D21, D22, D27). -/
def Obligations.UserFaultTraps : Prop :=
  (∀ (c : Config) (v : Int), (Fits c v → clampInt c v = v) ∧ (v < c.intMin → clampInt c v = c.intMin) ∧
    (c.intMax < v → clampInt c v = c.intMax)) ∧
  ∀ (s : State) (e : Exn) (ia pa : Int), s.cfg.Valid → s.mode = .user → Fits s.cfg ia →
    translateAddr .user (s.xi .sp + 1) true s = .ok pa → s.inMemory pa → Fits s.cfg (s.xi .sp + 1) →
    let t := deliverFault e ia s
    t.mode = .kernel ∧ HoldsInt t .ip (4 * s.cfg.pageSize) ∧ HoldsInt t .sp (s.xi .sp + 1) ∧
    t.mem.read pa.toNat = s.reg .ip ∧ SameMemoryBut pa s t ∧ SameDevices s t ∧ t.status = s.status ∧
    HoldsInt t .eip ia ∧ HoldsInt t .ec (causeCode e.kind) ∧
    (match e with
      | .pageFault va page => HoldsInt t .epn (clampInt s.cfg page) ∧ HoldsInt t .ema (clampInt s.cfg va)
      | .memoryProtectionFault va page => HoldsInt t .epn (clampInt s.cfg page) ∧ HoldsInt t .ema (clampInt s.cfg va)
      | .outOfRange addr => t.reg .epn = s.reg .epn ∧ HoldsInt t .ema (clampInt s.cfg addr)
      | _ => t.reg .epn = s.reg .epn ∧ t.reg .ema = s.reg .ema) ∧
    SameRegsBut trapWrites s t

/-- A fault in User mode whose trap entry cannot push (its address does not translate, is outside memory, or the new
SP has no Word) crashes the machine with DoubleFault; of the failed entry nothing is kept, EIP, EC, EPN and EMA stay
written as R280's table says (R271, R279, R280, R282; decisions D20, D21; that EIP and EC are clamped like EPN and EMA
is log 13, and changes nothing for an address a Word holds). -/
def Obligations.FailedTrapEntryIsADoubleFault : Prop :=
  ∀ (s : State) (e : Exn) (ia : Int), s.mode = .user → PushFails s →
    let t := deliverFault e ia s
    t.status = .crashed .doubleFault ∧ t.mode = .user ∧ SameMemory s t ∧ SameDevices s t ∧
    SameRegsBut [.eip, .ec, .epn, .ema] s t ∧ HoldsInt t .eip (clampInt s.cfg ia) ∧
    (Fits s.cfg ia → HoldsInt t .eip ia) ∧ HoldsInt t .ec (clampInt s.cfg (causeCode e.kind)) ∧
    (match e with
      | .pageFault va page => HoldsInt t .epn (clampInt s.cfg page) ∧ HoldsInt t .ema (clampInt s.cfg va)
      | .memoryProtectionFault va page => HoldsInt t .epn (clampInt s.cfg page) ∧ HoldsInt t .ema (clampInt s.cfg va)
      | .outOfRange addr => t.reg .epn = s.reg .epn ∧ HoldsInt t .ema (clampInt s.cfg addr)
      | _ => t.reg .epn = s.reg .epn ∧ t.reg .ema = s.reg .ema)

/-- From User mode an instruction leaves the machine in Kernel mode or crashed only by INT or by a fault it raised
(R316, R317; conflict C11). -/
def Obligations.UserModeIsLeftOnlyByIntOrFault : Prop :=
  ∀ (i : Instr) (s t : State), s.mode = .user → s.status = .running → exec i s = .next t →
    (t.mode = .kernel ∨ ∃ k, t.status = .crashed k) →
    (∃ n, i = .int n) ∨ ∃ e, t = deliverFault e s.currentInstr s

/-! ### The whole machine -/

/-- Only IRET takes the machine from Kernel to User mode (R316, R232; decision D27). -/
def Obligations.OnlyIretEntersUserMode : Prop :=
  ∀ s t : State, step s = .next t → s.mode = .kernel → t.mode = .user →
    ∃ text, fetch s = .ok text ∧ decode text = .ok .iret

/-- Only HALT stops the machine in Halted, and its cycle has no post-execute phase (R9, R262; decision D32). -/
def Obligations.OnlyHaltHalts : Prop :=
  ∀ s t : State, step s = .next t → t.status = .halted →
    ∃ text s1, fetch s = .ok text ∧ decode text = .ok .halt ∧ advance s = .ok s1 ∧
      t = { s1 with status := .halted }

/-- A running machine always has a next state; a run that has ended has none (R9, R53, R140; that the model then stops
with a fault of its own name is log 14). -/
def Obligations.OnlyAFinishedRunStops : Prop :=
  (∀ s : State, s.status = .running → ∃ t, step s = .next t) ∧
  (∀ s : State, s.status = .halted → step s = .fault .halted) ∧
  (∀ (s : State) (k : CrashKind), s.status = .crashed k → step s = .fault (.crashed k))

/-- No instruction writes a register that its rule does not name; one that faults in User mode writes none of its own,
and the delivery of its fault only EIP, EC, EPN, EMA, SP and IP (R31, R44, R150, R220, R280, R291; decisions D11, D19,
D20). -/
def Obligations.InstructionsWriteOnlyTheirRegisters : Prop :=
  ∀ (i : Instr) (s t : State), exec i s = .next t →
    SameRegsBut (writtenRegs i) s t ∨
    (s.mode = .user ∧ (∃ e, t = deliverFault e s.currentInstr s) ∧ SameRegsBut trapWrites s t)

/-- No step changes the configuration or the host's input lines; the input position and the printed Words only grow
(R54, R55, R7). -/
def Obligations.ConfigurationIsNeverWritten : Prop :=
  ∀ s t : State, step s = .next t →
    t.cfg = s.cfg ∧ t.consoleIn = s.consoleIn ∧ s.consoleInPos ≤ t.consoleInPos ∧
      ∃ printed, t.consoleOut = s.consoleOut ++ printed

/-! ### The post-execute phase -/

/-- A tick of the timer, exactly; an enabled timer started at its interval T counts down for T − 1 ticks and at the
T-th raises its latch and starts again; a disabled timer never changes. Every cycle that leaves the machine running
ticks the timer once: it counts down, or reloads and raises the interrupt, which is delivered at once (vector 1) or
stays latched; nothing but its delivery clears the latch (R292, R299, R300, R303, R305; decisions D22, D23, D24,
D26). -/
def Obligations.TimerRaisesEveryInterval : Prop :=
  (∀ s : State, (s.cfg.timerInterval ≤ 0 → timerTick s = s) ∧
    (0 < s.cfg.timerInterval → 1 < s.timer → timerTick s = { s with timer := s.timer - 1 }) ∧
    (0 < s.cfg.timerInterval → s.timer ≤ 1 →
      timerTick s = { s with timer := s.cfg.timerInterval, timerPending := true })) ∧
  (∀ s : State, 0 < s.cfg.timerInterval → s.timer = s.cfg.timerInterval →
    (∀ n : Nat, (n : Int) < s.cfg.timerInterval →
      repeatTick timerTick n s = { s with timer := s.cfg.timerInterval - n }) ∧
    repeatTick timerTick s.cfg.timerInterval.toNat s = { s with timerPending := true }) ∧
  (∀ s t : State, step s = .next t → t.status = .running →
    t.timer = (if s.cfg.timerInterval ≤ 0 then s.timer
      else if s.timer ≤ 1 then s.cfg.timerInterval else s.timer - 1) ∧
    (s.timerPending = true ∨ 0 < s.cfg.timerInterval ∧ s.timer ≤ 1 →
      t.timerPending = true ∨ t.mode = .kernel ∧ HoldsInt t .ip (6 * s.cfg.pageSize)) ∧
    (¬ (0 < s.cfg.timerInterval ∧ s.timer ≤ 1) → t.timerPending = true → s.timerPending = true))

/-- A tick of the disk, exactly: of an idle disk it changes nothing, no latch and no memory; of a busy one it counts
down, or performs the transfer, frees the record and sets the latch. A request issued with latency L is counted down
by L ticks, with nothing else changed, and completed by the next one (R246, R301, R305, R308; conflict C4, decision
D25). -/
def Obligations.DiskRequestCompletesAfterItsLatency : Prop :=
  (∀ s : State, s.disk = none → diskTick s = s) ∧
  (∀ (s : State) (r : DiskRequest), s.disk = some r →
    (0 < r.remaining → diskTick s = { s with disk := some { r with remaining := r.remaining - 1 } }) ∧
    (r.remaining = 0 → diskTick s =
      { (match r.op with | .load => readBlock r.page r.block s | .store => writeBlock r.page r.block s) with
        disk := none, diskPending := true })) ∧
  ∀ (s : State) (op : DiskOp) (p b : Nat), s.disk = none →
    let t := issueDisk op p b s
    (∀ n, n ≤ s.cfg.diskLatency →
      repeatTick diskTick n t = { t with disk := some ⟨s.cfg.diskLatency - n, op, p, b⟩ }) ∧
    repeatTick diskTick (s.cfg.diskLatency + 1) t =
      { (match op with | .load => readBlock p b s | .store => writeBlock p b s) with
        disk := none, diskPending := true }

/-- Every cycle that leaves the machine running counts a pending disk request down once or completes it, whatever the
instruction is; a second request is lost. The completion is the transfer of the page as Execute left it, and the
interrupt, delivered at once (vector 2) or latched. A cycle that begins with the disk idle, the one that issues a
request among them, leaves the record as Execute left it. After a Load memory is the loaded page's, but for the Word
an interrupt pushes. No block changes but by a completed Store; nothing but its delivery clears the latch (R246, R247,
R292, R299, R301, R303, R305; decisions D22 to D25, D28; how the issuing cycle is told is log 11). -/
def Obligations.EveryCycleCountsThePendingDiskRequest : Prop :=
  ∀ s t : State, step s = .next t → t.status = .running →
    (s.diskPending = true → t.diskPending = true ∨ t.mode = .kernel ∧ HoldsInt t .ip (8 * s.cfg.pageSize)) ∧
    ∃ before after, CycleBody s before after ∧
      (s.disk = none → t.disk = after.disk ∧ t.blocks = s.blocks ∧ (t.diskPending = true → s.diskPending = true)) ∧
      ∀ r, s.disk = some r →
        after.disk = some r ∧
        (0 < r.remaining → t.disk = some { r with remaining := r.remaining - 1 } ∧ t.blocks = s.blocks) ∧
        (r.remaining = 0 →
          t.disk = none ∧ (t.diskPending = true ∨ t.mode = .kernel ∧ HoldsInt t .ip (8 * s.cfg.pageSize)) ∧
          (r.op = .store → t.blocks = (writeBlock r.page r.block after).blocks ∧
            ∀ i, i < s.cfg.pageSize → t.blocks.read (r.block * s.cfg.pageSize + i) =
              after.mem.read (r.page * s.cfg.pageSize + i)) ∧
          (r.op = .load → t.blocks = s.blocks ∧
            let loaded := readBlock r.page r.block after
            (t.mode = after.mode → t.mem = loaded.mem ∧
              ∀ i, i < s.cfg.pageSize → t.mem.read (r.page * s.cfg.pageSize + i) =
                s.blocks.read (r.block * s.cfg.pageSize + i)) ∧
            (t.mode ≠ after.mode → ∀ pa, translateAddr .user (after.xi .sp + 1) true loaded = .ok pa →
              SameMemoryBut pa loaded t)))

/-- read_block and write_block copy the whole page, Word by Word, and nothing else (R240; the block store is decision
D28, its layout log 5). -/
def Obligations.BlockTransfersCopyAPage : Prop :=
  ∀ (s : State) (p b : Nat),
    (∀ i, i < s.cfg.pageSize →
      (readBlock p b s).mem.read (p * s.cfg.pageSize + i) = s.blocks.read (b * s.cfg.pageSize + i) ∧
      (writeBlock p b s).blocks.read (b * s.cfg.pageSize + i) = s.mem.read (p * s.cfg.pageSize + i)) ∧
    (∀ a, a < p * s.cfg.pageSize ∨ (p + 1) * s.cfg.pageSize ≤ a → (readBlock p b s).mem.read a = s.mem.read a) ∧
    (∀ a, a < b * s.cfg.pageSize ∨ (b + 1) * s.cfg.pageSize ≤ a →
      (writeBlock p b s).blocks.read a = s.blocks.read a) ∧
    readBlock p b s = { s with mem := (readBlock p b s).mem } ∧
    writeBlock p b s = { s with blocks := (writeBlock p b s).blocks }

/-- A tick of an idle console changes nothing. A console request is counted down like the disk's, with nothing else
changed, and completed by the tick after its latency: a Read puts the next line's Word into P0 and takes the line, a
Print appends its Word to ConsoleOut; then the record is idle and the latch set, and nothing else changes. In every
cycle that leaves the machine running a pending request is counted down once or completed so; a cycle that begins with
the console idle, the one that issues a request among them, leaves the record as Execute left it; nothing but its
delivery clears the latch (R258 to R260, R292, R299, R302, R303, R305; decisions D8, D22 to D25, D29, D43; how the
issuing cycle is told is log 11, the line log 10). -/
def Obligations.ConsoleRequestCompletesAfterItsLatency : Prop :=
  (∀ s : State, s.console = none → consoleTick s = s) ∧
  (∀ (s : State) (r : ConsoleRequest), s.console = some r →
    (0 < r.remaining → consoleTick s = { s with console := some { r with remaining := r.remaining - 1 } }) ∧
    (r.remaining = 0 → consoleTick s =
      (match r.op with
        | .read => { s.setReg (.p 0) (consoleWord s.cfg.wordCap (nextLine s)) with
            consoleInPos := s.consoleInPos + 1, console := none, consolePending := true }
        | .print w => { s with consoleOut := s.consoleOut ++ [w], console := none, consolePending := true }))) ∧
  (∀ (s : State) (op : ConsoleOp), s.console = none →
    let t := issueConsole op s
    (∀ n, n ≤ s.cfg.consoleLatency →
      repeatTick consoleTick n t = { t with console := some ⟨s.cfg.consoleLatency - n, op⟩ }) ∧
    repeatTick consoleTick (s.cfg.consoleLatency + 1) t =
      (match op with
        | .read => { s.setReg (.p 0) (consoleWord s.cfg.wordCap (nextLine s)) with
            consoleInPos := s.consoleInPos + 1, console := none, consolePending := true }
        | .print w => { s with consoleOut := s.consoleOut ++ [w], console := none, consolePending := true })) ∧
  ∀ s t : State, step s = .next t → t.status = .running →
    (s.consolePending = true → t.consolePending = true ∨
      t.mode = .kernel ∧ HoldsInt t .ip (10 * s.cfg.pageSize)) ∧
    ∃ before after, CycleBody s before after ∧
      (s.console = none → t.console = after.console ∧ t.consoleOut = s.consoleOut ∧
        t.consoleInPos = after.consoleInPos ∧ t.reg (.p 0) = after.reg (.p 0) ∧
        (t.consolePending = true → s.consolePending = true)) ∧
      ∀ r, s.console = some r →
        after.console = some r ∧
        (0 < r.remaining → t.console = some { r with remaining := r.remaining - 1 } ∧ t.consoleOut = s.consoleOut ∧
          t.consoleInPos = after.consoleInPos ∧ t.reg (.p 0) = after.reg (.p 0)) ∧
        (r.remaining = 0 →
          t.console = none ∧ (t.consolePending = true ∨ t.mode = .kernel ∧ HoldsInt t .ip (10 * s.cfg.pageSize)) ∧
          (r.op = .read → t.reg (.p 0) = consoleWord s.cfg.wordCap (nextLine after) ∧
            t.consoleInPos = after.consoleInPos + 1 ∧ t.consoleOut = s.consoleOut) ∧
          ∀ w, r.op = .print w → t.consoleOut = s.consoleOut ++ [w] ∧ t.consoleInPos = after.consoleInPos ∧
            t.reg (.p 0) = after.reg (.p 0))

/-- Interrupts are delivered only in User mode, one at a time, timer before disk before console, each clearing its own
latch alone and changing nothing but the entry's SP, IP, mode and pushed Word; an entry that cannot push, for
whichever reason, crashes the machine and leaves the latch (R282, R292, R303 to R305; decisions D21 to D23). -/
def Obligations.InterruptsAreDeliveredInUserModeByPriority : Prop :=
  ∀ s : State, s.cfg.Valid →
    (s.mode = .kernel → deliverInterrupt s = s) ∧
    (s.timerPending = false → s.diskPending = false → s.consolePending = false → deliverInterrupt s = s) ∧
    (s.mode = .user →
      ∀ n : Nat, (n = 1 ∧ s.timerPending = true ∨ n = 2 ∧ s.timerPending = false ∧ s.diskPending = true ∨
          n = 3 ∧ s.timerPending = false ∧ s.diskPending = false ∧ s.consolePending = true) →
      (∀ pa, translateAddr .user (s.xi .sp + 1) true s = .ok pa → s.inMemory pa → Fits s.cfg (s.xi .sp + 1) →
        let t := deliverInterrupt s
        t.mode = .kernel ∧ HoldsInt t .ip ((2 * n + 4) * s.cfg.pageSize) ∧ HoldsInt t .sp (s.xi .sp + 1) ∧
        t.mem.read pa.toNat = s.reg .ip ∧ SameMemoryBut pa s t ∧ SameRegsBut [.sp, .ip] s t ∧
        t.status = s.status ∧ t.timerPending = (if n = 1 then false else s.timerPending) ∧
        t.diskPending = (if n = 2 then false else s.diskPending) ∧
        t.consolePending = (if n = 3 then false else s.consolePending) ∧
        t.cfg = s.cfg ∧ t.timer = s.timer ∧ t.disk = s.disk ∧ t.console = s.console ∧ t.blocks = s.blocks ∧
        t.consoleIn = s.consoleIn ∧ t.consoleInPos = s.consoleInPos ∧ t.consoleOut = s.consoleOut) ∧
      (PushFails s → deliverInterrupt s = { s with status := .crashed .doubleFault }))

/-! ### Disk and Misc -/

/-- LOADI with a page and a block in range overwrites the page at once and touches no device record (R242, R243;
decisions D28, D42). -/
def Obligations.LoadiTransfersAtOnce : Prop :=
  ∀ (s : State) (page block : RegInt),
    (0 ≤ intOf page s ∧ intOf page s < s.cfg.numPages) → (0 ≤ intOf block s ∧ intOf block s < s.cfg.numBlocks) →
    ∃ t, exec (.loadi page block) s = .next t ∧
      (∀ i, i < s.cfg.pageSize → t.mem.read ((intOf page s).toNat * s.cfg.pageSize + i) =
        s.blocks.read ((intOf block s).toNat * s.cfg.pageSize + i)) ∧
      SameMemoryButBlock (intOf page s * s.cfg.pageSize) s.cfg.pageSize s t ∧
      SameRegsBut [] s t ∧ SameDevices s t ∧ t.mode = s.mode ∧ t.status = s.status

/-- LOAD and STORE with a page and a block in range record a request with the configured latency when the disk is idle
and change nothing at all when it is busy; out of range, all three disk instructions raise OutOfRange, the page first,
busy or not (R242 to R247; decisions D25, D28, D42). -/
def Obligations.DiskRequestsAreRecordedOrDropped : Prop :=
  ∀ (s : State) (page block : RegInt) (op : DiskOp) (i : Instr),
    (op = .load ∧ i = .load page block ∨ op = .store ∧ i = .store page block) →
    ((0 ≤ intOf page s ∧ intOf page s < s.cfg.numPages) → (0 ≤ intOf block s ∧ intOf block s < s.cfg.numBlocks) →
      (s.disk = none → exec i s = .next { s with
        disk := some ⟨s.cfg.diskLatency, op, (intOf page s).toNat, (intOf block s).toNat⟩ }) ∧
      (s.disk ≠ none → exec i s = .next s)) ∧
    (∀ j, j = i ∨ j = .loadi page block →
      (¬ (0 ≤ intOf page s ∧ intOf page s < s.cfg.numPages) → exec j s =
        .next (deliverFault (.outOfRange (intOf page s * s.cfg.pageSize)) s.currentInstr s)) ∧
      ((0 ≤ intOf page s ∧ intOf page s < s.cfg.numPages) →
        ¬ (0 ≤ intOf block s ∧ intOf block s < s.cfg.numBlocks) →
        exec j s = .next (deliverFault (.outOfRange (intOf block s)) s.currentInstr s)))

/-- ENCRYPT replaces the register's Word by a legal Word that depends on that Word alone, and changes nothing else;
for every value of the free transform (R255; decision D30, log 9). -/
def Obligations.EncryptWritesALegalWord : Prop :=
  ∀ (s s' : State) (ra ra' : Reg), s.cfg = s'.cfg → s.reg ra = s'.reg ra' →
    ∃ t t', exec (.encrypt ra) s = .next t ∧ exec (.encrypt ra') s' = .next t' ∧
      (t.reg ra).Legal s.cfg.wordCap ∧ t.reg ra = t'.reg ra' ∧ OnlyRegs [ra] s t

/-- IN and OUT record a request when the console is idle, OUT with the Word P1 holds now, and change nothing when it
is busy; INI reads the host's next line into P0 at once, cut to WORD_CAP characters (0x00 bytes dropped after the
cut), busy or not; BRKP changes nothing; HALT changes the status alone (R257 to R262; decisions D8, D29, D31, D32,
D43; the cut before the drop, and a line the host did not supply, are log 10). -/
def Obligations.ConsoleBreakpointAndHalt : Prop :=
  ∀ s : State,
    (s.console = none →
      exec .inp s = .next { s with console := some ⟨s.cfg.consoleLatency, .read⟩ } ∧
      exec .out s = .next { s with console := some ⟨s.cfg.consoleLatency, .print (s.reg (.p 1))⟩ }) ∧
    (s.console ≠ none → exec .inp s = .next s ∧ exec .out s = .next s) ∧
    ((∀ line, s.consoleIn[s.consoleInPos]? = some line → nextLine s = line) ∧
      ∀ line : Text, (consoleWord s.cfg.wordCap line).text =
        (line.take s.cfg.wordCap).filter fun c => decide (c.toNat ≠ 0)) ∧
    (∃ t, exec .ini s = .next t ∧ t.consoleInPos = s.consoleInPos + 1 ∧ t.console = s.console ∧
      t.reg (.p 0) = consoleWord s.cfg.wordCap (nextLine s) ∧
      (∀ line, s.consoleIn[s.consoleInPos]? = some line → (∀ c ∈ line, 1 ≤ c.toNat) →
        (t.reg (.p 0)).text = line.take s.cfg.wordCap) ∧
      SameRegsBut [.p 0] s t ∧ SameMemory s t ∧ t.cfg = s.cfg ∧ t.timer = s.timer ∧ t.disk = s.disk ∧
      t.timerPending = s.timerPending ∧ t.diskPending = s.diskPending ∧ t.consolePending = s.consolePending ∧
      t.blocks = s.blocks ∧ t.consoleIn = s.consoleIn ∧ t.consoleOut = s.consoleOut ∧ t.mode = s.mode ∧
      t.status = s.status) ∧
    exec .brkp s = .next s ∧
    exec .halt s = .next { s with status := .halted }

/-! ### The cycle -/

/-- A step runs the decoded instruction: when the slot at IP is fetched and decodes to i, the step is exec of i on the
state whose IP is advanced by one slot, then the post-execute phase if the machine still runs; the address a fault of
i is delivered with is the one the slot was fetched from; in a valid configuration a fetched slot's IP can always be
advanced. The post-execute phase is the timer's tick, the disk's tick unless a disk request was issued in this cycle,
the console's tick unless a console request was, then the delivery of an interrupt (R5, R14, R140 to R142, R144, R145,
R246, R260, R274, R280, R299; decisions D20, D24, D25, D41; that an issued request is told by a record idle before and
busy after Execute is log 11, that the fault's address is IP minus INSTR_SIZE log 12). -/
def Obligations.StepRunsTheDecodedInstruction : Prop :=
  (∀ (s s1 t : State) (text : Text) (i : Instr), s.status = .running → fetch s = .ok text → advance s = .ok s1 →
    decode text = .ok i → exec i s1 = .next t →
    HoldsInt s1 .ip (s.xi .ip + s.cfg.instrSize) ∧ OnlyRegs [.ip] s s1 ∧ s1.currentInstr = s.xi .ip ∧
    step s = .next (if t.status = .running then
      postExecute (s1.disk.isNone && t.disk.isSome) (s1.console.isNone && t.console.isSome) t else t)) ∧
  (∀ (s : State) (text : Text), s.cfg.Valid → fetch s = .ok text → ∃ s1, advance s = .ok s1) ∧
  ∀ (issuedDisk issuedConsole : Bool) (u : State),
    let s1 := timerTick u
    let s2 := if issuedDisk = true then s1 else diskTick s1
    let s3 := if issuedConsole = true then s2 else consoleTick s2
    postExecute issuedDisk issuedConsole u = deliverInterrupt s3

/-- A slot that cannot be fetched or decoded delivers its fault: a fetch fault with IP not advanced, a decoding fault
with IP advanced, both naming the slot's own address; then the post-execute phase, if the machine still runs, with
both devices ticked. The three decoding faults raise the faults of their names. In a configuration that breaks R5's
joint constraint an IP that cannot be advanced delivers its WordOverflow like a fetch fault (R122 to R124, R128, R140,
R141, R144, R279, R299; decisions D21, D24, D41, D44; the last case is log 19). -/
def Obligations.StepDeliversFetchAndDecodeFaults : Prop :=
  (decodeFault .illegalInstruction = .illegalInstruction ∧ decodeFault .malformedOperand = .malformedOperand ∧
    ∀ name, decodeFault (.unknownRegister name) = .unknownRegister name) ∧
  ∀ s : State, s.status = .running →
    let ends (u : State) : State := if u.status = .running then postExecute false false u else u
    (∀ e, fetch s = .error e → step s = .next (ends (deliverFault e (s.xi .ip) s))) ∧
    (∀ text e, fetch s = .ok text → advance s = .error e →
      e = .wordOverflow (s.xi .ip + s.cfg.instrSize) ∧ step s = .next (ends (deliverFault e (s.xi .ip) s))) ∧
    (∀ text s1 d, fetch s = .ok text → advance s = .ok s1 → decode text = .error d →
      step s = .next (ends (deliverFault (decodeFault d) (s.xi .ip) s1)))

/-- Fetch reads INSTR_SIZE Words in ascending order and raises OutOfRange at the first address outside memory (R104,
R141; decisions D12, D41). -/
def Obligations.FetchJoinsTheSlotsWords : Prop :=
  ∀ s : State, 1 ≤ s.cfg.instrSize →
    (0 ≤ s.xi .ip ∧ s.xi .ip + s.cfg.instrSize ≤ s.cfg.memorySize →
      fetch s = .ok ((List.range s.cfg.instrSize).flatMap fun k => (s.mem.read ((s.xi .ip).toNat + k)).text)) ∧
    (s.xi .ip < 0 ∨ s.cfg.memorySize ≤ s.xi .ip → fetch s = .error (.outOfRange (s.xi .ip))) ∧
    (0 ≤ s.xi .ip ∧ s.xi .ip < s.cfg.memorySize ∧ s.cfg.memorySize < s.xi .ip + s.cfg.instrSize →
      fetch s = .error (.outOfRange s.cfg.memorySize))

/-! ### The invariant and reset -/

/-- Every step keeps the invariant: legal Words everywhere, memory and block store in canonical form and in range, the
timer within its interval, a pending disk request validated (R20, R24, R46, R240, R242, R246, R300, R332; legality is
decision D5 and log 1, the canonical form and the block store's layout are logs 4 and 5, the bounds of the devices and
the timer rest on D1, D7, D25, D26, D28, D38, and the Option records are log 11). -/
def Obligations.EveryStepKeepsTheInvariant : Prop :=
  ∀ s t : State, s.Inv → step s = .next t → t.Inv

/-- The state after reset meets the invariant (R60, R332; decisions D26, D33, D38; the values the spec leaves open are
the model's: log 2 to 5, log 10). -/
def Obligations.ResetMeetsTheInvariant : Prop := State.reset.Inv

/-- What reset leaves, for the values the spec gives: Running, Kernel mode, IP "0", the timer at its interval, devices
idle, latches clear, nothing printed; ZR reads "0" (R43, R60, R331; decisions D4, D26, D33; the interval itself is log
2). -/
def Obligations.ResetState : Prop :=
  State.reset.status = .running ∧ State.reset.mode = .kernel ∧ State.reset.reg .ip = Word.ofString "0" ∧
  State.reset.timer = State.reset.cfg.timerInterval ∧ State.reset.disk = none ∧ State.reset.console = none ∧
  State.reset.timerPending = false ∧ State.reset.diskPending = false ∧ State.reset.consolePending = false ∧
  State.reset.consoleOut = [] ∧ ∀ s : State, s.zr = Word.ofString "0"
end

