-- ==== Sys2Proof/Laws/Text.lean ====
section
/-! SUPPORT. Decimal text: what rendering and reading do (spec/10_state.md R22, R24). -/

namespace Sys2Proof.Machine

theorem digitChar_table : ∀ d, d < 10 →
    (digitChar d).isDigit = true ∧ digitValue (digitChar d) = d ∧ LegalChar (digitChar d) ∧
      digitChar d ≠ '-' ∧ digitChar d ≠ '+' := by decide

theorem digitsValue_append (t : Text) (c : Char) : digitsValue (t ++ [c]) = 10 * digitsValue t + digitValue c := by
  simp [digitsValue, List.foldl_append]

/-- Rendering and reading agree on naturals. -/
theorem digitsValue_digitsFuel : ∀ fuel n, n < fuel → digitsValue (digitsFuel fuel n) = n
  | 0, n, h => by omega
  | fuel + 1, n, h => by
    unfold digitsFuel
    split
    · rename_i h10
      simp [digitsValue, (digitChar_table n h10).2.1]
    · rename_i h10
      have ih := digitsValue_digitsFuel fuel (n / 10) (by omega)
      rw [digitsValue_append, ih, (digitChar_table (n % 10) (Nat.mod_lt _ (by omega))).2.1]
      omega

theorem digitsValue_renderNat (n : Nat) : digitsValue (renderNat n) = n :=
  digitsValue_digitsFuel (n + 1) n (by omega)

/-- Every character of a rendering is a digit. -/
theorem digitsFuel_digits : ∀ fuel n, ∀ c ∈ digitsFuel fuel n, ∃ d, d < 10 ∧ c = digitChar d
  | 0, _, c, h => by simp [digitsFuel] at h
  | fuel + 1, n, c, h => by
    unfold digitsFuel at h
    split at h
    · rename_i h10
      exact ⟨n, h10, by simpa using h⟩
    · rcases List.mem_append.mp h with h | h
      · exact digitsFuel_digits fuel (n / 10) c h
      · exact ⟨n % 10, Nat.mod_lt _ (by omega), by simpa using h⟩

theorem renderNat_isDigit {n : Nat} {c : Char} (h : c ∈ renderNat n) : c.isDigit = true := by
  obtain ⟨d, hd, rfl⟩ := digitsFuel_digits _ _ c h
  exact (digitChar_table d hd).1

theorem renderNat_legal {n : Nat} {c : Char} (h : c ∈ renderNat n) : LegalChar c := by
  obtain ⟨d, hd, rfl⟩ := digitsFuel_digits _ _ c h
  exact (digitChar_table d hd).2.2.1

theorem renderNat_ne_nil (n : Nat) : renderNat n ≠ [] := by
  unfold renderNat digitsFuel
  split <;> simp

/-- A rendering begins with a digit, so with no sign. -/
theorem renderNat_cons (n : Nat) : ∃ c t, renderNat n = c :: t ∧ c.isDigit = true ∧ c ≠ '-' ∧ c ≠ '+' := by
  cases h : renderNat n with
  | nil => exact absurd h (renderNat_ne_nil n)
  | cons c t =>
    obtain ⟨d, hd, rfl⟩ := digitsFuel_digits _ _ c (show c ∈ digitsFuel (n + 1) n by
      rw [show digitsFuel (n + 1) n = c :: t from h]; simp)
    have := digitChar_table d hd
    exact ⟨_, t, rfl, this.1, this.2.2.2.1, this.2.2.2.2⟩

/-- A text of digits is its own run of leading digits, whatever stands after it, if that is no digit. -/
theorem leadingDigits_append {t u : Text} (ht : ∀ c ∈ t, c.isDigit = true)
    (hu : ∀ c ∈ u.head?, c.isDigit = false) : leadingDigits (t ++ u) = t := by
  have h0 : u.takeWhile Char.isDigit = [] := by
    cases u with
    | nil => rfl
    | cons c u => simp [List.takeWhile, hu c (by simp)]
  rw [leadingDigits, List.takeWhile_append_of_pos ht, h0, List.append_nil]

theorem leadingDigits_self {t : Text} (ht : ∀ c ∈ t, c.isDigit = true) : leadingDigits t = t := by
  simpa using leadingDigits_append (u := []) ht (by simp)

/-- The length of a rendering: the least number of digits that holds the value. -/
theorem digitsFuel_length_le : ∀ fuel n k, n < fuel → 1 ≤ k →
    ((digitsFuel fuel n).length ≤ k ↔ n < 10 ^ k)
  | 0, n, _, h, _ => by omega
  | fuel + 1, n, k, h, hk => by
    unfold digitsFuel
    split
    · rename_i h10
      have h1 : 10 ^ 1 ≤ 10 ^ k := Nat.pow_le_pow_right (by omega) hk
      simp only [List.length_singleton]
      omega
    · rename_i h10
      obtain ⟨j, rfl⟩ : ∃ j, k = j + 1 := ⟨k - 1, by omega⟩
      rw [List.length_append, List.length_singleton, Nat.add_le_add_iff_right]
      have hp : 10 ^ (j + 1) = 10 * 10 ^ j := by rw [Nat.pow_succ]; omega
      cases Nat.eq_zero_or_pos j with
      | inl hj =>
        subst hj
        have hne : (digitsFuel fuel (n / 10)).length ≠ 0 := by
          cases fuel with
          | zero => omega
          | succ f => unfold digitsFuel; split <;> simp
        constructor
        · intro hl; omega
        · intro hl; simp at hl; omega
      | inr hj =>
        rw [digitsFuel_length_le fuel (n / 10) j (by omega) hj]
        constructor <;> intro hl <;> omega

theorem renderNat_length_le {n k : Nat} (hk : 1 ≤ k) : (renderNat n).length ≤ k ↔ n < 10 ^ k :=
  digitsFuel_length_le (n + 1) n k (by omega) hk

/-- A text whose head is a digit is read as its leading digits. -/
theorem integerOfText_digits {t : Text} (h : ∀ c ∈ t.head?, c ≠ '-' ∧ c ≠ '+') :
    integerOfText t = digitsValue (leadingDigits t) := by
  cases t with
  | nil => rfl
  | cons c t =>
    have hc := h c (by simp)
    unfold integerOfText
    split
    · rename_i e; simp_all
    · rename_i e; simp_all
    · rfl

/-- `as_integer(store_integer(v)) = v` (R27). -/
theorem asInteger_integerWord (v : Int) : asInteger (integerWord v) = v := by
  obtain ⟨c, t, hc, _, hm, hp⟩ := renderNat_cons v.natAbs
  have hself : leadingDigits (renderNat v.natAbs) = renderNat v.natAbs :=
    leadingDigits_self fun _ h => renderNat_isDigit h
  unfold asInteger integerWord renderInt
  split
  · rename_i hv
    simp only [integerOfText]
    rw [hself, digitsValue_renderNat]
    omega
  · rename_i hv
    have h := integerOfText_digits (t := renderNat v.natAbs) (by simp [hc, hm, hp])
    simp only
    rw [h, hself, digitsValue_renderNat]
    omega

theorem renderInt_legal {v : Int} {c : Char} (h : c ∈ renderInt v) : LegalChar c := by
  unfold renderInt at h
  split at h
  · rcases List.mem_cons.mp h with rfl | h
    · decide
    · exact renderNat_legal h
  · exact renderNat_legal h

/-- The range of store_integer: the canonical text fits exactly when INT_MIN ≤ v ≤ INT_MAX (R24). -/
theorem renderInt_length_le {c : Config} (hc : 2 ≤ c.wordSize) (v : Int) :
    (renderInt v).length ≤ c.wordCap ↔ c.intMin ≤ v ∧ v ≤ c.intMax := by
  have hcap : 1 ≤ c.wordCap := by unfold Config.wordCap; omega
  have hpos : 0 < 10 ^ (c.wordCap - 1) := Nat.pow_pos (by omega)
  have hpos' : 0 < 10 ^ c.wordCap := Nat.pow_pos (by omega)
  unfold renderInt Config.intMin Config.intMax
  split
  · rename_i hv
    rw [List.length_cons]
    by_cases h1 : c.wordCap = 1
    · have hne := renderNat_ne_nil v.natAbs
      have hl : 0 < (renderNat v.natAbs).length := List.length_pos_of_ne_nil hne
      rw [h1]
      simp only [Nat.sub_self, pow_zero]
      omega
    · have := renderNat_length_le (n := v.natAbs) (k := c.wordCap - 1) (by omega)
      omega
  · rename_i hv
    have := renderNat_length_le (n := v.natAbs) hcap
    omega

theorem storeInteger_some {cap : Nat} {v : Int} {w : Word} (h : storeInteger? cap v = some w) :
    w = integerWord v ∧ (renderInt v).length ≤ cap := by
  unfold storeInteger? at h
  split at h
  · exact ⟨(Option.some.inj h).symm, ‹_›⟩
  · cases h

theorem integerWord_legal {cap : Nat} {v : Int} (h : (renderInt v).length ≤ cap) : (integerWord v).Legal cap :=
  ⟨h, fun _ => renderInt_legal⟩

theorem clampInt_fits {c : Config} (v : Int) :
    c.intMin ≤ clampInt c v ∧ clampInt c v ≤ c.intMax := by
  have h1 : 0 < 10 ^ (c.wordCap - 1) := Nat.pow_pos (by omega)
  have h2 : 0 < 10 ^ c.wordCap := Nat.pow_pos (by omega)
  have : c.intMin ≤ c.intMax := by unfold Config.intMin Config.intMax; omega
  unfold clampInt
  omega

theorem clampInt_legal {c : Config} (hc : 2 ≤ c.wordSize) (v : Int) :
    (integerWord (clampInt c v)).Legal c.wordCap :=
  integerWord_legal ((renderInt_length_le hc _).mpr (clampInt_fits v))

/-- The transform of ENCRYPT gives a legal Word (R255). -/
theorem encrypt_legal (cap : Nat) (w : Word) : (encrypt cap w).Legal cap := by
  refine ⟨by simp [encrypt], fun c hc => ?_⟩
  have := List.mem_of_mem_take hc
  simpa using (List.mem_filter.mp this).2

/-- A console line of bytes gives a legal Word (R258). -/
theorem consoleWord_legal {cap : Nat} {line : Text} (h : ∀ c ∈ line, c.toNat ≤ 255) :
    (consoleWord cap line).Legal cap := by
  refine ⟨?_, fun c hc => ?_⟩
  · have := List.length_filter_le (fun c : Char => decide (c.toNat ≠ 0)) (line.take cap)
    have h2 : (line.take cap).length ≤ cap := by simp
    simpa [consoleWord] using le_trans this h2
  · have h1 := List.mem_filter.mp hc
    have h2 := h c (List.mem_of_mem_take h1.1)
    have h3 : c.toNat ≠ 0 := by simpa using h1.2
    exact ⟨by omega, h2⟩

end Sys2Proof.Machine
end

