-- ==== Sys2Proof/Laws/Decode.lean ====
section
/-! SUPPORT. The small lemmas of the decoder: register names, the two levels' pieces, one character at a time
(spec/30_encoding.md R105 to R113, spec/10_state.md R31). -/

namespace Sys2Proof

open Machine

/-- A register's own name finds it (R31). -/
theorem lookup_name (r : Reg) : lookup r.name = some r := by
  cases r with
  | r n => revert n; decide
  | p n => revert n; decide
  | _ => decide

/-- The name of the register that lookup finds is the upper-cased name (R31). -/
theorem lookup_some {n : Text} {r : Reg} (h : lookup n = some r) : n.map upperChar = r.name := by
  have := List.find?_some h
  exact (by simpa using this : r.name = n.map upperChar).symm

@[simp] theorem resolve_name (r : Reg) : resolve r.name = .ok r := by simp [resolve, lookup_name]

@[simp] theorem rawBase_resolve (b : RegInt) : b.rawBase.resolve = .ok b := by
  cases b
  · simp [RegInt.rawBase, RawBase.resolve, Except.map]
  · rfl

@[simp] theorem raw_toSrc (o : Src) : o.raw.toSrc = .ok o := by
  cases o <;> simp [Src.raw, RawOperand.toSrc, Except.map]

@[simp] theorem shapeR_name (mk : Reg → Instr) (a : Reg) : shapeR mk [.reg a.name] = .ok (mk a) := by
  simp [shapeR, Except.map]

@[simp] theorem shapeRR_name (mk : Reg → Reg → Instr) (a b : Reg) :
    shapeRR mk [.reg a.name, .reg b.name] = .ok (mk a b) := by
  simp [shapeRR, Except.map, Except.bind]

@[simp] theorem shapeRI_name (mk : Reg → Int → Instr) (a : Reg) (v : Int) :
    shapeRI mk [.reg a.name, .int v] = .ok (mk a v) := by
  simp [shapeRI, Except.map]

@[simp] theorem shapeRRi_raw (mk : Reg → RegInt → Instr) (a : Reg) (b : RegInt) :
    shapeRRi mk [.reg a.name, b.raw] = .ok (mk a b) := by
  cases b <;> simp [RegInt.raw, shapeRRi, Except.map, Except.bind]

@[simp] theorem shapeRiRi_raw (mk : RegInt → RegInt → Instr) (a b : RegInt) :
    shapeRiRi mk [a.raw, b.raw] = .ok (mk a b) := by
  cases a <;> cases b <;> simp [RegInt.raw, shapeRiRi, Except.map, Except.bind]

@[simp] theorem shapeMove_raw (mk : Dst → Src → Instr) (d : Dst) (o : Src) :
    shapeMove mk [d.raw, o.raw] = .ok (mk d o) := by
  cases d <;> simp [Dst.raw, shapeMove, Except.map, Except.bind]

/-- Every row of the opcode map is found by its own keyword: no two rows share one (R120, R121). -/
theorem opcodeMap_keywords_nodup : (opcodeMap.map Prod.fst).Nodup := by decide

end Sys2Proof
end

