-- ==== Sys2Proof/Laws/Memory.lean ====
section
/-! SUPPORT. The memory laws: read after write, the canonical form, the page copy (spec/20_memory.md R72,
spec/47_disk.md R240). -/

namespace Sys2Proof.Machine

theorem readCells_insertCells (a b : Nat) (w : Word) : ∀ l,
    readCells b (insertCells a w l) = if b = a then w else readCells b l
  | [] => by simp [insertCells, readCells]
  | (c, v) :: rest => by
    have ih := readCells_insertCells a b w rest
    unfold insertCells
    split
    · simp [readCells]
    · split
      · rename_i h; subst h; by_cases hb : b = a <;> simp [readCells, hb]
      · rename_i h1 h2
        simp only [readCells, ih]
        by_cases hb : b = a
        · subst hb; simp [h2]
        · simp [hb]

theorem readCells_filter (a b : Nat) : ∀ l,
    readCells b (l.filter fun e => e.1 != a) = if b = a then Word.blank else readCells b l
  | [] => by simp [readCells]
  | (c, v) :: rest => by
    have ih := readCells_filter a b rest
    by_cases hc : c = a
    · subst hc
      simp only [List.filter, bne_self_eq_false, ih, readCells]
      by_cases hb : b = c <;> simp [hb]
    · have : (c != a) = true := by simpa using hc
      simp only [List.filter, this, readCells, ih]
      by_cases hb : b = c
      · subst hb; simp [hc]
      · simp [hb]

/-- What one index reads after a write to one index (R72: a write changes that one Word and nothing else). -/
theorem read_write (m : Memory) (a b : Nat) (w : Word) :
    (m.write a w).read b = if b = a then w else m.read b := by
  unfold Memory.write Memory.read
  split
  · rename_i h; subst h; exact readCells_filter a b m.cells
  · exact readCells_insertCells a b w m.cells

@[simp] theorem read_write_same (m : Memory) (a : Nat) (w : Word) : (m.write a w).read a = w := by
  simp [read_write]

theorem read_write_other (m : Memory) {a b : Nat} (w : Word) (h : b ≠ a) : (m.write a w).read b = m.read b := by
  simp [read_write, h]

theorem mem_insertCells {a : Nat} {w : Word} {e : Nat × Word} : ∀ {l},
    e ∈ insertCells a w l → e = (a, w) ∨ e ∈ l
  | [], h => by simpa [insertCells] using h
  | (c, v) :: rest, h => by
    unfold insertCells at h
    split at h
    · simpa using h
    · split at h
      · rcases List.mem_cons.mp h with h | h
        · exact .inl h
        · exact .inr (List.mem_cons_of_mem _ h)
      · rcases List.mem_cons.mp h with h | h
        · exact .inr (by simp [h])
        · rcases mem_insertCells h with h | h
          · exact .inl h
          · exact .inr (List.mem_cons_of_mem _ h)

/-- What a memory lists after a write: the Word written, or what it listed before. -/
theorem mem_write {m : Memory} {a : Nat} {w : Word} {e : Nat × Word} (h : e ∈ (m.write a w).cells) :
    e = (a, w) ∧ w ≠ Word.blank ∨ e ∈ m.cells := by
  unfold Memory.write at h
  split at h
  · exact .inr (List.mem_filter.mp h).1
  · rename_i hw
    rcases mem_insertCells h with h | h
    · exact .inl ⟨h, hw⟩
    · exact .inr h

theorem insertCells_rising (a : Nat) (w : Word) : ∀ {l : List (Nat × Word)},
    (l.map Prod.fst).Pairwise (· < ·) → ((insertCells a w l).map Prod.fst).Pairwise (· < ·)
  | [], _ => by simp [insertCells]
  | (c, v) :: rest, h => by
    simp only [List.map_cons, List.pairwise_cons] at h
    unfold insertCells
    split
    · rename_i hac
      simp only [List.map_cons, List.pairwise_cons, List.mem_cons]
      refine ⟨?_, h.1, h.2⟩
      rintro x (rfl | hx)
      · exact hac
      · exact lt_trans hac (h.1 x hx)
    · split
      · rename_i _ hac
        subst hac
        simpa using h
      · rename_i h1 h2
        simp only [List.map_cons, List.pairwise_cons]
        refine ⟨?_, insertCells_rising a w h.2⟩
        intro x hx
        obtain ⟨e, he, rfl⟩ := List.mem_map.mp hx
        rcases mem_insertCells he with rfl | he
        · show c < a; omega
        · exact h.1 e.1 (List.mem_map_of_mem he)

/-- A write keeps the canonical form. -/
theorem write_wf {m : Memory} (h : m.wf) (a : Nat) (w : Word) : (m.write a w).wf := by
  refine ⟨?_, fun e he => ?_⟩
  · unfold Memory.write
    split
    · exact h.1.sublist (List.filter_sublist.map Prod.fst)
    · exact insertCells_rising a w h.1
  · rcases mem_write he with ⟨rfl, hw⟩ | he
    · exact hw
    · exact h.2 e he

/-- A write of a legal Word below the memory's size keeps a memory sound. -/
theorem write_sound {m : Memory} {size cap a : Nat} {w : Word} (h : m.Sound size cap) (ha : a < size)
    (hw : w.Legal cap) : (m.write a w).Sound size cap := by
  refine ⟨write_wf h.wf a w, fun e he => ?_, fun e he => ?_⟩
  · rcases mem_write he with ⟨rfl, _⟩ | he
    · exact ha
    · exact h.bounded e he
  · rcases mem_write he with ⟨rfl, _⟩ | he
    · exact hw
    · exact h.legal e he

theorem blank_legal (cap : Nat) : Word.blank.Legal cap := ⟨Nat.zero_le _, fun _ h => absurd h (by simp [Word.blank])⟩

/-- A sound memory reads legal Words, listed or not. -/
theorem read_legal {m : Memory} {size cap : Nat} (h : m.Sound size cap) (a : Nat) : (m.read a).Legal cap := by
  have : ∀ l : List (Nat × Word), (∀ e ∈ l, e.2.Legal cap) → (readCells a l).Legal cap := by
    intro l
    induction l with
    | nil => intro _; exact blank_legal cap
    | cons e rest ih =>
      intro hl
      unfold readCells
      split
      · exact hl e (by simp)
      · exact ih fun x hx => hl x (by simp [hx])
  exact this _ h.legal

/-- What one index reads after `n` Words were copied (R240). -/
theorem read_copyWords (src dst : Memory) (i j a : Nat) : ∀ n,
    (copyWords src i dst j n).read a = if j ≤ a ∧ a < j + n then src.read (i + (a - j)) else dst.read a
  | 0 => by
    rw [copyWords, if_neg (by omega)]
  | n + 1 => by
    rw [copyWords, read_write, read_copyWords src dst i j a n]
    by_cases h : a = j + n
    · subst h
      rw [if_pos rfl, if_pos ⟨by omega, by omega⟩, Nat.add_sub_cancel_left]
    · rw [if_neg h]
      by_cases h2 : j ≤ a ∧ a < j + n
      · rw [if_pos h2, if_pos ⟨h2.1, by omega⟩]
      · rw [if_neg h2, if_neg (by omega)]

/-- A copy keeps a memory sound. -/
theorem copyWords_sound {src dst : Memory} {size size' cap : Nat} (hs : src.Sound size' cap)
    (hd : dst.Sound size cap) (i j : Nat) : ∀ n, j + n ≤ size → (copyWords src i dst j n).Sound size cap
  | 0, _ => hd
  | n + 1, h => write_sound (copyWords_sound hs hd i j n (by omega)) (by omega) (read_legal hs _)

/-- A copy keeps the canonical form. -/
theorem copyWords_wf {src dst : Memory} (hd : dst.wf) (i j : Nat) : ∀ n, (copyWords src i dst j n).wf
  | 0 => hd
  | n + 1 => write_wf (copyWords_wf hd i j n) _ _

end Sys2Proof.Machine
end

