-- ==== Sys2Proof/Laws/State.lean ====
section
/-! SUPPORT. The small lemmas of State and of the operations that update it: one per field per update, true by rfl, so
that no later proof unfolds a record update. -/

namespace Sys2Proof.Machine

/-! ### x[r] <- w -/

@[simp] theorem setReg_cfg (s : State) (r : Reg) (w : Word) : (s.setReg r w).cfg = s.cfg := rfl
@[simp] theorem setReg_mem (s : State) (r : Reg) (w : Word) : (s.setReg r w).mem = s.mem := rfl
@[simp] theorem setReg_mode (s : State) (r : Reg) (w : Word) : (s.setReg r w).mode = s.mode := rfl
@[simp] theorem setReg_timer (s : State) (r : Reg) (w : Word) : (s.setReg r w).timer = s.timer := rfl
@[simp] theorem setReg_disk (s : State) (r : Reg) (w : Word) : (s.setReg r w).disk = s.disk := rfl
@[simp] theorem setReg_console (s : State) (r : Reg) (w : Word) : (s.setReg r w).console = s.console := rfl
@[simp] theorem setReg_timerPending (s : State) (r : Reg) (w : Word) : (s.setReg r w).timerPending = s.timerPending := rfl
@[simp] theorem setReg_diskPending (s : State) (r : Reg) (w : Word) : (s.setReg r w).diskPending = s.diskPending := rfl
@[simp] theorem setReg_consolePending (s : State) (r : Reg) (w : Word) : (s.setReg r w).consolePending = s.consolePending := rfl
@[simp] theorem setReg_status (s : State) (r : Reg) (w : Word) : (s.setReg r w).status = s.status := rfl
@[simp] theorem setReg_blocks (s : State) (r : Reg) (w : Word) : (s.setReg r w).blocks = s.blocks := rfl
@[simp] theorem setReg_consoleIn (s : State) (r : Reg) (w : Word) : (s.setReg r w).consoleIn = s.consoleIn := rfl
@[simp] theorem setReg_consoleInPos (s : State) (r : Reg) (w : Word) : (s.setReg r w).consoleInPos = s.consoleInPos := rfl
@[simp] theorem setReg_consoleOut (s : State) (r : Reg) (w : Word) : (s.setReg r w).consoleOut = s.consoleOut := rfl

/-! ### x[r] <-i clamp(v) -/

@[simp] theorem putClamped_cfg (s : State) (r : Reg) (v : Int) : (s.putClamped r v).cfg = s.cfg := rfl
@[simp] theorem putClamped_mem (s : State) (r : Reg) (v : Int) : (s.putClamped r v).mem = s.mem := rfl
@[simp] theorem putClamped_mode (s : State) (r : Reg) (v : Int) : (s.putClamped r v).mode = s.mode := rfl
@[simp] theorem putClamped_timer (s : State) (r : Reg) (v : Int) : (s.putClamped r v).timer = s.timer := rfl
@[simp] theorem putClamped_disk (s : State) (r : Reg) (v : Int) : (s.putClamped r v).disk = s.disk := rfl
@[simp] theorem putClamped_console (s : State) (r : Reg) (v : Int) : (s.putClamped r v).console = s.console := rfl
@[simp] theorem putClamped_timerPending (s : State) (r : Reg) (v : Int) : (s.putClamped r v).timerPending = s.timerPending := rfl
@[simp] theorem putClamped_diskPending (s : State) (r : Reg) (v : Int) : (s.putClamped r v).diskPending = s.diskPending := rfl
@[simp] theorem putClamped_consolePending (s : State) (r : Reg) (v : Int) : (s.putClamped r v).consolePending = s.consolePending := rfl
@[simp] theorem putClamped_status (s : State) (r : Reg) (v : Int) : (s.putClamped r v).status = s.status := rfl
@[simp] theorem putClamped_blocks (s : State) (r : Reg) (v : Int) : (s.putClamped r v).blocks = s.blocks := rfl
@[simp] theorem putClamped_consoleIn (s : State) (r : Reg) (v : Int) : (s.putClamped r v).consoleIn = s.consoleIn := rfl
@[simp] theorem putClamped_consoleInPos (s : State) (r : Reg) (v : Int) : (s.putClamped r v).consoleInPos = s.consoleInPos := rfl
@[simp] theorem putClamped_consoleOut (s : State) (r : Reg) (v : Int) : (s.putClamped r v).consoleOut = s.consoleOut := rfl

/-! ### status <- Crashed(k) -/

@[simp] theorem crash_status (k : CrashKind) (s : State) : (crash k s).status = .crashed k := rfl
@[simp] theorem crash_cfg (k : CrashKind) (s : State) : (crash k s).cfg = s.cfg := rfl
@[simp] theorem crash_regs (k : CrashKind) (s : State) : (crash k s).regs = s.regs := rfl
@[simp] theorem crash_mem (k : CrashKind) (s : State) : (crash k s).mem = s.mem := rfl
@[simp] theorem crash_mode (k : CrashKind) (s : State) : (crash k s).mode = s.mode := rfl
@[simp] theorem crash_timer (k : CrashKind) (s : State) : (crash k s).timer = s.timer := rfl
@[simp] theorem crash_disk (k : CrashKind) (s : State) : (crash k s).disk = s.disk := rfl
@[simp] theorem crash_console (k : CrashKind) (s : State) : (crash k s).console = s.console := rfl
@[simp] theorem crash_timerPending (k : CrashKind) (s : State) : (crash k s).timerPending = s.timerPending := rfl
@[simp] theorem crash_diskPending (k : CrashKind) (s : State) : (crash k s).diskPending = s.diskPending := rfl
@[simp] theorem crash_consolePending (k : CrashKind) (s : State) : (crash k s).consolePending = s.consolePending := rfl
@[simp] theorem crash_blocks (k : CrashKind) (s : State) : (crash k s).blocks = s.blocks := rfl
@[simp] theorem crash_consoleIn (k : CrashKind) (s : State) : (crash k s).consoleIn = s.consoleIn := rfl
@[simp] theorem crash_consoleInPos (k : CrashKind) (s : State) : (crash k s).consoleInPos = s.consoleInPos := rfl
@[simp] theorem crash_consoleOut (k : CrashKind) (s : State) : (crash k s).consoleOut = s.consoleOut := rfl

/-! ### The block transfers -/

@[simp] theorem readBlock_cfg (p b : Nat) (s : State) : (readBlock p b s).cfg = s.cfg := rfl
@[simp] theorem readBlock_regs (p b : Nat) (s : State) : (readBlock p b s).regs = s.regs := rfl
@[simp] theorem readBlock_mode (p b : Nat) (s : State) : (readBlock p b s).mode = s.mode := rfl
@[simp] theorem readBlock_timer (p b : Nat) (s : State) : (readBlock p b s).timer = s.timer := rfl
@[simp] theorem readBlock_disk (p b : Nat) (s : State) : (readBlock p b s).disk = s.disk := rfl
@[simp] theorem readBlock_console (p b : Nat) (s : State) : (readBlock p b s).console = s.console := rfl
@[simp] theorem readBlock_timerPending (p b : Nat) (s : State) : (readBlock p b s).timerPending = s.timerPending := rfl
@[simp] theorem readBlock_diskPending (p b : Nat) (s : State) : (readBlock p b s).diskPending = s.diskPending := rfl
@[simp] theorem readBlock_consolePending (p b : Nat) (s : State) : (readBlock p b s).consolePending = s.consolePending := rfl
@[simp] theorem readBlock_status (p b : Nat) (s : State) : (readBlock p b s).status = s.status := rfl
@[simp] theorem readBlock_blocks (p b : Nat) (s : State) : (readBlock p b s).blocks = s.blocks := rfl
@[simp] theorem readBlock_consoleIn (p b : Nat) (s : State) : (readBlock p b s).consoleIn = s.consoleIn := rfl
@[simp] theorem readBlock_consoleInPos (p b : Nat) (s : State) : (readBlock p b s).consoleInPos = s.consoleInPos := rfl
@[simp] theorem readBlock_consoleOut (p b : Nat) (s : State) : (readBlock p b s).consoleOut = s.consoleOut := rfl
@[simp] theorem writeBlock_cfg (p b : Nat) (s : State) : (writeBlock p b s).cfg = s.cfg := rfl
@[simp] theorem writeBlock_regs (p b : Nat) (s : State) : (writeBlock p b s).regs = s.regs := rfl
@[simp] theorem writeBlock_mem (p b : Nat) (s : State) : (writeBlock p b s).mem = s.mem := rfl
@[simp] theorem writeBlock_mode (p b : Nat) (s : State) : (writeBlock p b s).mode = s.mode := rfl
@[simp] theorem writeBlock_timer (p b : Nat) (s : State) : (writeBlock p b s).timer = s.timer := rfl
@[simp] theorem writeBlock_disk (p b : Nat) (s : State) : (writeBlock p b s).disk = s.disk := rfl
@[simp] theorem writeBlock_console (p b : Nat) (s : State) : (writeBlock p b s).console = s.console := rfl
@[simp] theorem writeBlock_timerPending (p b : Nat) (s : State) : (writeBlock p b s).timerPending = s.timerPending := rfl
@[simp] theorem writeBlock_diskPending (p b : Nat) (s : State) : (writeBlock p b s).diskPending = s.diskPending := rfl
@[simp] theorem writeBlock_consolePending (p b : Nat) (s : State) : (writeBlock p b s).consolePending = s.consolePending := rfl
@[simp] theorem writeBlock_status (p b : Nat) (s : State) : (writeBlock p b s).status = s.status := rfl
@[simp] theorem writeBlock_consoleIn (p b : Nat) (s : State) : (writeBlock p b s).consoleIn = s.consoleIn := rfl
@[simp] theorem writeBlock_consoleInPos (p b : Nat) (s : State) : (writeBlock p b s).consoleInPos = s.consoleInPos := rfl
@[simp] theorem writeBlock_consoleOut (p b : Nat) (s : State) : (writeBlock p b s).consoleOut = s.consoleOut := rfl

/-! ### The console -/

@[simp] theorem readConsole_consoleInPos (s : State) : (readConsole s).consoleInPos = s.consoleInPos + 1 := rfl
@[simp] theorem readConsole_cfg (s : State) : (readConsole s).cfg = s.cfg := rfl
@[simp] theorem readConsole_mem (s : State) : (readConsole s).mem = s.mem := rfl
@[simp] theorem readConsole_mode (s : State) : (readConsole s).mode = s.mode := rfl
@[simp] theorem readConsole_timer (s : State) : (readConsole s).timer = s.timer := rfl
@[simp] theorem readConsole_disk (s : State) : (readConsole s).disk = s.disk := rfl
@[simp] theorem readConsole_console (s : State) : (readConsole s).console = s.console := rfl
@[simp] theorem readConsole_timerPending (s : State) : (readConsole s).timerPending = s.timerPending := rfl
@[simp] theorem readConsole_diskPending (s : State) : (readConsole s).diskPending = s.diskPending := rfl
@[simp] theorem readConsole_consolePending (s : State) : (readConsole s).consolePending = s.consolePending := rfl
@[simp] theorem readConsole_status (s : State) : (readConsole s).status = s.status := rfl
@[simp] theorem readConsole_blocks (s : State) : (readConsole s).blocks = s.blocks := rfl
@[simp] theorem readConsole_consoleIn (s : State) : (readConsole s).consoleIn = s.consoleIn := rfl
@[simp] theorem readConsole_consoleOut (s : State) : (readConsole s).consoleOut = s.consoleOut := rfl
@[simp] theorem printConsole_consoleOut (w : Word) (s : State) : (printConsole w s).consoleOut = s.consoleOut ++ [w] := rfl
@[simp] theorem printConsole_cfg (w : Word) (s : State) : (printConsole w s).cfg = s.cfg := rfl
@[simp] theorem printConsole_regs (w : Word) (s : State) : (printConsole w s).regs = s.regs := rfl
@[simp] theorem printConsole_mem (w : Word) (s : State) : (printConsole w s).mem = s.mem := rfl
@[simp] theorem printConsole_mode (w : Word) (s : State) : (printConsole w s).mode = s.mode := rfl
@[simp] theorem printConsole_timer (w : Word) (s : State) : (printConsole w s).timer = s.timer := rfl
@[simp] theorem printConsole_disk (w : Word) (s : State) : (printConsole w s).disk = s.disk := rfl
@[simp] theorem printConsole_console (w : Word) (s : State) : (printConsole w s).console = s.console := rfl
@[simp] theorem printConsole_timerPending (w : Word) (s : State) : (printConsole w s).timerPending = s.timerPending := rfl
@[simp] theorem printConsole_diskPending (w : Word) (s : State) : (printConsole w s).diskPending = s.diskPending := rfl
@[simp] theorem printConsole_consolePending (w : Word) (s : State) : (printConsole w s).consolePending = s.consolePending := rfl
@[simp] theorem printConsole_status (w : Word) (s : State) : (printConsole w s).status = s.status := rfl
@[simp] theorem printConsole_blocks (w : Word) (s : State) : (printConsole w s).blocks = s.blocks := rfl
@[simp] theorem printConsole_consoleIn (w : Word) (s : State) : (printConsole w s).consoleIn = s.consoleIn := rfl
@[simp] theorem printConsole_consoleInPos (w : Word) (s : State) : (printConsole w s).consoleInPos = s.consoleInPos := rfl

/-! ### A register read after an update of another field -/

@[simp] theorem reg_with_cfg (s : State) (v : Config) (r : Reg) : State.reg { s with cfg := v } r = s.reg r := rfl
@[simp] theorem xi_with_cfg (s : State) (v : Config) (r : Reg) : State.xi { s with cfg := v } r = s.xi r := rfl
@[simp] theorem reg_with_mem (s : State) (v : Memory) (r : Reg) : State.reg { s with mem := v } r = s.reg r := rfl
@[simp] theorem xi_with_mem (s : State) (v : Memory) (r : Reg) : State.xi { s with mem := v } r = s.xi r := rfl
@[simp] theorem reg_with_mode (s : State) (v : Mode) (r : Reg) : State.reg { s with mode := v } r = s.reg r := rfl
@[simp] theorem xi_with_mode (s : State) (v : Mode) (r : Reg) : State.xi { s with mode := v } r = s.xi r := rfl
@[simp] theorem reg_with_timer (s : State) (v : Int) (r : Reg) : State.reg { s with timer := v } r = s.reg r := rfl
@[simp] theorem xi_with_timer (s : State) (v : Int) (r : Reg) : State.xi { s with timer := v } r = s.xi r := rfl
@[simp] theorem reg_with_disk (s : State) (v : Option DiskRequest) (r : Reg) : State.reg { s with disk := v } r = s.reg r := rfl
@[simp] theorem xi_with_disk (s : State) (v : Option DiskRequest) (r : Reg) : State.xi { s with disk := v } r = s.xi r := rfl
@[simp] theorem reg_with_console (s : State) (v : Option ConsoleRequest) (r : Reg) : State.reg { s with console := v } r = s.reg r := rfl
@[simp] theorem xi_with_console (s : State) (v : Option ConsoleRequest) (r : Reg) : State.xi { s with console := v } r = s.xi r := rfl
@[simp] theorem reg_with_timerPending (s : State) (v : Bool) (r : Reg) : State.reg { s with timerPending := v } r = s.reg r := rfl
@[simp] theorem xi_with_timerPending (s : State) (v : Bool) (r : Reg) : State.xi { s with timerPending := v } r = s.xi r := rfl
@[simp] theorem reg_with_diskPending (s : State) (v : Bool) (r : Reg) : State.reg { s with diskPending := v } r = s.reg r := rfl
@[simp] theorem xi_with_diskPending (s : State) (v : Bool) (r : Reg) : State.xi { s with diskPending := v } r = s.xi r := rfl
@[simp] theorem reg_with_consolePending (s : State) (v : Bool) (r : Reg) : State.reg { s with consolePending := v } r = s.reg r := rfl
@[simp] theorem xi_with_consolePending (s : State) (v : Bool) (r : Reg) : State.xi { s with consolePending := v } r = s.xi r := rfl
@[simp] theorem reg_with_status (s : State) (v : Status) (r : Reg) : State.reg { s with status := v } r = s.reg r := rfl
@[simp] theorem xi_with_status (s : State) (v : Status) (r : Reg) : State.xi { s with status := v } r = s.xi r := rfl
@[simp] theorem reg_with_blocks (s : State) (v : Memory) (r : Reg) : State.reg { s with blocks := v } r = s.reg r := rfl
@[simp] theorem xi_with_blocks (s : State) (v : Memory) (r : Reg) : State.xi { s with blocks := v } r = s.xi r := rfl
@[simp] theorem reg_with_consoleIn (s : State) (v : List Text) (r : Reg) : State.reg { s with consoleIn := v } r = s.reg r := rfl
@[simp] theorem xi_with_consoleIn (s : State) (v : List Text) (r : Reg) : State.xi { s with consoleIn := v } r = s.xi r := rfl
@[simp] theorem reg_with_consoleInPos (s : State) (v : Nat) (r : Reg) : State.reg { s with consoleInPos := v } r = s.reg r := rfl
@[simp] theorem xi_with_consoleInPos (s : State) (v : Nat) (r : Reg) : State.xi { s with consoleInPos := v } r = s.xi r := rfl
@[simp] theorem reg_with_consoleOut (s : State) (v : List Word) (r : Reg) : State.reg { s with consoleOut := v } r = s.reg r := rfl
@[simp] theorem xi_with_consoleOut (s : State) (v : List Word) (r : Reg) : State.xi { s with consoleOut := v } r = s.xi r := rfl
@[simp] theorem reg_crash (k : CrashKind) (s : State) (r : Reg) : (crash k s).reg r = s.reg r := rfl
@[simp] theorem xi_crash (k : CrashKind) (s : State) (r : Reg) : (crash k s).xi r = s.xi r := rfl
@[simp] theorem reg_readBlock (p b : Nat) (s : State) (r : Reg) : (readBlock p b s).reg r = s.reg r := rfl
@[simp] theorem xi_readBlock (p b : Nat) (s : State) (r : Reg) : (readBlock p b s).xi r = s.xi r := rfl
@[simp] theorem reg_writeBlock (p b : Nat) (s : State) (r : Reg) : (writeBlock p b s).reg r = s.reg r := rfl
@[simp] theorem xi_writeBlock (p b : Nat) (s : State) (r : Reg) : (writeBlock p b s).xi r = s.xi r := rfl
@[simp] theorem reg_printConsole (w : Word) (s : State) (r : Reg) : (printConsole w s).reg r = s.reg r := rfl
@[simp] theorem xi_printConsole (w : Word) (s : State) (r : Reg) : (printConsole w s).xi r = s.xi r := rfl

/-! ### Registers -/

/-- R30's numbers are a numbering: two registers with one number are one register. -/
theorem index_injective {q r : Reg} (h : q.index = r.index) : q = r := by
  cases q <;> cases r <;> simp [Reg.index, Fin.ext_iff] at h ⊢ <;> omega

@[simp] theorem reg_setReg_same (s : State) (r : Reg) (w : Word) : (s.setReg r w).reg r = w := by
  simp [State.reg, State.setReg]

theorem reg_setReg_other (s : State) {q r : Reg} (w : Word) (h : q ≠ r) : (s.setReg r w).reg q = s.reg q := by
  have hi : r.index ≠ q.index := fun e => h (index_injective e.symm)
  have hv : (r.index : Nat) ≠ q.index := fun e => hi (Fin.ext e)
  simp [State.reg, State.setReg, hv]

/-- A register after a write to a register. -/
theorem reg_setReg (s : State) (q r : Reg) (w : Word) :
    (s.setReg r w).reg q = if q = r then w else s.reg q := by
  by_cases h : q = r
  · subst h; simp
  · simp [h, reg_setReg_other s w h]

@[simp] theorem xi_setReg_same (s : State) (r : Reg) (w : Word) : (s.setReg r w).xi r = asInteger w := by
  simp [State.xi]

theorem xi_setReg_other (s : State) {q r : Reg} (w : Word) (h : q ≠ r) : (s.setReg r w).xi q = s.xi q := by
  simp [State.xi, reg_setReg_other s w h]

theorem reg_putClamped (s : State) (q r : Reg) (v : Int) :
    (s.putClamped r v).reg q = if q = r then integerWord (clampInt s.cfg v) else s.reg q :=
  reg_setReg s q r _

/-- `x[P0] <- NextConsoleWord()` writes P0 alone. -/
theorem reg_readConsole (s : State) (q : Reg) :
    (readConsole s).reg q = if q = .p 0 then consoleWord s.cfg.wordCap (nextLine s) else s.reg q :=
  reg_setReg s q (.p 0) _

/-- ZR reads as "0" in every state (R43). -/
theorem zr_text (s : State) : s.zr = Word.ofString "0" :=
  (by decide : integerWord 0 = Word.ofString "0")

end Sys2Proof.Machine
end

