-- ==== Sys2Proof/Laws/Ops.lean ====
section
/-! SUPPORT. One lemma per shared operation: what it can do when it answers. Later proofs cite these and do not unfold
the operation. -/

namespace Sys2Proof.Machine

/-! ### Registers -/

theorem setInt_ok {r : Reg} {v : Int} {s t : State} (h : setInt r v s = .ok t) :
    t = s.setReg r (integerWord v) ∧ (renderInt v).length ≤ s.cfg.wordCap := by
  unfold setInt at h
  split at h
  · rename_i w hw
    obtain ⟨rfl, hl⟩ := storeInteger_some hw
    exact ⟨(Except.ok.inj h).symm, hl⟩
  · cases h

theorem setInt_fits {r : Reg} {v : Int} {s : State} (hc : 2 ≤ s.cfg.wordSize) (h : Fits s.cfg v) :
    setInt r v s = .ok (s.setReg r (integerWord v)) := by
  have hl := (renderInt_length_le hc v).mpr h
  simp [setInt, storeInteger?, hl]

theorem setInt_overflow {r : Reg} {v : Int} {s : State} (hc : 2 ≤ s.cfg.wordSize) (h : ¬ Fits s.cfg v) :
    setInt r v s = .error (.wordOverflow v) := by
  have hl : ¬ (renderInt v).length ≤ s.cfg.wordCap := fun hl => h ((renderInt_length_le hc v).mp hl)
  simp [setInt, storeInteger?, hl]

/-- A raise of store_integer is a WordOverflow, whatever the configuration. -/
theorem setInt_error {r : Reg} {v : Int} {s : State} {e : Exn} (h : setInt r v s = .error e) :
    e = .wordOverflow v := by
  unfold setInt at h
  split at h
  · cases h
  · exact (Except.error.inj h).symm

/-- A register holds the canonical text of an integer when its Word is that text: its reading follows. -/
theorem holdsInt_iff {s : State} {r : Reg} {v : Int} : HoldsInt s r v ↔ s.reg r = integerWord v :=
  ⟨fun h => h.1, fun h => ⟨h, by rw [State.xi, h, asInteger_integerWord]⟩⟩

/-- What `x[r] <-i v` leaves in the register it writes. -/
theorem setInt_holds {r : Reg} {v : Int} {s t : State} (h : setInt r v s = .ok t) : HoldsInt t r v := by
  obtain ⟨rfl, -⟩ := setInt_ok h
  simp [holdsInt_iff]

/-! ### Physical access and translation -/

theorem physRead_ok {pa : Int} {s : State} {w : Word} (h : physRead pa s = .ok w) :
    s.inMemory pa ∧ w = s.mem.read pa.toNat := by
  unfold physRead at h
  split at h
  · exact ⟨‹_›, (Except.ok.inj h).symm⟩
  · cases h

theorem physWrite_ok {pa : Int} {w : Word} {s t : State} (h : physWrite pa w s = .ok t) :
    s.inMemory pa ∧ t = { s with mem := s.mem.write pa.toNat w } := by
  unfold physWrite at h
  split at h
  · exact ⟨‹_›, (Except.ok.inj h).symm⟩
  · cases h

@[simp] theorem translate_kernel (va : Int) (fw : Bool) (s : State) : translateAddr .kernel va fw s = .ok va := rfl

theorem physRead_congr {s t : State} (hc : t.cfg = s.cfg) (hm : t.mem = s.mem) (a : Int) :
    physRead a t = physRead a s := by
  by_cases h : s.inMemory a
  · have h' : t.inMemory a := by simpa only [State.inMemory, hc] using h
    simp only [physRead, if_pos h, if_pos h', hm]
  · have h' : ¬ t.inMemory a := by simpa only [State.inMemory, hc] using h
    simp only [physRead, if_neg h, if_neg h']

/-- Translation reads PTBR, PTLR, the memory and the configuration, nothing else (R77). -/
theorem translate_congr {m : Mode} {va : Int} {fw : Bool} {s t : State} (hc : t.cfg = s.cfg)
    (hm : t.mem = s.mem) (hb : t.reg .ptbr = s.reg .ptbr) (hl : t.reg .ptlr = s.reg .ptlr) :
    translateAddr m va fw t = translateAddr m va fw s := by
  have hp : ∀ a, physRead a t = physRead a s := fun a => physRead_congr hc hm a
  have hxb : t.xi .ptbr = s.xi .ptbr := congrArg asInteger hb
  have hxl : t.xi .ptlr = s.xi .ptlr := congrArg asInteger hl
  cases m
  · rfl
  · simp only [translateAddr, translateUser, hp, hxb, hxl, hc]

theorem memRead_ok {va : Int} {s : State} {w : Word} (h : memRead va s = .ok w) :
    ∃ pa, translateAddr s.mode va false s = .ok pa ∧ s.inMemory pa ∧ w = s.mem.read pa.toNat := by
  unfold memRead at h
  split at h
  · cases h
  · rename_i pa hpa
    exact ⟨pa, hpa, physRead_ok h⟩

theorem memWrite_ok {va : Int} {w : Word} {s t : State} (h : memWrite va w s = .ok t) :
    ∃ pa, translateAddr s.mode va true s = .ok pa ∧ s.inMemory pa ∧ t = { s with mem := s.mem.write pa.toNat w } := by
  unfold memWrite at h
  split at h
  · cases h
  · rename_i pa hpa
    exact ⟨pa, hpa, physWrite_ok h⟩

theorem memRead_of {va pa : Int} {s : State} (ht : translateAddr s.mode va false s = .ok pa) (hp : s.inMemory pa) :
    memRead va s = .ok (s.mem.read pa.toNat) := by
  simp only [memRead, ht, physRead, if_pos hp]

theorem memWrite_of {va pa : Int} {w : Word} {s : State} (ht : translateAddr s.mode va true s = .ok pa)
    (hp : s.inMemory pa) : memWrite va w s = .ok { s with mem := s.mem.write pa.toNat w } := by
  simp only [memWrite, ht, physWrite, if_pos hp]

/-! ### The stack -/

theorem pushWord_ok {w : Word} {s t : State} (h : pushWord w s = .ok t) :
    ∃ pa, translateAddr s.mode (s.xi .sp + 1) true s = .ok pa ∧ s.inMemory pa ∧
      (renderInt (s.xi .sp + 1)).length ≤ s.cfg.wordCap ∧
      t = ({ s with mem := s.mem.write pa.toNat w } : State).setReg .sp (integerWord (s.xi .sp + 1)) := by
  unfold pushWord at h
  split at h
  · cases h
  · rename_i u hu
    obtain ⟨pa, ht, hp, rfl⟩ := memWrite_ok hu
    obtain ⟨rfl, hl⟩ := setInt_ok h
    exact ⟨pa, ht, hp, hl, rfl⟩

theorem pushWord_of {w : Word} {s : State} {pa : Int} (hc : 2 ≤ s.cfg.wordSize)
    (ht : translateAddr s.mode (s.xi .sp + 1) true s = .ok pa) (hp : s.inMemory pa) (hf : Fits s.cfg (s.xi .sp + 1)) :
    pushWord w s =
      .ok (({ s with mem := s.mem.write pa.toNat w } : State).setReg .sp (integerWord (s.xi .sp + 1))) := by
  simp only [pushWord, memWrite_of ht hp]
  exact setInt_fits hc hf

theorem popWord_ok {s t : State} {w : Word} (h : popWord s = .ok (w, t)) :
    ∃ pa, translateAddr s.mode (s.xi .sp) false s = .ok pa ∧ s.inMemory pa ∧ w = s.mem.read pa.toNat ∧
      (renderInt (s.xi .sp - 1)).length ≤ s.cfg.wordCap ∧ t = s.setReg .sp (integerWord (s.xi .sp - 1)) := by
  unfold popWord at h
  split at h
  · cases h
  · rename_i v hv
    obtain ⟨pa, ht, hp, rfl⟩ := memRead_ok hv
    split at h
    · cases h
    · rename_i u hu
      obtain ⟨rfl, hl⟩ := setInt_ok hu
      obtain ⟨rfl, rfl⟩ := Prod.mk.inj (Except.ok.inj h)
      exact ⟨pa, ht, hp, rfl, hl, rfl⟩

theorem popInto_ok {r : Reg} {s t : State} (h : popInto r s = .ok t) :
    ∃ pa, translateAddr s.mode (s.xi .sp) false s = .ok pa ∧ s.inMemory pa ∧
      (renderInt (s.xi .sp - 1)).length ≤ s.cfg.wordCap ∧
      t = (s.setReg .sp (integerWord (s.xi .sp - 1))).setReg r (s.mem.read pa.toNat) := by
  unfold popInto at h
  split at h
  · cases h
  · rename_i w u hu
    obtain ⟨pa, ht, hp, rfl, hl, rfl⟩ := popWord_ok hu
    exact ⟨pa, ht, hp, hl, (Except.ok.inj h).symm⟩

theorem popInto_of {r : Reg} {s : State} {pa : Int} (hc : 2 ≤ s.cfg.wordSize)
    (ht : translateAddr s.mode (s.xi .sp) false s = .ok pa) (hp : s.inMemory pa) (hf : Fits s.cfg (s.xi .sp - 1)) :
    popInto r s = .ok ((s.setReg .sp (integerWord (s.xi .sp - 1))).setReg r (s.mem.read pa.toNat)) := by
  simp only [popInto, popWord, memRead_of ht hp, setInt_fits hc hf]

/-! ### Jumps, trap entry, return -/

theorem jumpTo_ok {target : Int} {s t : State} (h : jumpTo target s = .ok t) :
    ∃ pa, translateAddr s.mode target false s = .ok pa ∧ (renderInt pa).length ≤ s.cfg.wordCap ∧
      t = s.setReg .ip (integerWord pa) := by
  unfold jumpTo at h
  split at h
  · cases h
  · rename_i pa hpa
    obtain ⟨rfl, hl⟩ := setInt_ok h
    exact ⟨pa, hpa, hl, rfl⟩

theorem trapEntry_ok {n : Nat} {s t : State} (h : trapEntry n s = .ok t) :
    ∃ pa, translateAddr s.mode (s.xi .sp + 1) true s = .ok pa ∧ s.inMemory pa ∧
      (renderInt (s.xi .sp + 1)).length ≤ s.cfg.wordCap ∧
      (renderInt (vector s.cfg n)).length ≤ s.cfg.wordCap ∧
      t = State.setReg
        { (({ s with mem := s.mem.write pa.toNat (s.reg .ip) } : State).setReg .sp
            (integerWord (s.xi .sp + 1))) with mode := .kernel } .ip (integerWord (vector s.cfg n)) := by
  unfold trapEntry at h
  split at h
  · cases h
  · rename_i u hu
    obtain ⟨pa, ht, hp, hl, rfl⟩ := pushWord_ok hu
    obtain ⟨rfl, hv⟩ := setInt_ok h
    exact ⟨pa, ht, hp, hl, hv, rfl⟩

theorem returnFromTrap_ok {s t : State} (h : returnFromTrap s = .ok t) :
    ∃ pa, translateAddr .user (s.xi .sp) false s = .ok pa ∧ s.inMemory pa ∧
      (renderInt (s.xi .sp - 1)).length ≤ s.cfg.wordCap ∧
      t = (({ s with mode := .user } : State).setReg .sp (integerWord (s.xi .sp - 1))).setReg .ip
        (s.mem.read pa.toNat) := by
  obtain ⟨pa, ht, hp, hl, rfl⟩ := popInto_ok h
  have hcongr : translateAddr .user (s.xi .sp) false { s with mode := .user } = translateAddr .user (s.xi .sp) false s :=
    translate_congr rfl rfl rfl rfl
  exact ⟨pa, hcongr ▸ ht, hp, hl, rfl⟩

/-! ### The delivery of a fault -/

/-- The exception registers are all that `writeExceptionRegs` writes (R280). -/
theorem writeExceptionRegs_reg (e : Exn) (ia : Int) (s : State) {r : Reg}
    (h : r ∉ [Reg.eip, Reg.ec, Reg.epn, Reg.ema]) : (writeExceptionRegs e ia s).reg r = s.reg r := by
  simp only [List.mem_cons, List.not_mem_nil, or_false, not_or] at h
  cases e <;> simp [writeExceptionRegs, reg_putClamped, h]

/-- Everything but the registers is as before `writeExceptionRegs`. -/
theorem writeExceptionRegs_frame (e : Exn) (ia : Int) (s : State) :
    ∃ regs, writeExceptionRegs e ia s = { s with regs := regs } := by
  cases e <;> exact ⟨_, rfl⟩

/-- What the delivery of a fault can be (R279, R281, R282). -/
theorem deliverFault_cases (e : Exn) (ia : Int) (s : State) :
    (s.mode = .kernel ∧ deliverFault e ia s = crash (.fault e.kind) s) ∨
    (s.mode = .user ∧ ∃ t, trapEntry Config.exceptionNumber (writeExceptionRegs e ia s) = .ok t ∧
      deliverFault e ia s = t) ∨
    (s.mode = .user ∧ deliverFault e ia s = crash .doubleFault (writeExceptionRegs e ia s)) := by
  unfold deliverFault
  split
  · exact .inl ⟨‹_›, rfl⟩
  · split
    · exact .inr (.inl ⟨‹_›, _, ‹_›, rfl⟩)
    · exact .inr (.inr ⟨‹_›, rfl⟩)

/-- An instruction's answer: the state its pseudocode gives, or the delivery of the fault it raised to the state it
began in (R150). -/
theorem commit_next {s t : State} {body : Except Exn State} (h : commit s body = .next t) :
    body = .ok t ∨ ∃ e, body = .error e ∧ t = deliverFault e s.currentInstr s := by
  unfold commit at h
  split at h
  · exact .inl (by rw [Host.Outcome.next.inj h])
  · exact .inr ⟨_, rfl, (Host.Outcome.next.inj h).symm⟩

theorem commit_ok {s t : State} {body : Except Exn State} (h : body = .ok t) : commit s body = .next t := by
  subst h; rfl

theorem commit_error {s : State} {body : Except Exn State} {e : Exn} (h : body = .error e) :
    commit s body = .next (deliverFault e s.currentInstr s) := by
  subst h; rfl

/-! ### Operands, the disk, the console -/

theorem valOf_ok {o : Src} {s : State} {w : Word} (h : valOf o s = .ok w) :
    (∃ r, o = .reg r ∧ w = s.reg r) ∨
    (∃ v, o = .int v ∧ w = integerWord v ∧ (renderInt v).length ≤ s.cfg.wordCap) ∨
    (∃ t, o = .str t ∧ w = ⟨t⟩ ∧ t.length ≤ s.cfg.wordCap) ∨
    (∃ b off pa, o = .mem b off ∧ translateAddr s.mode (effAddr b off s) false s = .ok pa ∧ s.inMemory pa ∧
      w = s.mem.read pa.toNat) := by
  cases o with
  | reg r => exact .inl ⟨r, rfl, (Except.ok.inj h).symm⟩
  | int v =>
    simp only [valOf] at h
    split at h
    · rename_i x hx
      obtain ⟨rfl, hl⟩ := storeInteger_some hx
      exact .inr (.inl ⟨v, rfl, (Except.ok.inj h).symm, hl⟩)
    · cases h
  | str t =>
    simp only [valOf, storeString?] at h
    by_cases hl : t.length ≤ s.cfg.wordCap
    · rw [if_pos hl] at h
      exact .inr (.inr (.inl ⟨t, rfl, (Except.ok.inj h).symm, hl⟩))
    · rw [if_neg hl] at h
      cases h
  | mem b off =>
    obtain ⟨pa, ht, hp, hw⟩ := memRead_ok h
    exact .inr (.inr (.inr ⟨b, off, pa, rfl, ht, hp, hw⟩))

theorem writeTo_ok {d : Dst} {w : Word} {s t : State} (h : writeTo d w s = .ok t) :
    (∃ r, d = .reg r ∧ t = s.setReg r w) ∨
    (∃ b off pa, d = .mem b off ∧ translateAddr s.mode (effAddr b off s) true s = .ok pa ∧ s.inMemory pa ∧
      t = { s with mem := s.mem.write pa.toNat w }) := by
  cases d with
  | reg r => exact .inl ⟨r, rfl, (Except.ok.inj h).symm⟩
  | mem b off =>
    obtain ⟨pa, ht, hp, hw⟩ := memWrite_ok h
    exact .inr ⟨b, off, pa, rfl, ht, hp, hw⟩

theorem moveWord_ok {d : Dst} {o : Src} {s t : State} (h : moveWord d o s = .ok t) :
    ∃ w, valOf o s = .ok w ∧ writeTo d w s = .ok t := by
  unfold moveWord at h
  split at h
  · cases h
  · exact ⟨_, ‹_›, h⟩

theorem divideInto_ok {op : Int → Int → Int} {ra : Reg} {b : RegInt} {s t : State}
    (h : divideInto op ra b s = .ok t) : intOf b s ≠ 0 ∧ setInt ra (op (s.xi ra) (intOf b s)) s = .ok t := by
  unfold divideInto at h
  split at h
  · cases h
  · exact ⟨‹_›, h⟩

theorem jumpWhen_ok {taken : Bool} {target : Int} {s t : State} (h : jumpWhen taken target s = .ok t) :
    (taken = true ∧ jumpTo target s = .ok t) ∨ (taken = false ∧ t = s) := by
  cases taken
  · exact .inr ⟨rfl, (Except.ok.inj h).symm⟩
  · exact .inl ⟨rfl, h⟩

theorem callTo_ok {target : Int} {s t : State} (h : callTo target s = .ok t) :
    ∃ u, pushWord (s.reg .ip) s = .ok u ∧ jumpTo target u = .ok t := by
  unfold callTo at h
  split at h
  · cases h
  · exact ⟨_, ‹_›, h⟩

theorem softwareInterrupt_ok {n : Int} {s t : State} (h : softwareInterrupt n s = .ok t) :
    (0 ≤ n ∧ n ≤ 18) ∧ trapEntry n.toNat s = .ok t := by
  unfold softwareInterrupt interruptAddress at h
  by_cases hn : 0 ≤ n ∧ n ≤ Config.lastInterrupt
  · rw [if_pos hn] at h
    exact ⟨by simpa [Config.lastInterrupt] using hn, h⟩
  · rw [if_neg hn] at h
    cases h

theorem validateTransfer_ok {p b : Int} {s : State} {q : Nat × Nat} (h : validateTransfer p b s = .ok q) :
    q = (p.toNat, b.toNat) ∧ (0 ≤ p ∧ p < s.cfg.numPages) ∧ (0 ≤ b ∧ b < s.cfg.numBlocks) := by
  unfold validateTransfer at h
  split at h
  · cases h
  · split at h
    · cases h
    · exact ⟨(Except.ok.inj h).symm, by omega, by omega⟩

/-- A request changes the device record alone, and only when the disk is idle (R246, R247). -/
theorem issueDisk_cases (op : DiskOp) (p b : Nat) (s : State) :
    (s.disk.isSome = true ∧ issueDisk op p b s = s) ∨
    (s.disk = none ∧ issueDisk op p b s = { s with disk := some ⟨s.cfg.diskLatency, op, p, b⟩ }) := by
  unfold issueDisk
  split
  · rename_i r h; exact .inl ⟨by simp [h], rfl⟩
  · rename_i h; exact .inr ⟨h, rfl⟩

/-- A request changes the device record alone, and only when the console is idle (R260). -/
theorem issueConsole_cases (op : ConsoleOp) (s : State) :
    (s.console.isSome = true ∧ issueConsole op s = s) ∨
    (s.console = none ∧ issueConsole op s = { s with console := some ⟨s.cfg.consoleLatency, op⟩ }) := by
  unfold issueConsole
  split
  · rename_i r h; exact .inl ⟨by simp [h], rfl⟩
  · rename_i h; exact .inr ⟨h, rfl⟩

/-- The debugger hook changes nothing (R322). -/
@[simp] theorem callDebugHook_eq (a : Int) (s : State) : callDebugHook a s = s := by
  simp [callDebugHook, debugHook]

/-! ### The post-execute phase -/

theorem timerTick_cases (s : State) :
    (s.cfg.timerInterval ≤ 0 ∧ timerTick s = s) ∨
    (0 < s.cfg.timerInterval ∧ s.timer ≤ 1 ∧
      timerTick s = { s with timer := s.cfg.timerInterval, timerPending := true }) ∨
    (0 < s.cfg.timerInterval ∧ 1 < s.timer ∧ timerTick s = { s with timer := s.timer - 1 }) := by
  unfold timerTick
  split
  · split
    · exact .inr (.inl ⟨by omega, by omega, rfl⟩)
    · exact .inr (.inr ⟨by omega, by omega, rfl⟩)
  · exact .inl ⟨by omega, rfl⟩

theorem diskTick_cases (s : State) :
    (s.disk = none ∧ diskTick s = s) ∨
    (∃ r, s.disk = some r ∧ 0 < r.remaining ∧
      diskTick s = { s with disk := some { r with remaining := r.remaining - 1 } }) ∨
    (∃ r, s.disk = some r ∧ r.remaining = 0 ∧
      diskTick s = { transfer r s with disk := none, diskPending := true }) := by
  unfold diskTick
  split
  · exact .inl ⟨‹_›, rfl⟩
  · rename_i r h
    split
    · exact .inr (.inl ⟨r, h, ‹_›, rfl⟩)
    · exact .inr (.inr ⟨r, h, by omega, rfl⟩)

theorem consoleTick_cases (s : State) :
    (s.console = none ∧ consoleTick s = s) ∨
    (∃ r, s.console = some r ∧ 0 < r.remaining ∧
      consoleTick s = { s with console := some { r with remaining := r.remaining - 1 } }) ∨
    (∃ r, s.console = some r ∧ r.remaining = 0 ∧
      consoleTick s = { consoleTransfer r.op s with console := none, consolePending := true }) := by
  unfold consoleTick
  split
  · exact .inl ⟨‹_›, rfl⟩
  · rename_i r h
    split
    · exact .inr (.inl ⟨r, h, ‹_›, rfl⟩)
    · exact .inr (.inr ⟨r, h, by omega, rfl⟩)

/-- What the delivery of an interrupt can be (R303, R282). -/
theorem deliverInterrupt_cases (s : State) :
    ((s.mode = .kernel ∨ pendingSource s = none) ∧ deliverInterrupt s = s) ∨
    (∃ src, s.mode = .user ∧ pendingSource s = some src ∧
      ((∃ t, trapEntry src.number s = .ok t ∧ deliverInterrupt s = clearLatch src t) ∨
       (∃ e, trapEntry src.number s = .error e ∧ deliverInterrupt s = crash .doubleFault s))) := by
  unfold deliverInterrupt
  cases hm : s.mode with
  | kernel => exact .inl ⟨.inl rfl, rfl⟩
  | user =>
    cases hp : pendingSource s with
    | none => exact .inl ⟨.inr rfl, rfl⟩
    | some src =>
      refine .inr ⟨src, rfl, rfl, ?_⟩
      cases ht : trapEntry src.number s with
      | ok t => exact .inl ⟨t, rfl, by simp [ht]⟩
      | error e => exact .inr ⟨e, rfl, by simp [ht]⟩

/-- The end of a cycle: nothing after HALT or a crash, else the post-execute phase (R140, R299). -/
theorem finishCycle_cases (before after : State) :
    (after.status = .running ∧ finishCycle before after =
      postExecute (issuedDisk before after) (issuedConsole before after) after) ∨
    (after.status ≠ .running ∧ finishCycle before after = after) := by
  unfold finishCycle
  split
  · exact .inl ⟨‹_›, rfl⟩
  · exact .inr ⟨by assumption, rfl⟩

/-! ### The step -/

/-- What one step can be (R140): the one inversion lemma of the step function. -/
theorem step_next {s t : State} (h : step s = .next t) :
    s.status = .running ∧
    ((∃ e, fetch s = .error e ∧ t = finishCycle s (deliverFault e (s.xi .ip) s)) ∨
     (∃ text e, fetch s = .ok text ∧ advance s = .error e ∧ t = finishCycle s (deliverFault e (s.xi .ip) s)) ∨
     (∃ text s1 e, fetch s = .ok text ∧ advance s = .ok s1 ∧ decode text = .error e ∧
        t = finishCycle s1 (deliverFault (decodeFault e) (s.xi .ip) s1)) ∨
     (∃ text s1 i u, fetch s = .ok text ∧ advance s = .ok s1 ∧ decode text = .ok i ∧ exec i s1 = .next u ∧
        t = finishCycle s1 u)) := by
  unfold step at h
  split at h
  · cases h
  · cases h
  · refine ⟨‹_›, ?_⟩
    simp only [callDebugHook_eq, faultCycle] at h
    split at h
    · exact .inl ⟨_, ‹_›, (Host.Outcome.next.inj h).symm⟩
    · split at h
      · exact .inr (.inl ⟨_, _, ‹_›, ‹_›, (Host.Outcome.next.inj h).symm⟩)
      · split at h
        · exact .inr (.inr (.inl ⟨_, _, _, ‹_›, ‹_›, ‹_›, (Host.Outcome.next.inj h).symm⟩))
        · rename_i i hi
          unfold completeCycle at h
          split at h
          · exact .inr (.inr (.inr ⟨_, _, i, _, ‹_›, ‹_›, ‹_›, ‹_›, (Host.Outcome.next.inj h).symm⟩))
          · cases h
          · cases h

end Sys2Proof.Machine
end

