-- ==== Sys2Proof/Laws/PerInstr.lean ====
section
/-! SUPPORT. The family BuildsBack: the opcode map's row of an instruction's keyword builds that instruction from its
operands (level 2 of spec/30_encoding.md R101, R120). -/

namespace Sys2Proof.Laws.BuildsBack

/-- The row that the instruction's keyword finds exists, and it makes the instruction of the instruction's operands. -/
def Statement (i : Instr) : Prop :=
  ∃ build, builderOf i.keyword = some build ∧ build i.rawOperands = .ok i

theorem mov (d : Dst) (o : Src) : Statement (.mov d o) :=
  ⟨_, rfl, shapeMove_raw _ d o⟩

theorem port (d : Dst) (o : Src) : Statement (.port d o) :=
  ⟨_, rfl, shapeMove_raw _ d o⟩

theorem add (a : Reg) (b : RegInt) : Statement (.add a b) :=
  ⟨_, rfl, shapeRRi_raw _ a b⟩

theorem sub (a : Reg) (b : RegInt) : Statement (.sub a b) :=
  ⟨_, rfl, shapeRRi_raw _ a b⟩

theorem mul (a : Reg) (b : RegInt) : Statement (.mul a b) :=
  ⟨_, rfl, shapeRRi_raw _ a b⟩

theorem div (a : Reg) (b : RegInt) : Statement (.div a b) :=
  ⟨_, rfl, shapeRRi_raw _ a b⟩

theorem mod (a : Reg) (b : RegInt) : Statement (.mod a b) :=
  ⟨_, rfl, shapeRRi_raw _ a b⟩

theorem inr (a : Reg) : Statement (.inr a) :=
  ⟨_, rfl, shapeR_name _ a⟩

theorem dcr (a : Reg) : Statement (.dcr a) :=
  ⟨_, rfl, shapeR_name _ a⟩

theorem lt (a b : Reg) : Statement (.lt a b) :=
  ⟨_, rfl, shapeRR_name _ a b⟩

theorem gt (a b : Reg) : Statement (.gt a b) :=
  ⟨_, rfl, shapeRR_name _ a b⟩

theorem eq (a b : Reg) : Statement (.eq a b) :=
  ⟨_, rfl, shapeRR_name _ a b⟩

theorem ne (a b : Reg) : Statement (.ne a b) :=
  ⟨_, rfl, shapeRR_name _ a b⟩

theorem ge (a b : Reg) : Statement (.ge a b) :=
  ⟨_, rfl, shapeRR_name _ a b⟩

theorem le (a b : Reg) : Statement (.le a b) :=
  ⟨_, rfl, shapeRR_name _ a b⟩

theorem jz (a : Reg) (t : Int) : Statement (.jz a t) :=
  ⟨_, rfl, shapeRI_name _ a t⟩

theorem jnz (a : Reg) (t : Int) : Statement (.jnz a t) :=
  ⟨_, rfl, shapeRI_name _ a t⟩

theorem jmp (t : Int) : Statement (.jmp t) :=
  ⟨_, rfl, rfl⟩

theorem push (a : Reg) : Statement (.push a) :=
  ⟨_, rfl, shapeR_name _ a⟩

theorem pop (a : Reg) : Statement (.pop a) :=
  ⟨_, rfl, shapeR_name _ a⟩

theorem call (t : Int) : Statement (.call t) :=
  ⟨_, rfl, rfl⟩

theorem ret : Statement (.ret) :=
  ⟨_, rfl, rfl⟩

theorem backup : Statement (.backup) :=
  ⟨_, rfl, rfl⟩

theorem restore : Statement (.restore) :=
  ⟨_, rfl, rfl⟩

theorem int (n : Int) : Statement (.int n) :=
  ⟨_, rfl, rfl⟩

theorem iret : Statement (.iret) :=
  ⟨_, rfl, rfl⟩

theorem loadi (p b : RegInt) : Statement (.loadi p b) :=
  ⟨_, rfl, shapeRiRi_raw _ p b⟩

theorem load (p b : RegInt) : Statement (.load p b) :=
  ⟨_, rfl, shapeRiRi_raw _ p b⟩

theorem store (p b : RegInt) : Statement (.store p b) :=
  ⟨_, rfl, shapeRiRi_raw _ p b⟩

theorem encrypt (a : Reg) : Statement (.encrypt a) :=
  ⟨_, rfl, shapeR_name _ a⟩

theorem inp : Statement (.inp) :=
  ⟨_, rfl, rfl⟩

theorem ini : Statement (.ini) :=
  ⟨_, rfl, rfl⟩

theorem out : Statement (.out) :=
  ⟨_, rfl, rfl⟩

theorem brkp : Statement (.brkp) :=
  ⟨_, rfl, rfl⟩

theorem halt : Statement (.halt) :=
  ⟨_, rfl, rfl⟩

end Sys2Proof.Laws.BuildsBack
end

