-- ==== Sys2Proof/Tests/Slice0.lean ====
section
/-! SUPPORT. Tests. `test_…` theorems: expected results from spec/95_test_vectors.md, or worked out by hand from the
rule named. `witness_…` theorems: for each obligation with hypotheses, a state and operands that meet them together. -/

namespace Sys2Proof.Tests

open Sys2Proof.Machine

set_option maxRecDepth 20000

/-! ### Helpers -/

/-- A state with the standard parameters and the listed registers and memory Words. -/
def state (m : Mode) (regs : List (Reg × String)) (mem : List (Nat × String)) : State :=
  let s := regs.foldl (fun s e => s.setReg e.1 (Word.ofString e.2)) { State.reset with mode := m }
  { s with mem := mem.foldl (fun m e => m.write e.1 (Word.ofString e.2)) s.mem }

/-- Kernel mode, the instruction at 100 (95_test_vectors.md, conventions). -/
def kern (regs : List (Reg × String)) (mem : List (Nat × String)) : State := state .kernel ((.ip, "100") :: regs) mem

/-- The standard User context "ctx U", code at physical 10240. -/
def user (regs : List (Reg × String)) (mem : List (Nat × String)) : State :=
  state .user
    ([(.ip, "10240"), (.ptbr, "3000"), (.ptlr, "2"), (.sp, "599"), (.eip, "e"), (.ec, "e"), (.epn, "e"), (.ema, "e")]
      ++ regs)
    ([(3000, "20"), (3001, "0100"), (3002, "21"), (3003, "0110")] ++ mem)

/-- The state a step leads to; the same state where it leads nowhere. -/
def stepped (s : State) : State :=
  match step s with
  | .next t => t
  | _ => s

/-- Whether a step leads somewhere. -/
def goesOn (s : State) : Bool :=
  match step s with
  | .next _ => true
  | _ => false

theorem step_stepped {s : State} (h : goesOn s = true) : step s = .next (stepped s) := by
  unfold goesOn at h
  unfold stepped
  split at h
  · rename_i t ht
    rw [ht]
  · cases h

/-- A text stored in the slot at IP. -/
def withText (text : String) (s : State) : State :=
  placeWords s (s.xi .ip) (cutWords s.cfg.wordCap s.cfg.instrSize text.toList)

/-- One cycle of the instruction with this text. -/
def after (text : String) (s : State) : State := stepped (withText text s)

/-- Whether the listed registers and memory Words are as written. -/
def shows (t : State) (regs : List (Reg × String)) (mem : List (Nat × String)) : Bool :=
  (regs.all fun e => t.reg e.1 == Word.ofString e.2) && mem.all fun e => t.mem.read e.1 == Word.ofString e.2

/-- Whether one cycle of a text crashes the machine with this kind and changes no register but IP. -/
def crashes (text : String) (s : State) (k : CrashKind) : Bool :=
  let t := after text s
  t.status == .crashed k && (Reg.all.filter fun r => r != .ip).all fun r => t.reg r == s.reg r

/-! ### Encoding (95_test_vectors.md 2.3, 30_encoding.md R120) -/

theorem test_decode_move :
    decode "MOV R0,5".toList = .ok (.mov (.reg (.r 0)) (.int 5)) ∧
    decode "MOV R0 , \"a,b]\"".toList = .ok (.mov (.reg (.r 0)) (.str "a,b]".toList)) ∧
    decode "MOV [1024+8], \"\"".toList = .ok (.mov (.mem (.int 1024) 8) (.str [])) ∧
    decode "MOV [R1-4], -0".toList = .ok (.mov (.mem (.reg (.r 1)) (-4)) (.int 0)) ∧
    decode "MOV [R1 4], R0".toList = .ok (.mov (.mem (.reg (.r 1)) 4) (.reg (.r 0))) ∧
    decode "MOV [SP], [BP]".toList = .ok (.mov (.mem (.reg .sp) 0) (.mem (.reg .bp) 0)) ∧
    decode "PORT R3, P0".toList = .ok (.port (.reg (.r 3)) (.reg (.p 0))) ∧
    decode "PORT Ptbr, 1".toList = .ok (.port (.reg .ptbr) (.int 1)) := by decide

theorem test_decode_arithmetic :
    decode "ADD R0, R1".toList = .ok (.add (.r 0) (.reg (.r 1))) ∧
    decode "SUB R6, 2".toList = .ok (.sub (.r 6) (.int 2)) ∧
    decode "MUL R1, 6".toList = .ok (.mul (.r 1) (.int 6)) ∧
    decode "DIV R0, R1".toList = .ok (.div (.r 0) (.reg (.r 1))) ∧
    decode "MOD R0, -1".toList = .ok (.mod (.r 0) (.int (-1))) ∧
    decode "INR R1".toList = .ok (.inr (.r 1)) ∧ decode "DCR R19".toList = .ok (.dcr (.r 19)) := by decide

theorem test_decode_comparison :
    decode "LT R0, R1".toList = .ok (.lt (.r 0) (.r 1)) ∧ decode "GT R2, R3".toList = .ok (.gt (.r 2) (.r 3)) ∧
    decode "EQ R4, R5".toList = .ok (.eq (.r 4) (.r 5)) ∧ decode "NE R6, R7".toList = .ok (.ne (.r 6) (.r 7)) ∧
    decode "GE P1, SP".toList = .ok (.ge (.p 1) .sp) ∧ decode "LE EC, EPN".toList = .ok (.le .ec .epn) := by decide

theorem test_decode_control :
    decode "JZ R1, 12".toList = .ok (.jz (.r 1) 12) ∧ decode "JNZ R1, 40".toList = .ok (.jnz (.r 1) 40) ∧
    decode "JMP +12".toList = .ok (.jmp 12) ∧ decode "JMP 007".toList = .ok (.jmp 7) ∧
    decode "CALL -6".toList = .ok (.call (-6)) ∧ decode "RET".toList = .ok .ret ∧
    decode "INT 7".toList = .ok (.int 7) ∧ decode "IRET".toList = .ok .iret := by decide

theorem test_decode_stack :
    decode "PUSH R0".toList = .ok (.push (.r 0)) ∧ decode "POP EIP".toList = .ok (.pop .eip) ∧
    decode "BACKUP".toList = .ok .backup ∧ decode "RESTORE".toList = .ok .restore := by decide

theorem test_decode_devices :
    decode "LOADI R1, 5".toList = .ok (.loadi (.reg (.r 1)) (.int 5)) ∧
    decode "LOAD 3, R2".toList = .ok (.load (.int 3) (.reg (.r 2))) ∧
    decode "STORE 50, 7".toList = .ok (.store (.int 50) (.int 7)) ∧
    decode "ENCRYPT R0".toList = .ok (.encrypt (.r 0)) ∧ decode "IN".toList = .ok .inp ∧
    decode "INI".toList = .ok .ini ∧ decode "OUT".toList = .ok .out ∧ decode "BRKP".toList = .ok .brkp ∧
    decode "  HALT ".toList = .ok .halt := by decide

theorem test_decode_illegal :
    ["", "   ", "5", "\"HALT\"", ",HALT", "Halt", "mov R0, 1", "MOVE R0, 1", "MOVR0, 5", "NOP", "BLAH R99",
      "HALT5"].all (fun t => decide (decode t.toList = .error .illegalInstruction)) = true := by decide

theorem test_decode_malformed :
    ["MOV", "MOV R0", "MOV R0,, 5", "JZ R1 12", "INR R0 R1", "ADD 5, R0", "LT R0, 5", "JMP R1", "PUSH 5", "INR [R0]",
      "INT R1", "ENCRYPT 5", "STORE \"a\", 1", "HALT R0", "RET,", "IRET 1", "OUT P1", "MOV [], R0", "MOV [[R1]], R0",
      "MOV [\"a\"], R0", "MOV [R1, 4], R0", "MOV [R1+4+2], R0", "MOV R0, \"abc", "MOV R0, 5;", "MOV R0, - 5",
      "ADD R20, \"x\""].all (fun t => decide (decode t.toList = .error .malformedOperand)) = true := by decide

theorem test_decode_unknown_register :
    ["MOV R00, 1", "PUSH R20", "MOV ZR, 1", "MOV PC, 1"].all (fun t =>
      match decode t.toList with
      | .error (.unknownRegister _) => true
      | _ => false) = true ∧
    decode "ADD R20, R21".toList = .error (.unknownRegister "R20".toList) := by decide

/-- The slots of program P3 (95_test_vectors.md part 3). -/
theorem test_encode_slots :
    encode Config.standard (.mov (.mem (.int 3001) 0) (.str "0100".toList)) =
      [Word.ofString "MOV [3001], \"01", Word.ofString "00\""] ∧
    encode Config.standard (.mov (.mem (.int 10840) 0) (.int 10240)) =
      [Word.ofString "MOV [10840], 10", Word.ofString "240"] ∧
    encode Config.standard (.mov (.reg (.r 1)) (.mem (.reg .sp) (-1))) =
      [Word.ofString "MOV R1, [SP-1]", Word.blank] := by decide

/-- What WellFormed refuses: a quote, a byte 0x00 and a character above 0xFF inside a literal (R108, R20). -/
theorem test_ill_formed :
    ¬ (Instr.mov (.reg (.r 0)) (.str ['"'])).WellFormed ∧ ¬ (Instr.port (.reg (.r 0)) (.str ['\x00'])).WellFormed ∧
    ¬ (Instr.mov (.reg (.r 0)) (.str ['λ'])).WellFormed :=
  ⟨fun h => absurd (h _ List.mem_cons_self).2 (by decide),
   fun h => absurd (h _ List.mem_cons_self).1 (by decide),
   fun h => absurd (h _ List.mem_cons_self).1 (by decide)⟩

/-- What Fits refuses: a text of 31 characters in a slot of 30 (R126). -/
theorem test_too_long :
    ¬ (Instr.mov (.reg (.r 0)) (.str "0123456789abcdefghijk".toList)).Fits Config.standard ∧
    (Instr.mov (.reg (.r 0)) (.str "0123456789abcdefghij".toList)).Fits Config.standard := by decide

/-- "RET" is the bytes 52H, 45H, 54H, the first in bits 7..0 (log 7). -/
theorem test_table_word :
    decodeTableWord 24 0x544552 = some .ret ∧ decodeTableWord 0 0 = none ∧
    (State.reset.withFetchWord 24 0x544552).mem.read 0 = Word.ofString "RET" ∧
    stepped (State.reset.withFetchWord 32 0x544C4148) =
      { (State.reset.withFetchWord 32 0x544C4148).setReg .ip (Word.ofString "2") with status := .halted } := by
  decide

/-! ### Words and translation (95_test_vectors.md 2.1, 2.2) -/

theorem test_as_integer :
    ([("42", 42), ("-7", -7), ("+5", 5), ("007", 7), ("-0", 0), ("abc", 0), ("12a", 12), ("-3x", -3), ("", 0), ("-", 0),
      ("+", 0), ("--5", 0), ("1.5", 1), (" 5", 0), ("5 ", 5), ("x1x", 0)] : List (String × Int)).all
        (fun e => asInteger (Word.ofString e.1) == e.2) = true := by decide

theorem test_classify :
    (["42", "-7", "+5", "007", "-0"].all fun t => classify (Word.ofString t) == .integer) = true ∧
    (["abc", "12a", "", "-", "+", "--5", "1.5", " 5", "5 ", "x1x"].all
      fun t => classify (Word.ofString t) == .string) = true := by decide

theorem test_store_integer :
    storeInteger? 15 0 = some (Word.ofString "0") ∧ storeInteger? 15 (-42) = some (Word.ofString "-42") ∧
    storeInteger? 15 999999999999999 = some (Word.ofString "999999999999999") ∧
    storeInteger? 15 1000000000000000 = none ∧
    storeInteger? 15 (-99999999999999) = some (Word.ofString "-99999999999999") ∧
    storeInteger? 15 (-100000000000000) = none := by decide

theorem test_translate :
    translateAddr .kernel (-1) false (user [] []) = .ok (-1) ∧
    translateAddr .user 511 false (user [] []) = .ok 10751 ∧
    translateAddr .user 1023 true (user [] []) = .ok 11263 ∧
    translateAddr .user 8 true (user [] []) = .error (.memoryProtectionFault 8 0) ∧
    translateAddr .user 1024 false (user [] []) = .error (.pageFault 1024 2) ∧
    translateAddr .user (-1) false (user [] []) = .error (.pageFault (-1) (-1)) ∧
    translateAddr .user 600 true (user [] [(3003, "0010")]) = .error (.pageFault 600 1) ∧
    translateAddr .user 600 true (user [] [(3003, "01")]) = .error (.memoryProtectionFault 600 1) ∧
    translateAddr .user 600 false (user [] [(3003, "1")]) = .error (.pageFault 600 1) ∧
    translateAddr .user 600 true (user [] [(3003, "xyz"), (3002, "21abc")]) = .ok 10840 ∧
    translateAddr .user 600 true (user [] [(3002, "junk")]) = .ok 88 ∧
    translateAddr .user 0 false (user [(.ptbr, "65535")] []) = .error (.outOfRange 65536) ∧
    translateAddr .user 600 false (user [(.ptlr, "-3")] []) = .error (.pageFault 600 1) := by decide

/-! ### Instructions (95_test_vectors.md 2.4 to 2.10) -/

theorem test_mov_kernel :
    shows (after "MOV R0, [R1+3]" (kern [(.r 1, "2000")] [(2003, "hi")])) [(.r 0, "hi"), (.ip, "102")] [] = true ∧
    shows (after "MOV R0, 007" (kern [] [])) [(.r 0, "7")] [] = true ∧
    shows (after "MOV R0, \"007\"" (kern [] [])) [(.r 0, "007")] [] = true ∧
    shows (after "MOV [R1], \"x\"" (kern [(.r 1, "abc")] [])) [] [(0, "x")] = true ∧
    crashes "MOV R0, [65536]" (kern [] []) (.fault .outOfRange) = true ∧
    crashes "MOV [70000], 1000000000000000" (kern [] []) (.fault .wordOverflow) = true := by decide

theorem test_mov_user :
    shows (after "MOV R0, [520]" (user [] [(520, "a"), (10760, "b")])) [(.r 0, "b")] [] = true ∧
    shows (after "MOV [520], R0" (user [(.r 0, "v")] [(520, "a")])) [] [(10760, "v"), (520, "a")] = true ∧
    shows (after "MOV [8], R0" (user [(.r 0, "v")] [])) [(.ec, "2"), (.epn, "0"), (.ema, "8"), (.ip, "2048")]
      [(10248, "")] = true := by decide

theorem test_port :
    shows (after "PORT R3, P0" (kern [(.p 0, "42")] [])) [(.r 3, "42"), (.p 0, "42")] [] = true ∧
    crashes "PORT R0, \"0123456789abcdef\"" (kern [] []) (.fault .malformedOperand) = true := by decide

theorem test_add :
    shows (after "ADD R0, R1" (kern [(.r 0, "12a"), (.r 1, "-3x")] [])) [(.r 0, "9"), (.r 1, "-3x")] [] = true ∧
    crashes "ADD R0, 1" (kern [(.r 0, "999999999999999")] []) (.fault .wordOverflow) = true := by decide

theorem test_sub :
    shows (after "SUB R0, R1" (kern [(.r 0, "3"), (.r 1, "10")] [])) [(.r 0, "-7"), (.r 1, "10")] [] = true ∧
    crashes "SUB R0, 1" (kern [(.r 0, "-99999999999999")] []) (.fault .wordOverflow) = true := by decide

theorem test_mul :
    shows (after "MUL R0, 7" (kern [(.r 0, "-6")] [])) [(.r 0, "-42")] [] = true ∧
    crashes "MUL R0, -1" (kern [(.r 0, "999999999999999")] []) (.fault .wordOverflow) = true := by decide

theorem test_div :
    shows (after "DIV R0, R1" (kern [(.r 0, "-10"), (.r 1, "3")] [])) [(.r 0, "-3")] [] = true ∧
    shows (after "DIV R0, 5" (kern [(.r 0, "-2")] [])) [(.r 0, "0")] [] = true ∧
    crashes "DIV R0, R1" (kern [(.r 0, "10"), (.r 1, "abc")] []) (.fault .divisionByZero) = true := by decide

theorem test_mod :
    shows (after "MOD R0, R1" (kern [(.r 0, "-10"), (.r 1, "3")] [])) [(.r 0, "-1")] [] = true ∧
    shows (after "MOD R0, R1" (kern [(.r 0, "10"), (.r 1, "-3")] [])) [(.r 0, "1")] [] = true ∧
    crashes "MOD R0, 0" (kern [(.r 0, "10")] []) (.fault .divisionByZero) = true := by decide

theorem test_inr :
    shows (after "INR R0" (kern [(.r 0, "12a")] [])) [(.r 0, "13")] [] = true ∧
    shows (after "INR R0" (user [(.r 0, "999999999999999")] []))
      [(.r 0, "999999999999999"), (.ec, "3"), (.ip, "2048"), (.sp, "600")] [(10840, "10242")] = true := by decide

theorem test_dcr :
    shows (after "DCR R0" (kern [(.r 0, "+5")] [])) [(.r 0, "4")] [] = true ∧
    shows (after "DCR R0" (kern [(.r 0, "0")] [])) [(.r 0, "-1")] [] = true := by decide

/-- 2.6: the six rows of distinct Words, for each of the six relations. -/
theorem test_comparisons :
    ([("-7", "3", "100101"), ("5", "5", "001011"), ("6", "5", "010110"), ("005", "5x", "001011"),
      ("abc", "xyz", "001011"), ("", "-1", "010110")] : List (String × String × String)).all (fun e =>
        (["LT R0, R1", "GT R0, R1", "EQ R0, R1", "NE R0, R1", "GE R0, R1", "LE R0, R1"].map fun text =>
          asString ((after text (kern [(.r 0, e.1), (.r 1, e.2.1)] [])).reg (.r 0))).flatten == e.2.2.toList)
      = true := by decide

theorem test_jz :
    shows (after "JZ R1, 12" (kern [(.r 1, "-0")] [])) [(.ip, "12")] [] = true ∧
    shows (after "JZ R1, 5000" (user [(.r 1, "7")] [])) [(.ip, "10242")] [] = true := by decide

theorem test_jnz :
    shows (after "JNZ R1, 40" (kern [(.r 1, "5")] [])) [(.ip, "40")] [] = true ∧
    shows (after "JNZ R1, 40" (kern [(.r 1, "str")] [])) [(.ip, "102")] [] = true := by decide

theorem test_jmp :
    shows (after "JMP 513" (user [] [])) [(.ip, "10753")] [] = true ∧
    shows (after "JMP -4" (kern [] [])) [(.ip, "-4")] [] = true ∧
    (stepped (after "JMP -4" (kern [] []))).status = .crashed (.fault .outOfRange) := by decide

theorem test_call :
    shows (after "CALL 14" (kern [(.ip, "6"), (.sp, "1001")] [])) [(.sp, "1002"), (.ip, "14")] [(1002, "8")] = true ∧
    shows (after "CALL 6" (user [] [])) [(.sp, "600"), (.ip, "10246")] [(10840, "10242")] = true := by decide

theorem test_ret :
    shows (after "RET" (kern [(.sp, "1002")] [(1002, "8")])) [(.ip, "8"), (.sp, "1001")] [(1002, "8")] = true ∧
    shows (after "RET" (kern [(.sp, "1002")] [(1002, "abc")])) [(.ip, "abc"), (.sp, "1001")] [] = true := by decide

theorem test_push :
    shows (after "PUSH SP" (kern [(.sp, "1000")] [])) [(.sp, "1001")] [(1001, "1000")] = true ∧
    shows (after "PUSH R0" (kern [(.sp, "abc"), (.r 0, "z")] [])) [(.sp, "1")] [(1, "z")] = true ∧
    crashes "PUSH R0" (kern [(.sp, "65535")] []) (.fault .outOfRange) = true := by decide

theorem test_pop :
    shows (after "POP R1" (kern [(.sp, "1001")] [(1001, "7")])) [(.r 1, "7"), (.sp, "1000")] [(1001, "7")] = true ∧
    shows (after "POP SP" (kern [(.sp, "1001")] [(1001, "77")])) [(.sp, "77")] [] = true := by decide

/-- Vector K1's start: BP, PTBR, PTLR and Rk = "vk". -/
def contextState : State :=
  kern ([(.sp, "5000"), (.bp, "b"), (.ptbr, "3000"), (.ptlr, "2")] ++
    (List.finRange 20).map fun n => (Reg.r n, "v" ++ String.ofList (renderNat n.val))) []

theorem test_backup :
    shows (after "BACKUP" contextState) [(.sp, "5023"), (.bp, "b"), (.r 19, "v19")]
      [(5000, ""), (5001, "b"), (5002, "3000"), (5003, "2"), (5004, "v0"), (5013, "v9"), (5023, "v19"), (5024, "")]
      = true ∧
    shows (after "BACKUP" (user [(.sp, "1010"), (.bp, "b")] []))
      [(.sp, "1011"), (.ec, "0"), (.epn, "2"), (.ema, "1024"), (.ip, "2048")] [(11251, "10242"), (11252, "")]
      = true := by decide

/-- K1's second half: after mutations, RESTORE brings the 23 registers back. -/
theorem test_restore :
    let s := after "BACKUP" contextState
    let mutated := [Reg.r 0, .bp, .ptbr, .ptlr, .r 19].foldl (fun s r => s.setReg r (Word.ofString "0")) s
    let t := after "RESTORE" mutated
    (contextRegs.all fun r => t.reg r == contextState.reg r) = true ∧ t.reg .sp = Word.ofString "5000" := by decide

theorem test_int :
    shows (after "INT 7" (user [(.ip, "10244")] [])) [(.sp, "600"), (.ip, "9216"), (.eip, "e")] [(10840, "10246")]
      = true ∧
    (after "INT 7" (user [(.ip, "10244")] [])).mode = .kernel ∧
    shows (after "INT 18" (kern [(.sp, "500")] [])) [(.sp, "501"), (.ip, "20480")] [(501, "102")] = true ∧
    crashes "INT 19" (kern [(.sp, "500")] []) (.fault .malformedOperand) = true := by decide

theorem test_iret :
    let s := { user [(.ip, "100"), (.sp, "600")] [(10840, "10246")] with mode := .kernel }
    shows (after "IRET" s) [(.sp, "599"), (.ip, "10246")] [] = true ∧ (after "IRET" s).mode = .user ∧
    crashes "IRET" (s.setReg .sp (Word.ofString "2000")) (.fault .pageFault) = true ∧
    (after "IRET" (s.setReg .sp (Word.ofString "2000"))).mode = .kernel := by decide

/-- A machine with pages of two Words, for the block transfers (R240 holds for every PAGE_SIZE). -/
def smallPages (s : State) : State := { s with cfg := { s.cfg with pageSize := 2, numPages := 128 } }

theorem test_loadi :
    let s : State := { smallPages (kern [] [(9, "z")]) with blocks := ⟨[(18, Word.ofString "x"), (19, Word.ofString "y")]⟩ }
    shows (after "LOADI 3, 9" s) [] [(5, ""), (6, "x"), (7, "y"), (8, ""), (9, "z")] = true ∧
    crashes "LOADI -1, 0" s (.fault .outOfRange) = true := by decide

theorem test_load :
    (after "LOAD R1, R2" (kern [(.r 1, "60"), (.r 2, "9x")] [])).disk = some ⟨3, .load, 60, 9⟩ ∧
    crashes "LOAD 128, 0" (kern [] []) (.fault .outOfRange) = true := by decide

theorem test_store :
    (after "STORE 50, 7" (kern [] [])).disk = some ⟨3, .store, 50, 7⟩ ∧
    (after "STORE 51, 8" { kern [] [] with disk := some ⟨2, .load, 60, 9⟩ }).disk = some ⟨1, .load, 60, 9⟩ ∧
    crashes "STORE 50, 16" { kern [] [] with disk := some ⟨2, .load, 60, 9⟩ } (.fault .outOfRange) = true := by decide

/-- ENCRYPT changes no other register and stays within one Word, whatever the free transform is (R255). -/
theorem test_encrypt (s : State) : exec (.encrypt (.r 0)) s =
    .next (s.setReg (.r 0) (encrypt s.cfg.wordCap (s.reg (.r 0)))) := rfl

theorem test_in :
    (after "IN" (kern [] [])).console = some ⟨1, .read⟩ ∧
    (after "IN" { kern [] [] with console := some ⟨1, .print (Word.ofString "x")⟩ }).console =
      some ⟨0, .print (Word.ofString "x")⟩ := by decide

theorem test_ini :
    shows (after "INI" { kern [] [] with consoleIn := ["hello world, this is long".toList] })
      [(.p 0, "hello world, th")] [] = true ∧
    shows (after "INI" { kern [] [] with consoleIn := [[], "abc".toList], consoleInPos := 1 }) [(.p 0, "abc")] []
      = true := by decide

theorem test_out :
    (after "OUT" (kern [(.p 1, "hi")] [])).console = some ⟨1, .print (Word.ofString "hi")⟩ ∧
    (stepped { kern [(.ip, "70000"), (.p 1, "hi")] [] with console := some ⟨0, .print (Word.ofString "a")⟩ }).consoleOut
      = [] := by decide

theorem test_brkp :
    after "BRKP" (kern [] []) = (withText "BRKP" (kern [] [])).setReg .ip (Word.ofString "102") ∧
    (after "BRKP" { kern [] [] with console := some ⟨0, .print (Word.ofString "a")⟩ }).consoleOut
      = [Word.ofString "a"] := by decide

theorem test_halt :
    (after "HALT" { kern [(.ip, "12")] [] with disk := some ⟨2, .load, 60, 9⟩ }) =
      { (withText "HALT" { kern [(.ip, "12")] [] with disk := some ⟨2, .load, 60, 9⟩ }).setReg .ip (Word.ofString "14")
          with status := .halted } := by decide

/-! ### Faults and the post-execute phase (95_test_vectors.md 2.11, 2.12) -/

/-- F5, F10, F16. -/
theorem test_user_fault :
    shows (after "NOP" (user [] [])) [(.eip, "10240"), (.ec, "1"), (.epn, "e"), (.ema, "e"), (.ip, "2048")]
      [(10840, "10242")] = true ∧
    shows (stepped (user [(.ip, "70000")] [])) [(.eip, "70000"), (.ec, "2"), (.ema, "70000"), (.ip, "2048")]
      [(10840, "70000")] = true ∧
    shows (after "MOV R0, [9999999999999999]" (user [] [])) [(.ec, "0"), (.epn, "19531249999999"),
      (.ema, "999999999999999")] [] = true := by decide

/-- F7 and F11: the trap's own push fails. -/
theorem test_double_fault :
    let t := after "INT 7" (user [(.sp, "100")] [])
    t.status = .crashed .doubleFault ∧ t.mode = .user ∧
    shows t [(.eip, "10240"), (.ec, "2"), (.epn, "0"), (.ema, "101"), (.ip, "10242"), (.sp, "100")] [] = true ∧
    (after "MOV R0, [600]" (user [] [(3002, "200")])).status = .crashed .doubleFault := by decide

/-- F1: a crash in Kernel mode leaves the exception registers alone. -/
theorem test_kernel_fault :
    let t := after "DIV R0, R1" (kern [(.ip, "0"), (.r 0, "10"), (.r 1, "abc"), (.ec, "e")] [])
    t.status = .crashed (.fault .divisionByZero) ∧ shows t [(.ip, "2"), (.r 0, "10"), (.ec, "e")] [] = true := by decide

/-- A timer that runs out: latched in Kernel mode, delivered in User mode. -/
theorem test_timer :
    let c : Config := { Config.standard with timerInterval := 3 }
    let k := after "BRKP" { kern [] [] with cfg := c, timer := 1 }
    let u := after "BRKP" { user [] [] with cfg := c, timer := 1 }
    k.timer = 3 ∧ k.timerPending = true ∧ shows k [(.ip, "102")] [] = true ∧
    u.timer = 3 ∧ u.timerPending = false ∧ shows u [(.ip, "3072"), (.sp, "600")] [(10840, "10242")] = true ∧
    (after "BRKP" { kern [] [] with cfg := c, timer := 3 }).timer = 2 := by decide

/-- Priority: all three latches set, then two. -/
theorem test_priority :
    let s : State := { user [] [] with timerPending := true, diskPending := true, consolePending := true }
    let t := after "BRKP" s
    let u := after "BRKP" { s with timerPending := false }
    shows t [(.ip, "3072")] [] = true ∧ (t.timerPending, t.diskPending, t.consolePending) = (false, true, true) ∧
    shows u [(.ip, "4096")] [] = true ∧ (u.diskPending, u.consolePending) = (false, true) := by decide

/-- The completion of a disk request in each mode, and a request of latency 0 in its own cycle (pages of two Words). -/
theorem test_disk_completion :
    let k := after "BRKP" { smallPages (kern [] [(6, "a"), (7, "b")]) with disk := some ⟨0, .store, 3, 9⟩ }
    let c : Config := { Config.standard with diskLatency := 0 }
    k.blocks = ⟨[(18, Word.ofString "a"), (19, Word.ofString "b")]⟩ ∧ k.disk = none ∧ k.diskPending = true ∧
    (after "STORE 50, 7" { kern [] [] with cfg := c }).disk = some ⟨0, .store, 50, 7⟩ ∧
    (after "NOP" { user [] [] with disk := some ⟨2, .load, 1, 1⟩ }).disk = some ⟨1, .load, 1, 1⟩ := by decide

/-- The completion of a console request: P6, cycles 5 and 9. -/
theorem test_console_completion :
    let k : State := { kern [] [] with consoleIn := ["42".toList] }
    let t := after "BRKP" { k with console := some ⟨0, .read⟩ }
    shows t [(.p 0, "42")] [] = true ∧ t.console = none ∧ t.consolePending = true ∧ t.consoleInPos = 1 := by decide

/-! ### Witnesses: the hypotheses of the obligations can be met -/

/-- Whether an instruction has a next state. -/
def execGoesOn (i : Instr) (s : State) : Bool :=
  match exec i s with
  | .next _ => true
  | _ => false

/-- That next state; the same state if there is none. -/
def executed (i : Instr) (s : State) : State :=
  match exec i s with
  | .next t => t
  | _ => s

theorem exec_executed {i : Instr} {s : State} (h : execGoesOn i s = true) : exec i s = .next (executed i s) := by
  unfold execGoesOn at h
  unfold executed
  split at h
  · rename_i t ht
    rw [ht]
  · cases h

/-- The empty literal, and one that holds the least and the greatest legal character. -/
theorem witness_DecodeReadsBackEveryEncoding :
    (Instr.port (.reg .ip) (.str [])).WellFormed ∧
    (Instr.mov (.mem (.reg .sp) (-1)) (.str ['\x01', ' ', '\xff'])).WellFormed := by
  refine ⟨fun c hc => absurd hc List.not_mem_nil, fun c hc => ?_⟩
  have h : c = '\x01' ∨ c = ' ' ∨ c = '\xff' := by simpa [Instr.literal] using hc
  rcases h with rfl | rfl | rfl <;> decide

/-- The highest slot of memory. -/
theorem witness_EncodedSlotIsFetchedAndDecoded :
    (Instr.ret).WellFormed ∧ (Instr.ret).Fits Config.standard ∧
    (withText "RET" (kern [(.ip, "65534")] [])).xi .ip = (65534 : Nat) ∧
    65534 + Config.standard.instrSize ≤ Config.standard.memorySize ∧
    ∀ k w, (encode Config.standard .ret)[k]? = some w →
      (withText "RET" (kern [(.ip, "65534")] [])).mem.read (65534 + k) = w := by
  refine ⟨fun c hc => absurd hc List.not_mem_nil, by decide, by decide, by decide, fun k w h => ?_⟩
  rcases k with _ | _ | k
  · obtain rfl : Word.ofString "RET" = w := Option.some.inj h
    decide
  · obtain rfl : Word.blank = w := Option.some.inj h
    decide
  · exact absurd h (by simp [encode, cutWords, Config.standard])

/-- What holds of the first character holds of the head of a text. -/
theorem head_of {P : Char → Prop} {c : Char} {t : Text} (h : P c) : ∀ ch ∈ (c :: t).head?, P ch := by
  intro ch hc
  obtain rfl : c = ch := Option.some.inj hc
  exact h

/-- An integer text as a test. -/
theorem integerText_of_test {sign ds : Text}
    (h : (sign = [] ∨ sign = ['+'] ∨ sign = ['-']) ∧ allDigits ds = true) : IntegerText sign ds := by
  refine ⟨h.1, ?_, ?_⟩ <;> simp only [allDigits, Bool.and_eq_true, List.all_eq_true] at h
  · rintro rfl
    exact absurd h.2.1 (by decide)
  · exact h.2.2

/-- An identifier to its last kind of character, an integer of each sign, a sign without a digit, a literal and one
that is not closed, a character that begins no token, and an instruction. -/
theorem witness_DecodedSlotBeginsWithTheKeyword :
    ('R'.isAlpha = true ∧ (∀ ch ∈ ['1', '_', 'z'], ch.isAlpha = true ∨ ch.isDigit = true ∨ ch = '_') ∧
      ∀ ch ∈ (",".toList).head?, ¬ (ch.isAlpha = true ∨ ch.isDigit = true ∨ ch = '_')) ∧
    (IntegerText [] "007".toList ∧ IntegerText ['+'] "4".toList ∧ IntegerText ['-'] "4".toList ∧
      ∀ ch ∈ ("]".toList).head?, ch.isDigit = false) ∧
    (∀ ch ∈ (" 5".toList).head?, ch.isDigit = false) ∧ '"' ∉ "a,b]".toList ∧
    (';'.isAlpha = false ∧ ';'.isDigit = false ∧ ';' ∉ [' ', '\t', '+', '-', '"', ',', '[', ']']) ∧
    (scan false [] = .finished ∧ scan false [';'] = .bad ∧ scan false [','] = .token .comma []) ∧
    decode "  HALT ".toList = .ok .halt :=
  have name : ∀ ch ∈ ['1', '_', 'z'], ch.isAlpha = true ∨ ch.isDigit = true ∨ ch = '_' := by
    intro ch hc
    have h : ch = '1' ∨ ch = '_' ∨ ch = 'z' := by simpa using hc
    rcases h with rfl | rfl | rfl <;> decide
  ⟨⟨by decide, name, head_of (c := ',') (t := []) (by decide)⟩,
   ⟨integerText_of_test (by decide), integerText_of_test (by decide), integerText_of_test (by decide),
    head_of (c := ']') (t := []) (by decide)⟩,
   head_of (c := ' ') (t := ['5']) (by decide), by decide, by decide, by decide, by decide⟩

/-- One text for every clause: no keyword ("5" and the empty slot), NOP, a lexical error, an extra operand, a form not
listed, an unknown register, and an instruction. -/
theorem witness_DecodingFaultsComeInOrder :
    (∀ k rest, scan true "5".toList ≠ .token (.keyword k) rest) ∧
    (∀ k rest, scan true [] ≠ .token (.keyword k) rest) ∧
    (scan true "NOP".toList = .token (.keyword "NOP".toList) [] ∧ "NOP".toList ∉ operandPatterns.map Prod.fst) ∧
    (scan true "INR R0;".toList = .token (.keyword "INR".toList) " R0;".toList ∧
      ("INR".toList, [[.register]]) ∈ operandPatterns ∧ tokens " R0;".toList = none) ∧
    (tokens " R0".toList = some [.register "R0".toList] ∧ ("HALT".toList, []) ∈ operandPatterns ∧
      (∀ ops, SpellsOperands ops [.register "R0".toList] → ¬ MatchesPattern [] ops) ∧
      ("JMP".toList, [[.integer]]) ∈ operandPatterns ∧
      ∀ ops, SpellsOperands ops [.register "R0".toList] → ¬ MatchesPattern [[.integer]] ops) ∧
    (tokens " R20, R21".toList = some [.register "R20".toList, .comma, .register "R21".toList] ∧
      SpellsOperands [.reg "R20".toList, .reg "R21".toList] [.register "R20".toList, .comma, .register "R21".toList] ∧
      MatchesPattern [[.register], [.register, .integer]] [.reg "R20".toList, .reg "R21".toList] ∧
      firstUnknown [.reg "R20".toList, .reg "R21".toList] = some "R20".toList ∧
      firstUnknown [.reg "R1".toList, .reg "ptbr".toList] = none) := by
  have h5 : scan true "5".toList = .token (.int 5) [] := by decide
  refine ⟨fun k rest h => Scan.noConfusion (h5.symm.trans h) fun e _ => Token.noConfusion e, fun k rest h => ?_,
    by decide, by decide, ⟨by decide, by decide, ?_, by decide, ?_⟩, by decide,
    .two (ts := [.register "R20".toList]) (.reg _) (.reg _), ?_, by decide, by decide⟩
  · cases h
  · intro ops h hm
    cases hm
    cases h
  · intro ops h hm
    cases hm with
    | cons hf hn =>
      cases hn
      cases h with
      | one ha =>
        cases ha
        exact absurd hf (by decide)
  · exact .cons (by decide) (.cons (by decide) .nil)

theorem witness_StoreIntegerIsCanonicalWithinItsRange :
    2 ≤ Config.standard.wordSize ∧ Fits Config.standard 999999999999999 ∧ Fits Config.standard (-99999999999999) ∧
    ¬ Fits Config.standard 1000000000000000 ∧ ¬ Fits Config.standard (-100000000000000) := by decide

/-- The texts of R22's examples "12a", "+5", "007", "-3x", and one without a prefix. -/
theorem witness_WordMeanings :
    IntegerText [] "12".toList ∧ (∀ ch ∈ ("a".toList).head?, ch.isDigit = false) ∧ IntegerText ['+'] "5".toList ∧
    IntegerText [] "007".toList ∧ IntegerText ['-'] "3".toList ∧
    (¬ ∃ sign ds rest, IntegerText sign ds ∧ (Word.ofString " 5").text = sign ++ ds ++ rest) ∧
    Config.standard.wordCap < "0123456789abcdef".toList.length := by
  refine ⟨integerText_of_test (by decide), head_of (c := 'a') (t := []) (by decide), integerText_of_test (by decide),
    integerText_of_test (by decide), integerText_of_test (by decide), ?_, by decide⟩
  rintro ⟨sign, ds, rest, ⟨hs, hn, hd⟩, ht⟩
  obtain ⟨d, ds, rfl⟩ := List.exists_cons_of_ne_nil hn
  have h : d.isDigit = true := hd d List.mem_cons_self
  rcases hs with rfl | rfl | rfl <;> injection ht with hc
  · rw [← hc] at h
    exact absurd h (by decide)
  · exact absurd hc (by decide)
  · exact absurd hc (by decide)

theorem witness_WordsRoundTrip :
    2 ≤ Config.standard.wordSize ∧ Fits Config.standard (-99999999999999) ∧
    "0123456789abcde".toList.length ≤ Config.standard.wordCap ∧ (Word.ofString "007").Legal Config.standard.wordCap := by
  refine ⟨by decide, by decide, by decide, by decide, fun c hc => ?_⟩
  have h : c = '0' ∨ c = '7' := by
    have : c = '0' ∨ c = '0' ∨ c = '7' := by simpa [Word.ofString] using hc
    tauto
  rcases h with rfl | rfl <;> decide

theorem witness_PhysicalAccessReadsAndWritesOneWord :
    let n := Config.standard.memorySize
    ((0 : Int) ≤ 0 ∧ (0 : Int) < n) ∧ ((0 : Int) ≤ 65535 ∧ (65535 : Int) < n) ∧
    ¬ ((0 : Int) ≤ -1 ∧ (-1 : Int) < n) ∧ ¬ ((0 : Int) ≤ 65536 ∧ (65536 : Int) < n) := by decide

/-- For each clause, in ctx U or a variant of it: the page and the entry of va, and what the clause asks of them. -/
theorem witness_UserTranslationChecksInOrder :
    (1024 : Int) / Config.standard.pageSize = 2 ∧ (user [] []).xi .ptlr ≤ 2 ∧
    (1023 : Int) / Config.standard.pageSize = 1 ∧ 1 < (user [] []).xi .ptlr ∧
    ¬ (user [(.ptbr, "65533")] []).inMemory ((user [(.ptbr, "65533")] []).xi .ptbr + 2 * 1 + 1) ∧
    (user [] []).inMemory ((user [] []).xi .ptbr + 2 * 1 + 1) ∧
    entryValid (asString ((user [] [(3003, "0010")]).mem.read 3003)) = false ∧
    entryValid (asString ((user [] []).mem.read 3003)) = true ∧
    entryWritable (asString ((user [] [(3003, "010")]).mem.read 3003)) = false ∧
    entryWritable (asString ((user [] []).mem.read 3003)) = true ∧
    ¬ (user [(.ptbr, "-1")] []).inMemory ((user [(.ptbr, "-1")] []).xi .ptbr + 2 * 0) ∧
    (user [(.ptbr, "-1")] []).inMemory ((user [(.ptbr, "-1")] []).xi .ptbr + 2 * 0 + 1) ∧
    entryValid (asString ((user [(.ptbr, "-1")] [(0, "010")]).mem.read 0)) = true := by decide

theorem witness_TranslationWorkedExample :
    let s (limit flags : String) := user [(.ptbr, "1000"), (.ptlr, limit)]
      [(1000, "5"), (1001, flags), (1002, "7"), (1003, "0110")]
    (s "1" "x1x").cfg.pageSize = 512 ∧ 1004 ≤ (s "1" "x1x").cfg.memorySize ∧ (s "1" "x1x").xi .ptbr = 1000 ∧
    1 ≤ (s "1" "x1x").xi .ptlr ∧ (s "1" "x1x").mem.read 1000 = Word.ofString "5" ∧
    (s "1" "x1x").mem.read 1001 = Word.ofString "x1x" ∧ (s "1" "x0x").mem.read 1001 = Word.ofString "x0x" ∧
    (s "1" "x10").mem.read 1001 = Word.ofString "x10" ∧ (s "1" "x1x").xi .ptlr = 1 ∧ (s "2" "x1x").xi .ptlr = 2 ∧
    (s "2" "x1x").mem.read 1002 = Word.ofString "7" ∧ (s "2" "x1x").mem.read 1003 = Word.ofString "0110" := by decide

/-- Kernel mode at the last Word of memory; User mode at the last Word of page 1. -/
theorem witness_MoveIntoRegister :
    2 ≤ (kern [] []).cfg.wordSize ∧ Fits (kern [] []).cfg 999999999999999 ∧
    "0123456789abcde".toList.length ≤ (kern [] []).cfg.wordCap ∧
    translateAddr (kern [] []).mode (effAddr (.int 65530) 5 (kern [] [])) false (kern [] []) = .ok 65535 ∧
    (kern [] []).inMemory 65535 ∧
    translateAddr (user [] []).mode (effAddr (.reg .sp) 424 (user [] [])) false (user [] []) = .ok 11263 ∧
    (user [] []).inMemory 11263 := by decide

theorem witness_MoveIntoMemory :
    2 ≤ (kern [] []).cfg.wordSize ∧
    translateAddr (kern [] []).mode (effAddr (.int 0) 0 (kern [] [])) true (kern [] []) = .ok 0 ∧
    (kern [] []).inMemory 0 ∧
    translateAddr (user [] []).mode (effAddr (.int 512) 0 (user [] [])) true (user [] []) = .ok 10752 ∧
    (user [] []).inMemory 10752 ∧ Fits (user [] []).cfg (-99999999999999) ∧ "".toList.length ≤ (user [] []).cfg.wordCap ∧
    translateAddr (user [] []).mode (effAddr (.int 8) 0 (user [] [])) false (user [] []) = .ok 10248 ∧
    (user [] []).inMemory 10248 := by decide

theorem witness_MoveFaultsSourceFirst :
    2 ≤ (kern [] []).cfg.wordSize ∧ ¬ Fits (kern [] []).cfg 1000000000000000 ∧
    (kern [] []).cfg.wordCap < "0123456789abcdef".toList.length ∧
    translateAddr (user [] []).mode (effAddr (.int 1024) 0 (user [] [])) false (user [] []) =
      .error (.pageFault 1024 2) ∧
    translateAddr (kern [] []).mode (effAddr (.int 65536) 0 (kern [] [])) false (kern [] []) = .ok 65536 ∧
    ¬ (kern [] []).inMemory 65536 ∧ Fits (kern [] []).cfg 999999999999999 ∧
    "0123456789abcde".toList.length ≤ (kern [] []).cfg.wordCap ∧
    translateAddr (user [] []).mode (effAddr (.int 8) 0 (user [] [])) false (user [] []) = .ok 10248 ∧
    (user [] []).inMemory 10248 ∧ valOf (.int 7) (user [] []) = .ok (Word.ofString "7") ∧
    translateAddr (user [] []).mode (effAddr (.int 8) 0 (user [] [])) true (user [] []) =
      .error (.memoryProtectionFault 8 0) ∧
    valOf (.int 7) (kern [] []) = .ok (Word.ofString "7") ∧
    translateAddr (kern [] []).mode (effAddr (.int 0) (-1) (kern [] [])) true (kern [] []) = .ok (-1) ∧
    ¬ (kern [] []).inMemory (-1) := by decide

/-- A sum and an increment at INT_MAX and just above it, a difference at INT_MIN and just below it, a product. -/
theorem witness_ArithmeticStoresTheExactResult :
    let s := kern [(.r 0, "999999999999998"), (.r 1, "-99999999999998")] []
    2 ≤ s.cfg.wordSize ∧ Fits s.cfg (s.xi (.r 0) + 1) ∧ ¬ Fits s.cfg (s.xi (.r 0) + intOf (.int 2) s) ∧
    Fits s.cfg (s.xi (.r 1) - 1) ∧ ¬ Fits s.cfg (s.xi (.r 1) - intOf (.int 2) s) ∧
    Fits s.cfg (s.xi (.r 1) * intOf (.int (-1)) s) ∧ ¬ Fits s.cfg (s.xi (.r 0) * intOf (.int 2) s) := by decide

theorem witness_DivisionTruncatesTowardZero :
    2 ≤ (kern [] []).cfg.wordSize ∧ intOf (.reg (.r 1)) (kern [(.r 1, "abc")] []) = 0 ∧
    intOf (.int (-1)) (kern [(.r 0, "999999999999999")] []) ≠ 0 ∧
    ¬ Fits (kern [] []).cfg (Int.tdiv ((kern [(.r 0, "999999999999999")] []).xi (.r 0)) (-1)) ∧
    ((kern [] []).reg (.r 0)).Legal (kern [] []).cfg.wordCap := by
  refine ⟨by decide, by decide, by decide, by decide, by decide, fun c hc => ?_⟩
  obtain rfl : c = '0' := by simpa using (show c ∈ ['0'] from hc)
  decide

theorem witness_JumpsTranslateTheirTarget :
    2 ≤ (kern [] []).cfg.wordSize ∧ (kern [(.r 1, "abc")] []).xi (.r 1) = 0 ∧ (kern [(.r 1, "1x")] []).xi (.r 1) ≠ 0 ∧
    translateAddr (user [] []).mode 513 false (user [] []) = .ok 10753 ∧ Fits (user [] []).cfg 10753 ∧
    translateAddr (kern [] []).mode 1000000000000000 false (kern [] []) = .ok 1000000000000000 ∧
    ¬ Fits (kern [] []).cfg 1000000000000000 ∧
    translateAddr (user [] []).mode 1024 false (user [] []) = .error (.pageFault 1024 2) := by decide

/-- For PushStoresAboveTheTop, PopLoadsTheTop, ReturnCopiesTheTopOfTheStack and the other stack statements: ctx U at the two ends of page 1 and Kernel mode at the two ends of memory; a translation
fault and an address outside memory. -/
theorem witness_StackAccesses :
    translateAddr (user [] []).mode ((user [(.sp, "1022")] []).xi .sp + 1) true (user [(.sp, "1022")] []) =
      .ok 11263 ∧ (user [] []).inMemory 11263 ∧ Fits (user [] []).cfg ((user [(.sp, "1022")] []).xi .sp + 1) ∧
    translateAddr (user [] []).mode ((user [(.sp, "512")] []).xi .sp) false (user [(.sp, "512")] []) = .ok 10752 ∧
    Fits (user [] []).cfg ((user [(.sp, "512")] []).xi .sp - 1) ∧
    translateAddr .kernel ((kern [(.sp, "-1")] []).xi .sp + 1) true (kern [(.sp, "-1")] []) = .ok 0 ∧
    (kern [] []).inMemory 0 ∧ ¬ (kern [] []).inMemory ((kern [(.sp, "65535")] []).xi .sp + 1) ∧
    translateAddr (user [] []).mode ((user [(.sp, "1023")] []).xi .sp + 1) true (user [(.sp, "1023")] []) =
      .error (.pageFault 1024 2) := by decide

/-- SP at INT_MAX, with a PTLR and a PTBR that map the page above it to frame 21. -/
def highStack : State := user [(.sp, "999999999999999"), (.ptlr, "2000000000000"), (.ptbr, "-3906249996998")] []

/-- A machine of one-character Words: its integers are 0 to 9. -/
def tinyWords (s : State) : State := { s with cfg := { s.cfg with wordSize := 2 } }

/-- The last clause of StackFaults: SP at the greatest integer for a push, at the least for a pop, in both modes, with
the access inside memory. -/
theorem witness_StackOverflows :
    2 ≤ (tinyWords (kern [] [])).cfg.wordSize ∧
    (tinyWords (kern [] [])).inMemory ((kern [(.sp, "9")] []).xi .sp + 1) ∧
    ¬ Fits (tinyWords (kern [] [])).cfg ((kern [(.sp, "9")] []).xi .sp + 1) ∧
    (tinyWords (kern [] [])).inMemory ((kern [] []).xi .sp) ∧
    ¬ Fits (tinyWords (kern [] [])).cfg ((kern [] []).xi .sp - 1) ∧
    translateAddr .user 0 false (tinyWords (user [(.sp, "0")] [])) = .ok 10240 ∧
    (tinyWords (user [] [])).inMemory 10240 := by decide

theorem witness_CallPushesTheReturnAddress :
    let s := user [] []
    let pushed : State := { s with mem := s.mem.write 10840 (s.reg .ip) }
    translateAddr s.mode (s.xi .sp + 1) true s = .ok 10840 ∧ s.inMemory 10840 ∧ Fits s.cfg (s.xi .sp + 1) ∧
    translateAddr s.mode 6 false pushed = .ok 10246 ∧ Fits s.cfg 10246 ∧
    translateAddr s.mode 1024 false pushed = .error (.pageFault 1024 2) ∧
    translateAddr .kernel 1000000000000000 false (kern [] []) = .ok 1000000000000000 ∧
    ¬ Fits (kern [] []).cfg 1000000000000000 := by decide

/-- The hypotheses of PopUndoesPush: the highest Word of memory in Kernel mode, ctx U in User mode. -/
theorem witness_PopUndoesPush :
    2 ≤ (user [] []).cfg.wordSize ∧ Reg.r 1 ≠ .sp ∧ StackWord 65535 (kern [(.sp, "65534")] []) ∧
    Fits (kern [] []).cfg ((kern [(.sp, "65534")] []).xi .sp) ∧ StackWord 10840 (user [] []) ∧
    Fits (user [] []).cfg ((user [] []).xi .sp) := by
  unfold StackWord ClearOfTable
  and_intros <;> decide

theorem witness_ReturnUndoesCall :
    let s := user [] []
    2 ≤ s.cfg.wordSize ∧ StackWord 10840 s ∧ Fits s.cfg (s.xi .sp) ∧ ∃ t, callTo 6 s = .ok t ∧ t.xi .sp = 600 := by
  refine ⟨by decide, ?_, by decide, executed (.call 6) (user [] []), by decide, by decide⟩
  unfold StackWord ClearOfTable
  and_intros <;> decide

/-- ctx U with a third page, at frame 25, and SP near the end of page 1: a block of 23 Words lies in two pages. -/
def twoPages : State := user [(.sp, "1010"), (.ptlr, "3")] [(3004, "25"), (3005, "0110")]

/-- Where its 23 Words lie: 13 in frame 21, 10 in frame 25. -/
def twoPagesAddr (k : Nat) : Int := if k < 13 then 11251 + k else 12787 + k

/-- The highest block of memory in Kernel mode, a block in two pages in User mode. -/
theorem witness_BackupStoresTheContext :
    2 ≤ twoPages.cfg.wordSize ∧ PushesGo 23 (fun k => 65513 + k) (kern [(.sp, "65512")] []) ∧
    AllDiffer 23 (fun k => 65513 + k) ∧ (kern [(.sp, "65512")] []).mode = .kernel ∧
    PushesGo 23 twoPagesAddr twoPages ∧ AllDiffer 23 twoPagesAddr := by
  unfold PushesGo AllDiffer
  decide

/-- A saved context at virtual 601 to 623 that holds another PTLR and another PTBR (a table at 4000 that maps page 1
to frame 30); one in Kernel mode at 0 to 22; the two pages again. Then faults: page 0 invalid after four pops, the
bottom of memory after three, and SP at the least integer of a one-character Word. -/
theorem witness_RestoreLoadsTheContext :
    2 ≤ twoPages.cfg.wordSize ∧
    PopsGo 23 (fun k => if k < 22 then 10863 - k else 15449)
      (user [(.sp, "623")] [(10843, "5"), (10842, "4000"), (4002, "30"), (4003, "0100")]) ∧
    PopsGo 23 (fun k => 22 - k) (kern [(.sp, "22")] []) ∧
    PopsGo 4 (fun k => 10755 - k) (user [(.sp, "515")] [(3001, "0000")]) ∧
    translateAddr .user (515 - 4) false (user [(.sp, "515")] [(3001, "0000")]) = .error (.pageFault 511 0) ∧
    PopsGo 3 (fun k => 2 - k) (kern [(.sp, "2")] []) ∧ ¬ (kern [] []).inMemory (2 - 3) ∧
    PopsGo 0 (fun _ => 0) (tinyWords (kern [(.sp, "0")] [])) := by
  unfold PopsGo
  and_intros <;> decide

/-- Both ways to meet the User-mode hypothesis: the state BACKUP leaves with a register changed, and one whose PTLR
and PTBR were changed too, read through a table that maps the two pages to the same frames. -/
theorem witness_RestoreUndoesBackup :
    let t := executed .backup twoPages
    let u := t.setReg (.r 7) (Word.ofString "changed")
    let v := { (u.setReg .ptbr (Word.ofString "4000")).setReg .ptlr (Word.ofString "9") with
      mem := (((t.mem.write 4002 (Word.ofString "21")).write 4003 (Word.ofString "01")).write 4004
        (Word.ofString "25")).write 4005 (Word.ofString "01") }
    2 ≤ twoPages.cfg.wordSize ∧ PushesGo 23 twoPagesAddr twoPages ∧ AllDiffer 23 twoPagesAddr ∧
    Fits twoPages.cfg (twoPages.xi .sp) ∧ u.cfg = t.cfg ∧ u.mode = t.mode ∧ u.xi .sp = t.xi .sp ∧
    u.mem = t.mem ∧ ClearOfTable 23 twoPagesAddr twoPages ∧ u.reg .ptbr = t.reg .ptbr ∧ u.reg .ptlr = t.reg .ptlr ∧
    v.cfg = t.cfg ∧ v.mode = t.mode ∧ v.xi .sp = t.xi .sp ∧
    (∀ k : Nat, k < 23 → v.mem.read (twoPagesAddr k).toNat = t.mem.read (twoPagesAddr k).toNat) ∧
    PopsGo 23 (fun k => twoPagesAddr (22 - k)) v := by
  unfold PushesGo PopsGo AllDiffer ClearOfTable
  and_intros <;> decide

/-- Vector K2 (page 2 is beyond PTLR after 13 pushes), a frame outside memory at once, SP at INT_MAX; then the two
ends of memory in Kernel mode. -/
theorem witness_BackupIsAllOrNothing :
    2 ≤ (user [] []).cfg.wordSize ∧ PushesGo 13 (fun k => 11251 + k) (user [(.sp, "1010")] []) ∧
    translateAddr .user (1010 + 1 + 13) true (backupView (user [(.sp, "1010")] []) (fun k => 11251 + k) 13) =
      .error (.pageFault 1024 2) ∧
    PushesGo 0 (fun _ => 0) (user [] [(3002, "200")]) ∧
    translateAddr .user 600 true (user [] [(3002, "200")]) = .ok 102488 ∧ ¬ (user [] []).inMemory 102488 ∧
    translateAddr .user 1000000000000000 true highStack = .ok 10752 ∧ highStack.inMemory 10752 ∧
    ¬ Fits highStack.cfg 1000000000000000 ∧ highStack.xi .sp + 1 = 1000000000000000 ∧
    (kern [] []).cfg.Valid ∧ (kern [] []).mode = .kernel ∧
    ¬ (0 ≤ (kern [(.sp, "65513")] []).xi .sp + 1 ∧ (kern [(.sp, "65513")] []).xi .sp + 23 < 65536) ∧
    ¬ (0 ≤ (kern [(.sp, "-2")] []).xi .sp + 1 ∧ (kern [(.sp, "-2")] []).xi .sp + 23 < 65536) ∧
    (kern [] []).cfg.memorySize = 65536 := by
  unfold PushesGo
  and_intros <;> decide

/-- The last line: SP at INT_MAX. -/
theorem witness_IntEntersTheHandler :
    let u := highStack
    (user [] []).cfg.Valid ∧ 0 ≤ 18 ∧ 18 ≤ 18 ∧
    translateAddr (user [] []).mode ((user [] []).xi .sp + 1) true (user [] []) = .ok 10840 ∧
    (user [] []).inMemory 10840 ∧ Fits (user [] []).cfg ((user [] []).xi .sp + 1) ∧
    translateAddr u.mode (u.xi .sp + 1) true u = .ok 10752 ∧ u.inMemory 10752 ∧ ¬ Fits u.cfg (u.xi .sp + 1) := by
  decide

theorem witness_IntRejectsOtherNumbers : ((-1 : Int) < 0 ∨ 18 < (-1 : Int)) ∧ ((19 : Int) < 0 ∨ 18 < (19 : Int)) := by
  decide

theorem witness_VectorFormula : Config.standard.pageSize = 512 ∧ 0 ≤ 18 ∧ 18 ≤ 18 := by decide

theorem witness_IretReturnsToUserMode :
    let s : State := { user [(.sp, "600")] [] with mode := .kernel }
    2 ≤ s.cfg.wordSize ∧ translateAddr .user (s.xi .sp) false s = .ok 10840 ∧ s.inMemory 10840 ∧
    Fits s.cfg (s.xi .sp - 1) ∧
    translateAddr .user ((kern [(.sp, "2000")] []).xi .sp) false (kern [(.sp, "2000")] []) =
      .error (.pageFault 2000 3) ∧
    translateAddr .user 600 false (user [(.sp, "600")] [(3002, "200")]) = .ok 102488 ∧
    ¬ (user [] []).inMemory 102488 := by decide

theorem witness_IretUndoesIntFromUserMode :
    let s := user [] []
    s.cfg.Valid ∧ s.mode = .user ∧ StackWord 10840 s ∧ Fits s.cfg (s.xi .sp) ∧
    (executed (.int 18) s).mode = .kernel := by
  unfold StackWord ClearOfTable
  and_intros <;> decide

theorem witness_KernelFaultChangesOnlyTheStatus :
    let s := kern [] []
    s.mode = .kernel ∧ s.status = .running ∧ ∃ t, exec (.div (.r 0) (.int 0)) s = .next t ∧
      t.status = .crashed (.fault .divisionByZero) :=
  ⟨rfl, rfl, _, exec_executed (by decide), by decide⟩

theorem witness_UserFaultTraps :
    let s := user [] []
    s.cfg.Valid ∧ s.mode = .user ∧ Fits s.cfg 10240 ∧
    translateAddr .user (s.xi .sp + 1) true s = .ok 10840 ∧ s.inMemory 10840 ∧ Fits s.cfg (s.xi .sp + 1) ∧
    Fits s.cfg 0 ∧ -100000000000000 < s.cfg.intMin ∧ s.cfg.intMax < 1000000000000000 := by decide

/-- The three ways a push of User mode fails. -/
theorem witness_FailedTrapEntryIsADoubleFault :
    (user [] []).mode = .user ∧ PushFails (user [(.sp, "100")] []) ∧ PushFails (user [] [(3002, "200")]) ∧
    PushFails highStack ∧ highStack.mode = .user ∧ Fits highStack.cfg 10240 :=
  ⟨rfl, .inl ⟨.memoryProtectionFault 101 0, by decide⟩, .inr (.inl ⟨102488, by decide, by decide⟩),
   .inr (.inr ⟨10752, by decide, by decide, by decide⟩), rfl, by decide⟩

theorem witness_UserModeIsLeftOnlyByIntOrFault :
    let s := user [] []
    s.mode = .user ∧ s.status = .running ∧
    (∃ t, exec (.int 7) s = .next t ∧ t.mode = .kernel) ∧
    ∃ t, exec (.push .sp) (user [(.sp, "100")] []) = .next t ∧ t.status = .crashed .doubleFault :=
  ⟨rfl, rfl, ⟨_, exec_executed (by decide), by decide⟩, ⟨_, exec_executed (by decide), by decide⟩⟩

theorem witness_OnlyIretEntersUserMode :
    let s := withText "IRET" { user [(.ip, "100"), (.sp, "600")] [(10840, "10246")] with mode := .kernel }
    ∃ t, step s = .next t ∧ s.mode = .kernel ∧ t.mode = .user :=
  ⟨_, step_stepped (by decide), by decide, by decide⟩

theorem witness_OnlyHaltHalts : ∃ t, step (withText "HALT" (kern [] [])) = .next t ∧ t.status = .halted :=
  ⟨_, step_stepped (by decide), by decide⟩

theorem witness_OnlyAFinishedRunStops :
    (kern [] []).status = .running ∧ ({ kern [] [] with status := .halted } : State).status = .halted ∧
    ({ kern [] [] with status := .crashed .doubleFault } : State).status = .crashed .doubleFault := ⟨rfl, rfl, rfl⟩

theorem witness_InstructionsWriteOnlyTheirRegisters :
    (∃ t, exec .restore (kern [(.sp, "22")] []) = .next t) ∧ ∃ t, exec (.inr (.r 0)) (user [] []) = .next t :=
  ⟨⟨_, exec_executed (by decide)⟩, ⟨_, exec_executed (by decide)⟩⟩

theorem witness_ConfigurationIsNeverWritten :
    ∃ t, step (withText "BRKP" { kern [] [] with console := some ⟨0, .print (Word.ofString "a")⟩ }) = .next t ∧
      t.consoleOut = [Word.ofString "a"] :=
  ⟨_, step_stepped (by decide), by decide⟩

/-- The clauses on ticks, then the clause on cycles: a timer that runs out and one that does not. -/
theorem witness_TimerRaisesEveryInterval :
    let s : State := withText "BRKP" { kern [] [] with
      cfg := { Config.standard with timerInterval := 2 }, timer := 2 }
    Config.standard.timerInterval ≤ 0 ∧
    (0 < s.cfg.timerInterval ∧ s.timer = s.cfg.timerInterval ∧ ((1 : Nat) : Int) < s.cfg.timerInterval) ∧
    (∃ t, step s = .next t ∧ t.status = .running) ∧ ¬ (0 < s.cfg.timerInterval ∧ s.timer ≤ 1) ∧
    (∃ t, step { s with timer := 1 } = .next t ∧ t.status = .running ∧ t.timerPending = true) ∧
    ∃ t, step { s with timer := 1, timerPending := true } = .next t ∧ t.status = .running :=
  ⟨by decide, by decide, ⟨_, step_stepped (by decide), by decide⟩, by decide,
   ⟨_, step_stepped (by decide), by decide, by decide⟩, ⟨_, step_stepped (by decide), by decide⟩⟩

/-- For DiskRequestCompletesAfterItsLatency and the ticks of ConsoleRequestCompletesAfterItsLatency: idle records, busy
ones before and at their completion; then a cycle that begins with both latches set. -/
theorem witness_DeviceRequests :
    let b : State := { kern [] [] with disk := some ⟨1, .load, 0, 0⟩, console := some ⟨1, .read⟩ }
    let c : State := { kern [] [] with disk := some ⟨0, .store, 127, 15⟩, console := some ⟨0, .print Word.blank⟩ }
    (kern [] []).disk = none ∧ (kern [] []).console = none ∧
    (0 : Nat) ≤ (kern [] []).cfg.diskLatency ∧ 3 ≤ (kern [] []).cfg.diskLatency ∧
    1 ≤ (kern [] []).cfg.consoleLatency ∧
    (b.disk = some ⟨1, .load, 0, 0⟩ ∧ b.console = some ⟨1, .read⟩) ∧
    (c.disk = some ⟨0, .store, 127, 15⟩ ∧ c.console = some ⟨0, .print Word.blank⟩) ∧
    ∃ t, step (withText "BRKP" { kern [] [] with diskPending := true, consolePending := true }) = .next t ∧
      t.status = .running :=
  ⟨rfl, rfl, by decide, by decide, by decide, ⟨rfl, rfl⟩, ⟨rfl, rfl⟩, _, step_stepped (by decide), by decide⟩

/-- A request counted down while a second one is lost, a Store and a Load that complete, a Load whose interrupt is
delivered, and the cycle that issues a request. -/
theorem witness_EveryCycleCountsThePendingDiskRequest :
    let s : State := withText "STORE 51, 8" { kern [] [] with disk := some ⟨1, .store, 50, 7⟩ }
    let u : State := withText "BRKP" { smallPages (kern [] []) with disk := some ⟨0, .store, 50, 7⟩ }
    let l : State := { u with disk := some ⟨0, .load, 50, 7⟩ }
    let v : State := withText "BRKP" (smallPages (state .user
      [(.ip, "100"), (.ptbr, "10"), (.ptlr, "50"), (.sp, "59")] [(70, "20"), (71, "011")]))
    let d : State := { v with disk := some ⟨0, .load, 60, 7⟩ }
    let o : State := withText "STORE 51, 8" (kern [] [])
    ((∃ t, step s = .next t ∧ t.status = .running) ∧ s.disk = some ⟨1, .store, 50, 7⟩) ∧
    ((∃ t, step u = .next t ∧ t.status = .running) ∧ u.disk = some ⟨0, .store, 50, 7⟩) ∧
    (∃ t, step l = .next t ∧ t.status = .running ∧ t.mode = .kernel) ∧
    (∃ t, step d = .next t ∧ t.status = .running ∧ t.mode = .kernel) ∧ d.mode = .user ∧
    translateAddr .user (d.xi .sp + 1) true (readBlock 60 7 d) = .ok 40 ∧
    (∃ t, step o = .next t ∧ t.status = .running ∧ t.disk = some ⟨3, .store, 51, 8⟩) ∧ o.disk = none :=
  ⟨⟨⟨_, step_stepped (by decide), by decide⟩, by decide⟩, ⟨⟨_, step_stepped (by decide), by decide⟩, by decide⟩,
   ⟨_, step_stepped (by decide), by decide, by decide⟩, ⟨_, step_stepped (by decide), by decide, by decide⟩, by decide,
   by decide, ⟨_, step_stepped (by decide), by decide, by decide⟩, by decide⟩

/-- The cycles of ConsoleRequestCompletesAfterItsLatency: a request counted down, a Read and a Print that complete, a
completion whose interrupt is delivered, and the cycle that issues a request. -/
theorem witness_ConsoleCycles :
    let b : State := withText "BRKP" { kern [] [] with consoleIn := [['a', 'b']] }
    let o : State := withText "OUT" (kern [(.p 1, "x")] [])
    (∃ t, step { b with console := some ⟨1, .read⟩ } = .next t ∧ t.status = .running) ∧
    (∃ t, step { b with console := some ⟨0, .read⟩ } = .next t ∧ t.status = .running ∧
      t.reg (.p 0) = Word.ofString "ab") ∧
    (∃ t, step { b with console := some ⟨0, .print (Word.ofString "c")⟩ } = .next t ∧ t.status = .running ∧
      t.consoleOut = [Word.ofString "c"]) ∧
    (∃ t, step { withText "BRKP" (user [] []) with console := some ⟨0, .print Word.blank⟩ } = .next t ∧
      t.status = .running ∧ t.mode = .kernel ∧ t.xi .ip = 5120) ∧
    (∃ t, step o = .next t ∧ t.status = .running ∧ t.console = some ⟨1, .print (Word.ofString "x")⟩) ∧
    o.console = none :=
  ⟨⟨_, step_stepped (by decide), by decide⟩, ⟨_, step_stepped (by decide), by decide, by decide⟩,
   ⟨_, step_stepped (by decide), by decide, by decide⟩, ⟨_, step_stepped (by decide), by decide, by decide, by decide⟩,
   ⟨_, step_stepped (by decide), by decide, by decide⟩, by decide⟩

theorem witness_BlockTransfersCopyAPage :
    let s := kern [] []
    0 < s.cfg.pageSize ∧ 511 < s.cfg.pageSize ∧ 511 < 1 * s.cfg.pageSize ∧ (1 + 1) * s.cfg.pageSize ≤ 1024 := by decide

theorem witness_InterruptsAreDeliveredInUserModeByPriority :
    let s : State := { user [] [] with timerPending := true, diskPending := true, consolePending := true }
    let d : State := { s with timerPending := false }
    let c : State := { d with diskPending := false }
    s.cfg.Valid ∧ s.mode = .user ∧ s.timerPending = true ∧ (d.timerPending = false ∧ d.diskPending = true) ∧
    (c.timerPending = false ∧ c.diskPending = false ∧ c.consolePending = true) ∧
    translateAddr .user (s.xi .sp + 1) true s = .ok 10840 ∧ s.inMemory 10840 ∧ Fits s.cfg (s.xi .sp + 1) ∧
    PushFails { highStack with timerPending := true } ∧ highStack.cfg.Valid ∧ (kern [] []).mode = .kernel :=
  ⟨by decide, by decide, by decide, by decide, by decide, by decide, by decide, by decide,
   .inr (.inr ⟨10752, by decide, by decide, by decide⟩), by decide, by decide⟩

/-- For LoadiTransfersAtOnce and DiskRequestsAreRecordedOrDropped. -/
theorem witness_DiskOperands :
    let s := kern [(.r 1, "9x"), (.r 2, "128"), (.r 3, "-1")] []
    (0 ≤ intOf (.int 0) s ∧ intOf (.int 0) s < s.cfg.numPages) ∧
    (0 ≤ intOf (.int 127) s ∧ intOf (.int 127) s < s.cfg.numPages) ∧
    (0 ≤ intOf (.reg (.r 1)) s ∧ intOf (.reg (.r 1)) s < s.cfg.numBlocks) ∧
    ¬ (0 ≤ intOf (.reg (.r 2)) s ∧ intOf (.reg (.r 2)) s < s.cfg.numPages) ∧
    ¬ (0 ≤ intOf (.reg (.r 3)) s ∧ intOf (.reg (.r 3)) s < s.cfg.numPages) ∧
    ¬ (0 ≤ intOf (.int 16) s ∧ intOf (.int 16) s < s.cfg.numBlocks) ∧ s.disk = none ∧
    ({ s with disk := some ⟨2, .load, 60, 9⟩ } : State).disk ≠ none := by decide

theorem witness_EncryptWritesALegalWord :
    (kern [(.r 0, "secret")] []).cfg = (user [(.p 3, "secret")] []).cfg ∧
    (kern [(.r 0, "secret")] []).reg (.r 0) = (user [(.p 3, "secret")] []).reg (.p 3) := by decide

theorem witness_ConsoleBreakpointAndHalt :
    let s : State := { kern [] [] with consoleIn := [['a', 'b']] }
    s.console = none ∧ ({ s with console := some ⟨1, .read⟩ } : State).console ≠ none ∧
    s.consoleIn[s.consoleInPos]? = some ['a', 'b'] ∧ 1 ≤ 'a'.toNat ∧ 1 ≤ 'b'.toNat := by decide

theorem witness_StepRunsTheDecodedInstruction :
    let s := withText "CALL 14" (kern [(.ip, "6"), (.sp, "1001")] [])
    s.cfg.Valid ∧ s.status = .running ∧ fetch s = .ok "CALL 14".toList ∧
    advance s = .ok (s.setReg .ip (Word.ofString "8")) ∧ decode "CALL 14".toList = .ok (.call 14) ∧
    ∃ t, exec (.call 14) (s.setReg .ip (Word.ofString "8")) = .next t ∧ t.status = .running :=
  ⟨by decide, by decide, by decide, by decide, by decide, _, exec_executed (by decide), by decide⟩

/-- The last line: integers of one digit, and IP at 8. -/
theorem witness_StepDeliversFetchAndDecodeFaults :
    let s := withText "NOP" (user [] [])
    s.status = .running ∧ fetch s = .ok "NOP".toList ∧ advance s = .ok (s.setReg .ip (Word.ofString "10242")) ∧
    decode "NOP".toList = .error .illegalInstruction ∧
    fetch (user [(.ip, "65535")] []) = .error (.outOfRange 65536) ∧
    fetch (tinyWords (kern [(.ip, "8")] [])) = .ok [] ∧
    advance (tinyWords (kern [(.ip, "8")] [])) = .error (.wordOverflow 10) := by decide

theorem witness_FetchJoinsTheSlotsWords :
    1 ≤ (kern [] []).cfg.instrSize ∧
    (0 ≤ (kern [(.ip, "65534")] []).xi .ip ∧ (kern [(.ip, "65534")] []).xi .ip + 2 ≤ 65536) ∧
    ((kern [(.ip, "-1")] []).xi .ip < 0) ∧ (65536 : Int) ≤ (kern [(.ip, "65536")] []).xi .ip ∧
    ((kern [(.ip, "65535")] []).xi .ip < 65536 ∧ 65536 < (kern [(.ip, "65535")] []).xi .ip + 2) ∧
    (kern [] []).cfg.memorySize = 65536 ∧ (kern [] []).cfg.instrSize = 2 := by decide

/-- Legality of a Word, as a test. -/
def legalTest (cap : Nat) (w : Word) : Bool :=
  decide (w.text.length ≤ cap) && w.text.all fun c => decide (1 ≤ c.toNat) && decide (c.toNat ≤ 255)

theorem legal_of_test {cap : Nat} {w : Word} (h : legalTest cap w = true) : w.Legal cap := by
  simp only [legalTest, Bool.and_eq_true, decide_eq_true_eq, List.all_eq_true] at h
  exact ⟨h.1, h.2⟩

/-- A state that is not the reset state, and meets the invariant: User mode, one page mapped, a line to read, a request
to print, an enabled timer. -/
theorem witness_EveryStepKeepsTheInvariant :
    let s : State := { state .user [(.ptbr, "3000"), (.ptlr, "1"), (.sp, "20"), (.ip, "10240")]
        [(3000, "20"), (3001, "011"), (10240, "BRKP")] with
      cfg := { Config.standard with timerInterval := 4 }, timer := 4, disk := some ⟨3, .store, 127, 15⟩,
      console := some ⟨1, .print (Word.ofString "a")⟩, consoleIn := [['a', '\xff']] }
    s.Inv ∧ ∃ t, step s = .next t := by
  refine ⟨⟨by decide, ?_, ⟨by decide, by decide, ?_⟩, ⟨by decide, by decide, ?_⟩, by decide, ?_, ?_, ?_, ?_⟩,
    _, step_stepped (by decide)⟩
  · intro r
    apply legal_of_test
    cases r with
    | r n => revert n; decide
    | p n => revert n; decide
    | _ => decide
  · intro e he
    exact legal_of_test ((List.all_eq_true (p := fun e : Nat × Word => legalTest 15 e.2)).mp (by decide) e he)
  · intro e he; exact absurd he List.not_mem_nil
  · rintro r ⟨⟩
    decide
  · rintro r ⟨⟩
    refine ⟨by decide, ?_⟩
    rintro w ⟨⟩
    exact legal_of_test (by decide)
  · intro line hl c hc
    obtain rfl : line = ['a', '\xff'] := by simpa using hl
    have : c = 'a' ∨ c = '\xff' := by simpa using hc
    rcases this with rfl | rfl <;> decide
  · intro w hw; exact absurd hw List.not_mem_nil

end Sys2Proof.Tests
end

section
/-! PROOFS of spec/00_scope.md: the range of store_integer, the exact arithmetic, the cycle's outcomes. First the layer
of lemmas they share: the digits of a rendering, Execute's frame, the delivery of faults and interrupts, and the
equations of `step`. -/

namespace Sys2Proof.Machine

/-! ### The digits of a rendering (R24) -/

/-- Only the rendering of 0 begins with the digit 0: a longer one would have a quotient of value 0 in front. -/
theorem digitsFuel_no_leading_zero : ∀ fuel n, n < fuel → (digitsFuel fuel n).head? = some '0' →
    digitsFuel fuel n = ['0']
  | 0, n, h, _ => by omega
  | fuel + 1, n, h, h0 => by
    unfold digitsFuel at h0 ⊢
    split at h0
    · rw [if_pos ‹_›]
      simpa using h0
    · rename_i h10
      have hvalue := digitsValue_digitsFuel fuel (n / 10) (by omega)
      cases hds : digitsFuel fuel (n / 10) with
      | nil =>
        rw [hds] at hvalue
        have : n / 10 = 0 := hvalue.symm
        omega
      | cons c t =>
        have ih := digitsFuel_no_leading_zero fuel (n / 10) (by omega) (by simpa [hds] using h0)
        rw [ih] at hvalue
        have : n / 10 = 0 := hvalue.symm
        omega

theorem renderNat_no_leading_zero {n : Nat} (h : (renderNat n).head? = some '0') : renderNat n = ['0'] :=
  digitsFuel_no_leading_zero (n + 1) n (by omega) h

theorem renderInt_eq (v : Int) : renderInt v = (if v < 0 then ['-'] else []) ++ renderNat v.natAbs := by
  unfold renderInt
  split <;> rfl

theorem intMax_eq (c : Config) : c.intMax = (10 : Int) ^ c.wordCap - 1 := by
  simp [Config.intMax]

theorem intMin_eq (c : Config) : c.intMin = -((10 : Int) ^ (c.wordCap - 1) - 1) := by
  simp [Config.intMin]

theorem intMin_nonpos (c : Config) : c.intMin ≤ 0 := by
  have : 0 < 10 ^ (c.wordCap - 1) := Nat.pow_pos (by omega)
  unfold Config.intMin
  omega

theorem storeInteger_of_fits {c : Config} {v : Int} (hc : 2 ≤ c.wordSize) (h : Fits c v) :
    storeInteger? c.wordCap v = some (integerWord v) :=
  if_pos ((renderInt_length_le hc v).mpr h)

theorem storeInteger_of_not_fits {c : Config} {v : Int} (hc : 2 ≤ c.wordSize) (h : ¬ Fits c v) :
    storeInteger? c.wordCap v = none :=
  if_neg (mt (renderInt_length_le hc v).mp h)

/-- Settles O7: the rendering is the sign and the digits of |v|, and its length decides the range. -/
theorem storeIntegerIsCanonicalWithinItsRange : Obligations.StoreIntegerIsCanonicalWithinItsRange := by
  unfold Obligations.StoreIntegerIsCanonicalWithinItsRange
  refine ⟨⟨rfl, digitsValue_append⟩, fun v => ⟨rfl, ?_⟩, fun c v hc => ?_⟩
  · exact ⟨renderNat v.natAbs, renderInt_eq v, renderNat_ne_nil _, fun _ => renderNat_isDigit,
      renderNat_no_leading_zero, digitsValue_renderNat _⟩
  · exact ⟨rfl, intMax_eq c, intMin_eq c, storeInteger_of_fits hc, storeInteger_of_not_fits hc⟩

/-! ### A result stored in a register (R170) -/

theorem setReg_onlyRegs (s : State) (r : Reg) (w : Word) : OnlyRegs [r] s (s.setReg r w) := by
  refine ⟨fun q hq => reg_setReg_other s w (by simpa using hq), fun _ => rfl, ?_, rfl, rfl⟩
  simp [SameDevices]

/-- An instruction whose whole body is `x[ra] <-i v` stores the result or raises WordOverflow. -/
theorem storesResult_of_setInt {i : Instr} {ra : Reg} {v : Int} {s : State} (hc : 2 ≤ s.cfg.wordSize)
    (hi : exec i s = commit s (setInt ra v s)) : StoresResult i ra v s := by
  refine ⟨fun hf => ?_, fun hf => ?_⟩
  · have hset := setInt_fits (r := ra) hc hf
    exact ⟨_, hi.trans (commit_ok hset), setInt_holds hset, setReg_onlyRegs s ra _⟩
  · exact hi.trans (commit_error (setInt_overflow hc hf))

/-- Settles O16: the five instructions are one `x[ra] <-i v` each, with their own `v`. -/
theorem arithmeticStoresTheExactResult : Obligations.ArithmeticStoresTheExactResult := by
  unfold Obligations.ArithmeticStoresTheExactResult
  intro s ra b hc
  exact ⟨⟨fun _ => ⟨rfl, rfl⟩, fun _ => rfl⟩, storesResult_of_setInt hc rfl, storesResult_of_setInt hc rfl,
    storesResult_of_setInt hc rfl, storesResult_of_setInt hc rfl, storesResult_of_setInt hc rfl⟩

/-! ### Execute: every instruction commits a body (R145, R150) -/

/-- The body LOADI, LOAD and STORE share: the operands validated, then the effect on page and block (R242). -/
def transferBody (page block : RegInt) (effect : Nat → Nat → State → State) (s : State) : Except Exn State :=
  match validateTransfer (intOf page s) (intOf block s) s with
  | .error e => .error e
  | .ok (p, b) => .ok (effect p b s)

/-- The pseudocode of an instruction, before `commit` keeps its state or delivers its fault. -/
def instrBody : Instr → State → Except Exn State
  | .mov dst src, s => moveWord dst src s
  | .port dst src, s => moveWord dst src s
  | .add ra b, s => setInt ra (s.xi ra + intOf b s) s
  | .sub ra b, s => setInt ra (s.xi ra - intOf b s) s
  | .mul ra b, s => setInt ra (s.xi ra * intOf b s) s
  | .div ra b, s => divideInto Int.tdiv ra b s
  | .mod ra b, s => divideInto Int.tmod ra b s
  | .inr ra, s => setInt ra (s.xi ra + 1) s
  | .dcr ra, s => setInt ra (s.xi ra - 1) s
  | .lt ra rb, s => .ok (compareInto .lt ra rb s)
  | .gt ra rb, s => .ok (compareInto .gt ra rb s)
  | .eq ra rb, s => .ok (compareInto .eq ra rb s)
  | .ne ra rb, s => .ok (compareInto .ne ra rb s)
  | .ge ra rb, s => .ok (compareInto .ge ra rb s)
  | .le ra rb, s => .ok (compareInto .le ra rb s)
  | .jz ra target, s => jumpWhen (decide (s.xi ra = 0)) target s
  | .jnz ra target, s => jumpWhen (!decide (s.xi ra = 0)) target s
  | .jmp target, s => jumpWhen (decide (asInteger s.zr = 0)) target s
  | .push ra, s => pushWord (s.reg ra) s
  | .pop ra, s => popInto ra s
  | .call target, s => callTo target s
  | .ret, s => popInto .ip s
  | .backup, s => pushRegs contextRegs s
  | .restore, s => popRegs contextRegs.reverse s
  | .int n, s => softwareInterrupt n s
  | .iret, s => returnFromTrap s
  | .loadi page block, s => transferBody page block readBlock s
  | .load page block, s => transferBody page block (issueDisk .load) s
  | .store page block, s => transferBody page block (issueDisk .store) s
  | .encrypt ra, s => .ok (s.setReg ra (encrypt s.cfg.wordCap (s.reg ra)))
  | .inp, s => .ok (issueConsole .read s)
  | .ini, s => .ok (readConsole s)
  | .out, s => .ok (issueConsole (.print (s.reg (.p 1))) s)
  | .brkp, s => .ok (callDebugHook (s.xi .ip) s)
  | .halt, s => .ok { s with status := .halted }

/-- Every arm of the dispatch is its body, committed. -/
theorem exec_eq_commit (i : Instr) (s : State) : exec i s = commit s (instrBody i s) := by
  cases i <;> rfl

theorem commit_exists_next (s : State) (body : Except Exn State) : ∃ t, commit s body = .next t := by
  cases body with
  | ok t => exact ⟨t, rfl⟩
  | error e => exact ⟨_, rfl⟩

/-- No instruction stops the model: a fault is delivered, and none is refused. -/
theorem exec_exists_next (i : Instr) (s : State) : ∃ t, exec i s = .next t :=
  exec_eq_commit i s ▸ commit_exists_next s (instrBody i s)

/-! ### Execute's frame -/

/-- What no completed instruction writes, HALT's own status aside: the launch parameters (R54), the timer and the
latches, which are the post-execute phase's (R299), the host's lines and the Words printed, and the run status. -/
structure ExecFrame (s t : State) : Prop where
  cfg : t.cfg = s.cfg
  timer : t.timer = s.timer
  timerPending : t.timerPending = s.timerPending
  diskPending : t.diskPending = s.diskPending
  consolePending : t.consolePending = s.consolePending
  consoleIn : t.consoleIn = s.consoleIn
  consoleOut : t.consoleOut = s.consoleOut
  status : t.status = s.status

theorem ExecFrame.refl (s : State) : ExecFrame s s := ⟨rfl, rfl, rfl, rfl, rfl, rfl, rfl, rfl⟩

theorem ExecFrame.trans {s t u : State} (h : ExecFrame s t) (k : ExecFrame t u) : ExecFrame s u :=
  ⟨k.cfg.trans h.cfg, k.timer.trans h.timer, k.timerPending.trans h.timerPending,
    k.diskPending.trans h.diskPending, k.consolePending.trans h.consolePending, k.consoleIn.trans h.consoleIn,
    k.consoleOut.trans h.consoleOut, k.status.trans h.status⟩

/-- The fields Execute writes: registers, memory, mode, device records, block store, input position. -/
theorem ExecFrame.of_writes (s : State) (regs : Vector Word 33) (mem : Memory) (mode : Mode)
    (disk : Option DiskRequest) (console : Option ConsoleRequest) (blocks : Memory) (pos : Nat) :
    ExecFrame s { s with
      regs := regs, mem := mem, mode := mode, disk := disk, console := console, blocks := blocks,
      consoleInPos := pos } :=
  ⟨rfl, rfl, rfl, rfl, rfl, rfl, rfl, rfl⟩

theorem setReg_execFrame (s : State) (r : Reg) (w : Word) : ExecFrame s (s.setReg r w) := .of_writes ..

theorem setInt_execFrame {r : Reg} {v : Int} {s t : State} (h : setInt r v s = .ok t) : ExecFrame s t := by
  obtain ⟨rfl, -⟩ := setInt_ok h
  exact setReg_execFrame ..

theorem moveWord_execFrame {d : Dst} {o : Src} {s t : State} (h : moveWord d o s = .ok t) : ExecFrame s t := by
  obtain ⟨w, -, hw⟩ := moveWord_ok h
  obtain ⟨r, -, rfl⟩ | ⟨_, _, pa, -, -, -, rfl⟩ := writeTo_ok hw
  · exact setReg_execFrame ..
  · exact .of_writes ..

theorem jumpTo_execFrame {target : Int} {s t : State} (h : jumpTo target s = .ok t) : ExecFrame s t := by
  obtain ⟨pa, -, -, rfl⟩ := jumpTo_ok h
  exact setReg_execFrame ..

theorem jumpWhen_execFrame {taken : Bool} {target : Int} {s t : State} (h : jumpWhen taken target s = .ok t) :
    ExecFrame s t := by
  obtain ⟨-, hj⟩ | ⟨-, rfl⟩ := jumpWhen_ok h
  · exact jumpTo_execFrame hj
  · exact .refl _

theorem pushWord_execFrame {w : Word} {s t : State} (h : pushWord w s = .ok t) : ExecFrame s t := by
  obtain ⟨pa, -, -, -, rfl⟩ := pushWord_ok h
  exact .of_writes ..

theorem popInto_execFrame {r : Reg} {s t : State} (h : popInto r s = .ok t) : ExecFrame s t := by
  obtain ⟨pa, -, -, -, rfl⟩ := popInto_ok h
  exact .of_writes ..

theorem callTo_execFrame {target : Int} {s t : State} (h : callTo target s = .ok t) : ExecFrame s t := by
  obtain ⟨u, hpush, hjump⟩ := callTo_ok h
  exact (pushWord_execFrame hpush).trans (jumpTo_execFrame hjump)

theorem pushRegs_execFrame : ∀ {rs : List Reg} {s t : State}, pushRegs rs s = .ok t → ExecFrame s t
  | [], s, t, h => by cases h; exact .refl s
  | r :: rs, s, t, h => by
    unfold pushRegs at h
    split at h
    · cases h
    · rename_i u hu
      exact (pushWord_execFrame hu).trans (pushRegs_execFrame h)

theorem popRegs_execFrame : ∀ {rs : List Reg} {s t : State}, popRegs rs s = .ok t → ExecFrame s t
  | [], s, t, h => by cases h; exact .refl s
  | r :: rs, s, t, h => by
    unfold popRegs at h
    split at h
    · cases h
    · rename_i u hu
      exact (popInto_execFrame hu).trans (popRegs_execFrame h)

theorem trapEntry_execFrame {n : Nat} {s t : State} (h : trapEntry n s = .ok t) : ExecFrame s t := by
  obtain ⟨pa, -, -, -, -, rfl⟩ := trapEntry_ok h
  exact .of_writes ..

theorem returnFromTrap_execFrame {s t : State} (h : returnFromTrap s = .ok t) : ExecFrame s t := by
  obtain ⟨pa, -, -, -, rfl⟩ := returnFromTrap_ok h
  exact .of_writes ..

theorem transferBody_execFrame {page block : RegInt} {effect : Nat → Nat → State → State} {s t : State}
    (heffect : ∀ p b, ExecFrame s (effect p b s)) (h : transferBody page block effect s = .ok t) :
    ExecFrame s t := by
  unfold transferBody at h
  split at h
  · cases h
  · exact Except.ok.inj h ▸ heffect _ _

theorem issueDisk_execFrame (op : DiskOp) (p b : Nat) (s : State) : ExecFrame s (issueDisk op p b s) := by
  obtain ⟨-, h⟩ | ⟨-, h⟩ := issueDisk_cases op p b s <;> rw [h]
  · exact .refl s
  · exact .of_writes ..

theorem issueConsole_execFrame (op : ConsoleOp) (s : State) : ExecFrame s (issueConsole op s) := by
  obtain ⟨-, h⟩ | ⟨-, h⟩ := issueConsole_cases op s <;> rw [h]
  · exact .refl s
  · exact .of_writes ..

/-- Every instruction but HALT keeps the frame, case by case through the operation its body is. -/
theorem instrBody_execFrame {i : Instr} {s t : State} (hi : i ≠ .halt) (h : instrBody i s = .ok t) :
    ExecFrame s t := by
  cases i with
  | mov | port => exact moveWord_execFrame h
  | add | sub | mul | inr | dcr => exact setInt_execFrame h
  | div | mod => exact setInt_execFrame (divideInto_ok h).2
  | lt | gt | eq | ne | ge | le | encrypt => exact Except.ok.inj h ▸ setReg_execFrame ..
  | jz | jnz | jmp => exact jumpWhen_execFrame h
  | push => exact pushWord_execFrame h
  | pop | ret => exact popInto_execFrame h
  | call => exact callTo_execFrame h
  | backup => exact pushRegs_execFrame h
  | restore => exact popRegs_execFrame h
  | int => exact trapEntry_execFrame (softwareInterrupt_ok h).2
  | iret => exact returnFromTrap_execFrame h
  | loadi => exact transferBody_execFrame (fun _ _ => .of_writes ..) h
  | load | store => exact transferBody_execFrame (fun _ _ => issueDisk_execFrame ..) h
  | inp | out => exact Except.ok.inj h ▸ issueConsole_execFrame ..
  | ini => exact Except.ok.inj h ▸ .of_writes ..
  | brkp => exact Except.ok.inj h ▸ (callDebugHook_eq _ s).symm ▸ .refl s
  | halt => exact absurd rfl hi

/-! ### The run status along a cycle (R53) -/

/-- The status is kept or becomes Crashed: what the delivery of a fault or an interrupt can do to it. -/
def KeptOrCrashed (a b : Status) : Prop := b = a ∨ ∃ k, b = .crashed k

theorem KeptOrCrashed.ne_halted {a b : Status} (h : KeptOrCrashed a b) (ha : a ≠ .halted) : b ≠ .halted := by
  obtain rfl | ⟨k, rfl⟩ := h
  · exact ha
  · exact Status.noConfusion

/-- The delivery of a fault leaves everything but registers, memory, mode and status alone, and the status is kept or
becomes Crashed (R279, R281, R282). -/
theorem deliverFault_frame (e : Exn) (ia : Int) (s : State) :
    ∃ regs mem mode status, KeptOrCrashed s.status status ∧
      deliverFault e ia s = { s with regs := regs, mem := mem, mode := mode, status := status } := by
  obtain ⟨regs, hw⟩ := writeExceptionRegs_frame e ia s
  obtain ⟨-, h⟩ | ⟨-, t, ht, h⟩ | ⟨-, h⟩ := deliverFault_cases e ia s
  · exact ⟨_, _, _, _, .inr ⟨_, rfl⟩, h⟩
  · rw [hw] at ht
    obtain ⟨pa, -, -, -, -, rfl⟩ := trapEntry_ok ht
    exact ⟨_, _, _, _, .inl rfl, h⟩
  · rw [hw] at h
    exact ⟨_, _, _, _, .inr ⟨_, rfl⟩, h⟩

theorem deliverFault_status (e : Exn) (ia : Int) (s : State) :
    KeptOrCrashed s.status (deliverFault e ia s).status := by
  obtain ⟨_, _, _, _, hstatus, h⟩ := deliverFault_frame e ia s
  rw [h]
  exact hstatus

theorem deliverFault_disk (e : Exn) (ia : Int) (s : State) : (deliverFault e ia s).disk = s.disk := by
  obtain ⟨_, _, _, _, -, h⟩ := deliverFault_frame e ia s
  rw [h]

theorem deliverFault_console (e : Exn) (ia : Int) (s : State) : (deliverFault e ia s).console = s.console := by
  obtain ⟨_, _, _, _, -, h⟩ := deliverFault_frame e ia s
  rw [h]

theorem timerTick_status (s : State) : (timerTick s).status = s.status := by
  obtain ⟨-, h⟩ | ⟨-, -, h⟩ | ⟨-, -, h⟩ := timerTick_cases s <;> rw [h]

theorem transfer_status (r : DiskRequest) (s : State) : (transfer r s).status = s.status := by
  unfold transfer
  split <;> rfl

theorem diskTick_status (s : State) : (diskTick s).status = s.status := by
  obtain ⟨-, h⟩ | ⟨r, -, -, h⟩ | ⟨r, -, -, h⟩ := diskTick_cases s <;> rw [h]
  exact transfer_status r s

theorem consoleTransfer_status (op : ConsoleOp) (s : State) : (consoleTransfer op s).status = s.status := by
  unfold consoleTransfer
  split <;> rfl

theorem consoleTick_status (s : State) : (consoleTick s).status = s.status := by
  obtain ⟨-, h⟩ | ⟨r, -, -, h⟩ | ⟨r, -, -, h⟩ := consoleTick_cases s <;> rw [h]
  exact consoleTransfer_status r.op s

theorem clearLatch_status (src : Source) (s : State) : (clearLatch src s).status = s.status := by
  cases src <;> rfl

theorem deliverInterrupt_status (s : State) : KeptOrCrashed s.status (deliverInterrupt s).status := by
  obtain ⟨-, h⟩ | ⟨src, -, -, ⟨t, ht, h⟩ | ⟨e, -, h⟩⟩ := deliverInterrupt_cases s
  · exact .inl (by rw [h])
  · exact .inl (by rw [h, clearLatch_status, (trapEntry_execFrame ht).status])
  · exact .inr ⟨_, by rw [h, crash_status]⟩

/-- A device's tick keeps the status, skipped in this cycle or not. -/
theorem skippableTick_status {tick : State → State} (htick : ∀ u, (tick u).status = u.status) (skip : Bool)
    (s : State) : (if skip then s else tick s).status = s.status := by
  split
  · rfl
  · exact htick s

/-- The ticks keep the status; only the delivery of an interrupt may crash the machine. -/
theorem postExecute_status (d c : Bool) (s : State) : KeptOrCrashed s.status (postExecute d c s).status := by
  have hdisk := (skippableTick_status diskTick_status d (timerTick s)).trans (timerTick_status s)
  have hconsole := (skippableTick_status consoleTick_status c _).trans hdisk
  exact hconsole ▸ deliverInterrupt_status _

/-- A cycle that ends in Halted was halted by its Execute, and ended there (R262). -/
theorem finishCycle_halted {before after : State} (h : (finishCycle before after).status = .halted) :
    after.status = .halted ∧ finishCycle before after = after := by
  obtain ⟨hrun, heq⟩ | ⟨-, heq⟩ := finishCycle_cases before after
  · rw [heq] at h
    exact absurd h ((postExecute_status _ _ after).ne_halted (by simp [hrun]))
  · exact ⟨heq ▸ h, heq⟩

/-- Of all instructions, only HALT halts a running machine (R262). -/
theorem exec_halted {i : Instr} {s t : State} (h : exec i s = .next t) (hrun : s.status = .running)
    (ht : t.status = .halted) : i = .halt ∧ t = { s with status := .halted } := by
  have hs : s.status ≠ .halted := by simp [hrun]
  rw [exec_eq_commit] at h
  obtain hok | ⟨e, -, rfl⟩ := commit_next h
  · by_cases hi : i = .halt
    · subst hi
      exact ⟨rfl, (Except.ok.inj hok).symm⟩
    · exact absurd ((instrBody_execFrame hi hok).status ▸ ht) hs
  · exact absurd ht ((deliverFault_status ..).ne_halted hs)

theorem advance_execFrame {s s1 : State} (h : advance s = .ok s1) : ExecFrame s s1 := setInt_execFrame h

/-- Settles O41: a delivered fault and the post-execute phase keep the status or crash, so the halt is Execute's. -/
theorem onlyHaltHalts : Obligations.OnlyHaltHalts := by
  unfold Obligations.OnlyHaltHalts
  intro s t hstep ht
  have faulted : ∀ (u before : State) (e : Exn) (ia : Int), u.status = .running →
      t ≠ finishCycle before (deliverFault e ia u) := by
    rintro u before e ia hu rfl
    exact (deliverFault_status e ia u).ne_halted (by simp [hu]) (finishCycle_halted ht).1
  obtain ⟨hrun, ⟨e, -, h⟩ | ⟨_, e, -, -, h⟩ | ⟨_, s1, e, -, hadv, -, h⟩ |
    ⟨text, s1, i, u, hfetch, hadv, hdec, hexec, rfl⟩⟩ := step_next hstep
  · exact absurd h (faulted s s _ _ hrun)
  · exact absurd h (faulted s s _ _ hrun)
  · exact absurd h (faulted s1 s1 _ _ ((advance_execFrame hadv).status.trans hrun))
  · obtain ⟨hu, heq⟩ := finishCycle_halted ht
    obtain ⟨rfl, hhalt⟩ := exec_halted hexec ((advance_execFrame hadv).status.trans hrun) hu
    exact ⟨text, s1, hfetch, hdec, hadv, heq.trans hhalt⟩

/-! ### The equations of the step (R140) -/

theorem step_of_fetch_error {s : State} {e : Exn} (hrun : s.status = .running) (hf : fetch s = .error e) :
    step s = .next (finishCycle s (deliverFault e (s.xi .ip) s)) := by
  simp [step, hrun, hf, faultCycle]

theorem step_of_advance_error {s : State} {text : Text} {e : Exn} (hrun : s.status = .running)
    (hf : fetch s = .ok text) (ha : advance s = .error e) :
    step s = .next (finishCycle s (deliverFault e (s.xi .ip) s)) := by
  simp [step, hrun, hf, ha, faultCycle]

theorem step_of_decode_error {s s1 : State} {text : Text} {d : DecodeError} (hrun : s.status = .running)
    (hf : fetch s = .ok text) (ha : advance s = .ok s1) (hd : decode text = .error d) :
    step s = .next (finishCycle s1 (deliverFault (decodeFault d) (s.xi .ip) s1)) := by
  simp [step, hrun, hf, ha, hd, faultCycle]

theorem step_of_exec {s s1 t : State} {text : Text} {i : Instr} (hrun : s.status = .running)
    (hf : fetch s = .ok text) (ha : advance s = .ok s1) (hd : decode text = .ok i) (he : exec i s1 = .next t) :
    step s = .next (finishCycle s1 t) := by
  simp [step, hrun, hf, ha, hd, he, completeCycle]

/-- Settles O42: each part of the cycle answers or raises, and every raise is delivered. -/
theorem onlyAFinishedRunStops : Obligations.OnlyAFinishedRunStops := by
  unfold Obligations.OnlyAFinishedRunStops
  refine ⟨fun s hrun => ?_, fun s h => by simp [step, h], fun s k h => by simp [step, h]⟩
  cases hf : fetch s with
  | error e => exact ⟨_, step_of_fetch_error hrun hf⟩
  | ok text =>
    cases ha : advance s with
    | error e => exact ⟨_, step_of_advance_error hrun hf ha⟩
    | ok s1 =>
      cases hd : decode text with
      | error d => exact ⟨_, step_of_decode_error hrun hf ha hd⟩
      | ok i =>
        obtain ⟨t, ht⟩ := exec_exists_next i s1
        exact ⟨_, step_of_exec hrun hf ha hd ht⟩

/-! ### The parts of the cycle (R141, R142, R299) -/

theorem finishCycle_eq (before after : State) :
    finishCycle before after = if after.status = .running then
      postExecute (before.disk.isNone && after.disk.isSome) (before.console.isNone && after.console.isSome) after
      else after := by
  obtain ⟨hrun, h⟩ | ⟨hstop, h⟩ := finishCycle_cases before after
  · rw [h, if_pos hrun, issuedDisk, issuedConsole]
  · rw [h, if_neg hstop]

/-- A delivered fault issues no request, so both devices tick (R246, R260). -/
theorem finishCycle_deliverFault (e : Exn) (ia : Int) (s : State) :
    finishCycle s (deliverFault e ia s) = if (deliverFault e ia s).status = .running then
      postExecute false false (deliverFault e ia s) else deliverFault e ia s := by
  rw [finishCycle_eq, deliverFault_disk, deliverFault_console]
  cases s.disk <;> cases s.console <;> rfl

theorem advance_ok {s s1 : State} (h : advance s = .ok s1) :
    HoldsInt s1 .ip (s.xi .ip + s.cfg.instrSize) ∧ OnlyRegs [.ip] s s1 := by
  obtain ⟨rfl, -⟩ := setInt_ok h
  exact ⟨setInt_holds h, setReg_onlyRegs s .ip _⟩

/-- After the advance, the address of the instruction in execution is the one it was fetched from (R14). -/
theorem advance_currentInstr {s s1 : State} (h : advance s = .ok s1) : s1.currentInstr = s.xi .ip := by
  have hip : s1.xi .ip = s.xi .ip + s.cfg.instrSize := (advance_ok h).1.2
  rw [State.currentInstr, hip, (advance_execFrame h).cfg]
  omega

/-- A slot that was fetched begins inside memory (R141). -/
theorem fetch_inMemory {s : State} {text : Text} (hsize : 1 ≤ s.cfg.instrSize) (h : fetch s = .ok text) :
    s.inMemory (s.xi .ip) := by
  obtain ⟨n, hn⟩ : ∃ n, s.cfg.instrSize = n + 1 := ⟨s.cfg.instrSize - 1, by omega⟩
  rw [fetch, hn, fetchText] at h
  split at h
  · cases h
  · exact (physRead_ok ‹_›).1

/-- R5's joint constraint makes the IP of a fetched slot advance. -/
theorem advance_of_fetch {s : State} {text : Text} (hv : s.cfg.Valid) (h : fetch s = .ok text) :
    ∃ s1, advance s = .ok s1 := by
  obtain ⟨hword, -, -, hinstr, -, hjoint⟩ := hv
  obtain ⟨hlow, hhigh⟩ := fetch_inMemory hinstr h
  have hmin := intMin_nonpos s.cfg
  exact ⟨_, setInt_fits hword ⟨by omega, by omega⟩⟩

/-- Settles O55: IP's advance is one `x[IP] <-i v`, so R5's joint constraint makes it fit; the rest is the step's
equation. -/
theorem stepRunsTheDecodedInstruction : Obligations.StepRunsTheDecodedInstruction := by
  unfold Obligations.StepRunsTheDecodedInstruction
  refine ⟨fun s s1 t text i hrun hf ha hd he => ?_, fun s text => advance_of_fetch, fun _ _ _ => rfl⟩
  obtain ⟨hip, honly⟩ := advance_ok ha
  exact ⟨hip, honly, advance_currentInstr ha, by rw [step_of_exec hrun hf ha hd he, finishCycle_eq]⟩

/-- Settles O56: a delivered fault issues no device request, so the cycle ends with both ticks. -/
theorem stepDeliversFetchAndDecodeFaults : Obligations.StepDeliversFetchAndDecodeFaults := by
  unfold Obligations.StepDeliversFetchAndDecodeFaults
  refine ⟨⟨rfl, rfl, fun _ => rfl⟩, fun s hrun => ⟨fun e hf => ?_,
    fun text e hf ha => ⟨setInt_error ha, ?_⟩, fun text s1 d hf ha hd => ?_⟩⟩
  · rw [step_of_fetch_error hrun hf, finishCycle_deliverFault]
  · rw [step_of_advance_error hrun hf ha, finishCycle_deliverFault]
  · rw [step_of_decode_error hrun hf ha hd, finishCycle_deliverFault]

end Sys2Proof.Machine
end

section
/-! PROOFS of spec/10_state.md: what a Word's text means, register lookup, reset, and the invariant. First the layer
they share: one relation that says what a single write of the machine can be, with every operation of the cycle a
sequence of such writes. -/

namespace Sys2Proof

/-! ### Decoding takes an instruction's literal out of the slot's text (R108) -/

/-- The string literal of a token. -/
def Token.literal : Token → Text
  | .str s => s
  | _ => []

/-- The string literal of an operand. -/
def RawOperand.literal : RawOperand → Text
  | .str s => s
  | _ => []

/-- A scan of `t` that finds a token takes its literal and the rest from the characters of `t`. -/
def Scan.Within (t : Text) : Scan → Prop
  | .token tok rest => tok.literal ⊆ t ∧ rest ⊆ t
  | _ => True

theorem scanIdentifier_within (first : Bool) (c : Char) (t : Text) : (scanIdentifier first c t).Within (c :: t) := by
  refine ⟨?_, List.subset_cons_of_subset c (List.dropWhile_suffix _).subset⟩
  cases first <;> exact List.nil_subset _

theorem scanInteger_within (negative : Bool) (t : Text) : (scanInteger negative t).Within t := by
  unfold scanInteger
  split
  · trivial
  · exact ⟨List.nil_subset _, (List.dropWhile_suffix _).subset⟩

theorem scanString_within (t : Text) : (scanString t).Within t := by
  unfold scanString
  split
  · trivial
  · rename_i rest h
    have hrest : rest ⊆ t.dropWhile (· != '"') := h ▸ List.subset_cons_self _ _
    exact ⟨(List.takeWhile_prefix _).subset, List.Subset.trans hrest (List.dropWhile_suffix _).subset⟩

theorem Scan.Within.mono {t u : Text} {r : Scan} (h : r.Within t) (htu : t ⊆ u) : r.Within u := by
  cases r with
  | token tok rest => exact ⟨List.Subset.trans h.1 htu, List.Subset.trans h.2 htu⟩
  | finished | bad => trivial

theorem scan_within (first : Bool) (t : Text) : (scan first t).Within t := by
  unfold scan
  split
  · trivial
  · rename_i c rest h
    have hall : c :: rest ⊆ t := h ▸ (List.dropWhile_suffix _).subset
    have hrest : rest ⊆ t := List.Subset.trans (List.subset_cons_self c rest) hall
    have hmark : ∀ tok : Token, tok.literal = [] → (Scan.token tok rest).Within t :=
      fun tok htok => ⟨htok ▸ List.nil_subset t, hrest⟩
    split_ifs
    · exact (scanIdentifier_within first c rest).mono hall
    · exact (scanInteger_within false _).mono hall
    · exact (scanInteger_within false _).mono hrest
    · exact (scanInteger_within true _).mono hrest
    · exact (scanString_within rest).mono hrest
    · exact hmark .comma rfl
    · exact hmark .openBracket rfl
    · exact hmark .closeBracket rfl
    · trivial

theorem scan_token_subset {first : Bool} {t rest : Text} {tok : Token} (h : scan first t = .token tok rest) :
    tok.literal ⊆ t ∧ rest ⊆ t := by
  have hw := scan_within first t
  rwa [h] at hw

theorem tokensFuel_literal : ∀ {fuel : Nat} {t : Text} {toks : List Token}, tokensFuel fuel t = some toks →
    ∀ tok ∈ toks, tok.literal ⊆ t
  | 0, _, _, h => by cases h
  | fuel + 1, t, toks, h => by
    unfold tokensFuel at h
    split at h
    · cases h
      exact fun _ hmem => absurd hmem List.not_mem_nil
    · cases h
    · rename_i tok rest hscan
      obtain ⟨htok, hrest⟩ := scan_token_subset hscan
      split at h
      · cases h
      · rename_i later hlater
        cases h
        exact List.forall_mem_cons.mpr
          ⟨htok, fun x hx => List.Subset.trans (tokensFuel_literal hlater x hx) hrest⟩

/-- An operand takes its literal from a token, and leaves later tokens. -/
theorem parseOperand_literal {t : Text} {ts rest : List Token} {op : RawOperand}
    (hts : ∀ tok ∈ ts, tok.literal ⊆ t) (h : parseOperand ts = some (op, rest)) :
    op.literal ⊆ t ∧ ∀ tok ∈ rest, tok.literal ⊆ t := by
  unfold parseOperand at h
  split at h <;> cases h <;> simp_all [RawOperand.literal, Token.literal]

theorem parseOperands_literal {t : Text} {ts : List Token} {ops : List RawOperand}
    (hts : ∀ tok ∈ ts, tok.literal ⊆ t) (h : parseOperands ts = some ops) : ∀ op ∈ ops, op.literal ⊆ t := by
  unfold parseOperands at h
  split at h
  · cases h
    exact fun _ hmem => absurd hmem List.not_mem_nil
  · split at h
    · rename_i a ha
      cases h
      exact List.forall_mem_singleton.mpr (parseOperand_literal hts ha).1
    · rename_i a rest ha
      obtain ⟨hfirst, hrest⟩ := parseOperand_literal hts ha
      split at h
      · rename_i b hb
        cases h
        have hsecond := (parseOperand_literal (List.forall_mem_cons.mp hrest).2 hb).1
        exact List.forall_mem_cons.mpr ⟨hfirst, List.forall_mem_singleton.mpr hsecond⟩
      · cases h
    · cases h

theorem except_bind_ok {α β : Type} {x : Except DecodeError α} {f : α → Except DecodeError β} {b : β}
    (h : x.bind f = .ok b) : ∃ a, x = .ok a ∧ f a = .ok b := by
  cases x with
  | ok a => exact ⟨a, rfl, h⟩
  | error e => cases h

theorem except_map_ok {α β : Type} {x : Except DecodeError α} {f : α → β} {b : β}
    (h : x.map f = .ok b) : ∃ a, x = .ok a ∧ f a = b := by
  cases x with
  | ok a => exact ⟨a, rfl, Except.ok.inj h⟩
  | error e => cases h

/-- A builder takes the literal of what it builds from its operands. -/
def Builder.LiteralWithin (build : Builder) : Prop :=
  ∀ (t : Text) (ops : List RawOperand) (i : Instr), build ops = .ok i → (∀ op ∈ ops, op.literal ⊆ t) → i.literal ⊆ t

/-- A builder of instructions that hold no literal takes none. -/
theorem literalWithin_of_nil {build : Builder} (h : ∀ ops i, build ops = .ok i → i.literal = []) :
    build.LiteralWithin :=
  fun t ops i hi _ => h ops i hi ▸ List.nil_subset t

theorem shapeNone_literalWithin {i : Instr} (hi : i.literal = []) : Builder.LiteralWithin (shapeNone i) := by
  refine literalWithin_of_nil fun ops j h => ?_
  unfold shapeNone at h
  split at h
  · exact Except.ok.inj h ▸ hi
  · cases h

theorem shapeR_literalWithin {mk : Reg → Instr} (hmk : ∀ a, (mk a).literal = []) :
    Builder.LiteralWithin (shapeR mk) := by
  refine literalWithin_of_nil fun ops i h => ?_
  unfold shapeR at h
  split at h
  · obtain ⟨a, -, rfl⟩ := except_map_ok h
    exact hmk a
  · cases h

theorem shapeI_literalWithin {mk : Int → Instr} (hmk : ∀ v, (mk v).literal = []) :
    Builder.LiteralWithin (shapeI mk) := by
  refine literalWithin_of_nil fun ops i h => ?_
  unfold shapeI at h
  split at h
  · exact Except.ok.inj h ▸ hmk _
  · cases h

theorem shapeRR_literalWithin {mk : Reg → Reg → Instr} (hmk : ∀ a b, (mk a b).literal = []) :
    Builder.LiteralWithin (shapeRR mk) := by
  refine literalWithin_of_nil fun ops i h => ?_
  unfold shapeRR at h
  split at h
  · obtain ⟨a, -, hb⟩ := except_bind_ok h
    obtain ⟨b, -, rfl⟩ := except_map_ok hb
    exact hmk a b
  · cases h

theorem shapeRI_literalWithin {mk : Reg → Int → Instr} (hmk : ∀ a v, (mk a v).literal = []) :
    Builder.LiteralWithin (shapeRI mk) := by
  refine literalWithin_of_nil fun ops i h => ?_
  unfold shapeRI at h
  split at h
  · obtain ⟨a, -, rfl⟩ := except_map_ok h
    exact hmk a _
  · cases h

theorem shapeRRi_literalWithin {mk : Reg → RegInt → Instr} (hmk : ∀ a b, (mk a b).literal = []) :
    Builder.LiteralWithin (shapeRRi mk) := by
  refine literalWithin_of_nil fun ops i h => ?_
  unfold shapeRRi at h
  split at h
  · obtain ⟨a, -, hb⟩ := except_bind_ok h
    obtain ⟨b, -, rfl⟩ := except_map_ok hb
    exact hmk a _
  · obtain ⟨a, -, rfl⟩ := except_map_ok h
    exact hmk a _
  · cases h

theorem shapeRiRi_literalWithin {mk : RegInt → RegInt → Instr} (hmk : ∀ a b, (mk a b).literal = []) :
    Builder.LiteralWithin (shapeRiRi mk) := by
  refine literalWithin_of_nil fun ops i h => ?_
  unfold shapeRiRi at h
  split at h
  · obtain ⟨a, -, hb⟩ := except_bind_ok h
    obtain ⟨b, -, rfl⟩ := except_map_ok hb
    exact hmk _ _
  · obtain ⟨a, -, rfl⟩ := except_map_ok h
    exact hmk _ _
  · obtain ⟨b, -, rfl⟩ := except_map_ok h
    exact hmk _ _
  · exact Except.ok.inj h ▸ hmk _ _
  · cases h

/-- Resolving a source operand's names keeps its literal. -/
theorem toSrc_literal {op : RawOperand} {o : Src} (h : op.toSrc = .ok o) : o.raw.literal = op.literal := by
  cases op with
  | reg n =>
    obtain ⟨r, -, rfl⟩ := except_map_ok h
    rfl
  | int v => cases h; rfl
  | str s => cases h; rfl
  | mem b off =>
    obtain ⟨base, -, rfl⟩ := except_map_ok h
    rfl

theorem shapeMove_literalWithin {mk : Dst → Src → Instr} (hmk : ∀ d o, (mk d o).literal = o.raw.literal) :
    Builder.LiteralWithin (shapeMove mk) := by
  intro t ops i h hops
  have source : ∀ (dst src : RawOperand) (d : Dst), ops = [dst, src] → src.toSrc.map (mk d) = .ok i →
      i.literal ⊆ t := by
    rintro dst src d rfl hsrc
    obtain ⟨o, ho, rfl⟩ := except_map_ok hsrc
    rw [hmk, toSrc_literal ho]
    exact hops src (by simp)
  unfold shapeMove at h
  split at h
  · obtain ⟨a, -, hsrc⟩ := except_bind_ok h
    exact source _ _ _ rfl hsrc
  · obtain ⟨base, -, hsrc⟩ := except_bind_ok h
    exact source _ _ _ rfl hsrc
  · cases h

theorem literal_mov (d : Dst) (o : Src) : (Instr.mov d o).literal = o.raw.literal := by cases o <;> rfl

theorem literal_port (d : Dst) (o : Src) : (Instr.port d o).literal = o.raw.literal := by cases o <;> rfl

/-- The rows of the opcode map, in its order: only MOV and PORT take a literal (R120). -/
theorem opcodeMap_literalWithin : ∀ row ∈ opcodeMap, row.2.LiteralWithin := by
  have rowMove := @shapeMove_literalWithin
  have rowRRi := @shapeRRi_literalWithin
  have rowR := @shapeR_literalWithin
  have rowRR := @shapeRR_literalWithin
  have rowRI := @shapeRI_literalWithin
  have rowI := @shapeI_literalWithin
  have rowNone := @shapeNone_literalWithin
  have rowRiRi := @shapeRiRi_literalWithin
  simp only [opcodeMap, List.forall_mem_cons]
  exact ⟨rowMove literal_mov, rowMove literal_port,
    rowRRi fun _ _ => rfl, rowRRi fun _ _ => rfl, rowRRi fun _ _ => rfl, rowRRi fun _ _ => rfl, rowRRi fun _ _ => rfl,
    rowR fun _ => rfl, rowR fun _ => rfl,
    rowRR fun _ _ => rfl, rowRR fun _ _ => rfl, rowRR fun _ _ => rfl,
    rowRR fun _ _ => rfl, rowRR fun _ _ => rfl, rowRR fun _ _ => rfl,
    rowRI fun _ _ => rfl, rowRI fun _ _ => rfl, rowI fun _ => rfl,
    rowR fun _ => rfl, rowR fun _ => rfl,
    rowI fun _ => rfl, rowNone rfl,
    rowNone rfl, rowNone rfl,
    rowI fun _ => rfl, rowNone rfl,
    rowRiRi fun _ _ => rfl, rowRiRi fun _ _ => rfl, rowRiRi fun _ _ => rfl,
    rowR fun _ => rfl,
    rowNone rfl, rowNone rfl, rowNone rfl, rowNone rfl, rowNone rfl,
    fun _ h => absurd h List.not_mem_nil⟩

theorem builderOf_literalWithin {k : Text} {build : Builder} (h : builderOf k = some build) :
    build.LiteralWithin := by
  unfold builderOf at h
  split at h
  · rename_i row hrow
    cases h
    exact opcodeMap_literalWithin row (List.mem_of_find?_eq_some hrow)
  · cases h

/-- What a decoded text is made of: a keyword with its row, tokens, operands, and what the row builds (R128). -/
theorem decode_ok {t : Text} {i : Instr} (h : decode t = .ok i) :
    ∃ k rest build toks ops, scan true t = .token (.keyword k) rest ∧ builderOf k = some build ∧
      tokens rest = some toks ∧ parseOperands toks = some ops ∧ build ops = .ok i := by
  unfold decode at h
  split at h
  · split at h
    · cases h
    · split at h
      · cases h
      · split at h
        · cases h
        · exact ⟨_, _, _, _, _, ‹_›, ‹_›, ‹_›, ‹_›, h⟩
  · cases h

/-- The literal of a decoded instruction is made of characters of the slot's text. -/
theorem decode_literal {t : Text} {i : Instr} (h : decode t = .ok i) : i.literal ⊆ t := by
  obtain ⟨k, rest, build, toks, ops, hscan, hbuild, htoks, hops, hi⟩ := decode_ok h
  have hrest : rest ⊆ t := (scan_token_subset hscan).2
  have htokens : ∀ tok ∈ toks, tok.literal ⊆ rest := tokensFuel_literal htoks
  have hoperands : ∀ op ∈ ops, op.literal ⊆ rest := parseOperands_literal htokens hops
  exact List.Subset.trans (builderOf_literalWithin hbuild rest ops i hi hoperands) hrest

end Sys2Proof

namespace Sys2Proof.Machine

/-! ### The writes of a cycle -/

/-- An instruction whose string literal has legal characters, as every decoded slot of a legal memory has (R20). -/
abbrev LegalLiteral (i : Instr) : Prop := ∀ c ∈ i.literal, LegalChar c

/-- One write of the machine to its own state: a register of `W`, one of the two stores, the timer, a device's record,
the control fields, the input position, or a printed Word. Each constructor asks that what it writes is fit for the
invariant when the state written to meets it. `L` is what the legality of a Word may rest on beyond that: an
instruction's literal comes from the slot, not from the state it runs on (R108, R148). -/
inductive Update (W : Reg → Prop) (L : Prop) (s : State) : State → Prop
  | setReg (r : Reg) (w : Word) (hr : W r) (hw : L → s.Inv → w.Legal s.cfg.wordCap) : Update W L s (s.setReg r w)
  | mem (m : Memory) (hm : L → s.Inv → m.Sound s.cfg.memorySize s.cfg.wordCap) : Update W L s { s with mem := m }
  | blocks (m : Memory) (hm : s.Inv → m.Sound (s.cfg.numBlocks * s.cfg.pageSize) s.cfg.wordCap) :
    Update W L s { s with blocks := m }
  | timer (v : Int) (hv : s.Inv → 0 < s.cfg.timerInterval → 1 ≤ v ∧ v ≤ s.cfg.timerInterval) :
    Update W L s { s with timer := v }
  | disk (d : Option DiskRequest) (hd : s.Inv → ∀ r, d = some r →
      r.remaining ≤ s.cfg.diskLatency ∧ r.page < s.cfg.numPages ∧ r.block < s.cfg.numBlocks) :
    Update W L s { s with disk := d }
  | console (d : Option ConsoleRequest) (hd : s.Inv → ∀ r, d = some r →
      r.remaining ≤ s.cfg.consoleLatency ∧ ∀ w, r.op = .print w → w.Legal s.cfg.wordCap) :
    Update W L s { s with console := d }
  | control (mode : Mode) (status : Status) (t d c : Bool) :
    Update W L s { s with mode := mode, status := status, timerPending := t, diskPending := d, consolePending := c }
  | takeLine : Update W L s { s with consoleInPos := s.consoleInPos + 1 }
  | print (w : Word) (hw : s.Inv → w.Legal s.cfg.wordCap) : Update W L s (printConsole w s)

/-- A sequence of writes. -/
abbrev Updates (W : Reg → Prop) (L : Prop) : State → State → Prop := Relation.ReflTransGen (Update W L)

/-- What the launch fixes is kept, and what the host sees only grows (R7, R54, R55). -/
def PlatformGrows (s t : State) : Prop :=
  t.cfg = s.cfg ∧ t.consoleIn = s.consoleIn ∧ s.consoleInPos ≤ t.consoleInPos ∧
    ∃ printed, t.consoleOut = s.consoleOut ++ printed

section
variable {W : Reg → Prop} {L : Prop} {s t : State}

/-! ### What every write keeps -/

/-- A write keeps the invariant. -/
theorem Update.inv (h : Update W L s t) (hL : L) (hs : s.Inv) : t.Inv := by
  cases h with
  | setReg r w _ hw =>
    refine { hs with regsLegal := fun q => ?_ }
    rw [reg_setReg]
    split
    · exact hw hL hs
    · exact hs.regsLegal q
  | mem m hm => exact { hs with memSound := hm hL hs }
  | blocks m hm => exact { hs with blocksSound := hm hs }
  | timer v hv => exact { hs with timerBound := hv hs }
  | disk d hd => exact { hs with diskOk := hd hs }
  | console d hd => exact { hs with consoleOk := hd hs }
  | control | takeLine => exact { hs with }
  | print w hw =>
    refine { hs with outLegal := fun x hx => ?_ }
    obtain hx | rfl : x ∈ s.consoleOut ∨ x = w := by simpa using hx
    · exact hs.outLegal x hx
    · exact hw hs

theorem Updates.inv (h : Updates W L s t) (hL : L) (hs : s.Inv) : t.Inv := by
  induction h with
  | refl => exact hs
  | tail _ hu ih => exact hu.inv hL ih

theorem Update.reg_eq (h : Update W L s t) {r : Reg} (hr : ¬ W r) : t.reg r = s.reg r := by
  cases h with
  | setReg q w hq => exact reg_setReg_other s w fun hrq => hr (hrq ▸ hq)
  | mem | blocks | timer | disk | console | control | takeLine | print => rfl

/-- Writes to the registers of a list leave every other register alone. -/
theorem Updates.sameRegsBut {rs : List Reg} (h : Updates (· ∈ rs) L s t) : SameRegsBut rs s t := by
  intro r hr
  induction h with
  | refl => rfl
  | tail _ hu ih => exact (hu.reg_eq hr).trans ih

theorem Update.platformGrows (h : Update W L s t) : PlatformGrows s t := by
  cases h with
  | takeLine => exact ⟨rfl, rfl, Nat.le_succ _, [], (List.append_nil _).symm⟩
  | print w => exact ⟨rfl, rfl, le_rfl, [w], rfl⟩
  | setReg | mem | blocks | timer | disk | console | control =>
    exact ⟨rfl, rfl, le_rfl, [], (List.append_nil _).symm⟩

theorem PlatformGrows.trans {u : State} (h : PlatformGrows s t) (k : PlatformGrows t u) : PlatformGrows s u := by
  obtain ⟨hcfg, hin, hpos, p, hp⟩ := h
  obtain ⟨kcfg, kin, kpos, q, hq⟩ := k
  exact ⟨kcfg.trans hcfg, kin.trans hin, hpos.trans kpos, p ++ q, by rw [hq, hp, List.append_assoc]⟩

theorem Updates.platformGrows (h : Updates W L s t) : PlatformGrows s t := by
  induction h with
  | refl => exact ⟨rfl, rfl, le_rfl, [], (List.append_nil _).symm⟩
  | tail _ hu ih => exact ih.trans hu.platformGrows

/-! ### The single writes of the operations -/

theorem setInteger_update {r : Reg} {v : Int} (hr : W r) (hl : (renderInt v).length ≤ s.cfg.wordCap) :
    Update W L s (s.setReg r (integerWord v)) :=
  .setReg r _ hr fun _ _ => integerWord_legal hl

theorem writeMem_update {pa : Int} {w : Word} (hp : s.inMemory pa) (hw : L → s.Inv → w.Legal s.cfg.wordCap) :
    Update W L s { s with mem := s.mem.write pa.toNat w } := by
  obtain ⟨hlow, hhigh⟩ := hp
  exact .mem _ fun hL hs => write_sound hs.memSound (by omega) (hw hL hs)

theorem setMode_update (m : Mode) : Update W L s { s with mode := m } := .control m _ _ _ _

theorem crash_update (k : CrashKind) : Update W L s (crash k s) := .control _ (.crashed k) _ _ _

theorem clearLatch_update (src : Source) : Update W L s (clearLatch src s) := by
  cases src with
  | timer => exact .control _ _ false _ _
  | disk => exact .control _ _ _ false _
  | console => exact .control _ _ _ _ false

/-- A page or block in range ends within its store. -/
theorem page_end_le {k n : Nat} (size : Nat) (h : k < n) : k * size + size ≤ n * size := by
  rw [← Nat.succ_mul]
  exact Nat.mul_le_mul_right size h

theorem readBlock_update {p b : Nat} (hp : s.Inv → p < s.cfg.numPages) : Update W L s (readBlock p b s) := by
  refine .mem _ fun _ hs => copyWords_sound hs.blocksSound hs.memSound _ _ _ ?_
  rw [Config.memorySize, Nat.mul_comm s.cfg.pageSize]
  exact page_end_le _ (hp hs)

theorem writeBlock_update {p b : Nat} (hb : s.Inv → b < s.cfg.numBlocks) : Update W L s (writeBlock p b s) :=
  .blocks _ fun hs => copyWords_sound hs.memSound hs.blocksSound _ _ _ (page_end_le _ (hb hs))

/-! ### The operations of Execute -/

theorem setInt_updates {r : Reg} {v : Int} (hr : W r) (h : setInt r v s = .ok t) : Updates W L s t := by
  obtain ⟨rfl, hl⟩ := setInt_ok h
  exact .single (setInteger_update hr hl)

theorem truthWord_legal {cap : Nat} (hcap : 1 ≤ cap) (holds : Bool) : (truthWord holds).Legal cap := by
  cases holds <;> exact integerWord_legal hcap

theorem wordCap_pos (hs : s.Inv) : 1 ≤ s.cfg.wordCap := by
  have hword := hs.cfgValid.1
  unfold Config.wordCap
  omega

theorem compareInto_updates {ra : Reg} (rel : Relation) (rb : Reg) (hr : W ra) :
    Updates W L s (compareInto rel ra rb s) :=
  .single (.setReg ra _ hr fun _ hs => truthWord_legal (wordCap_pos hs) _)

/-- The Word a source supplies is legal: a legal literal, a canonical integer, or a Word of the machine. -/
theorem valOf_legal {o : Src} {w : Word} (h : valOf o s = .ok w) (ho : ∀ c ∈ o.raw.literal, LegalChar c)
    (hs : s.Inv) : w.Legal s.cfg.wordCap := by
  obtain ⟨r, -, rfl⟩ | ⟨v, -, rfl, hl⟩ | ⟨x, rfl, rfl, hl⟩ | ⟨_, _, pa, -, -, -, rfl⟩ := valOf_ok h
  · exact hs.regsLegal r
  · exact integerWord_legal hl
  · exact ⟨hl, ho⟩
  · exact read_legal hs.memSound _

theorem moveWord_updates {d : Dst} {o : Src} (hd : ∀ r, d = .reg r → W r)
    (ho : L → ∀ c ∈ o.raw.literal, LegalChar c) (h : moveWord d o s = .ok t) : Updates W L s t := by
  obtain ⟨w, hval, hwrite⟩ := moveWord_ok h
  have hlegal : L → s.Inv → w.Legal s.cfg.wordCap := fun hL => valOf_legal hval (ho hL)
  obtain ⟨r, hr, rfl⟩ | ⟨_, _, pa, -, -, hpa, rfl⟩ := writeTo_ok hwrite
  · exact .single (.setReg r w (hd r hr) hlegal)
  · exact .single (writeMem_update hpa hlegal)

theorem jumpTo_updates {target : Int} (hip : W .ip) (h : jumpTo target s = .ok t) : Updates W L s t := by
  obtain ⟨pa, -, hl, rfl⟩ := jumpTo_ok h
  exact .single (setInteger_update hip hl)

theorem jumpWhen_updates {taken : Bool} {target : Int} (hip : W .ip) (h : jumpWhen taken target s = .ok t) :
    Updates W L s t := by
  obtain ⟨-, hjump⟩ | ⟨-, rfl⟩ := jumpWhen_ok h
  · exact jumpTo_updates hip hjump
  · exact .refl

/-- A push of a register's Word. -/
theorem pushWord_updates {r : Reg} (hsp : W .sp) (h : pushWord (s.reg r) s = .ok t) : Updates W L s t := by
  obtain ⟨pa, -, hpa, hl, rfl⟩ := pushWord_ok h
  exact .tail (.single (writeMem_update hpa fun _ hs => hs.regsLegal r)) (setInteger_update hsp hl)

theorem popInto_updates {r : Reg} (hsp : W .sp) (hr : W r) (h : popInto r s = .ok t) : Updates W L s t := by
  obtain ⟨pa, -, -, hl, rfl⟩ := popInto_ok h
  exact .tail (.single (setInteger_update hsp hl)) (.setReg r _ hr fun _ hs => read_legal hs.memSound _)

theorem callTo_updates {target : Int} (hsp : W .sp) (hip : W .ip) (h : callTo target s = .ok t) :
    Updates W L s t := by
  obtain ⟨u, hpush, hjump⟩ := callTo_ok h
  exact (pushWord_updates hsp hpush).trans (jumpTo_updates hip hjump)

theorem trapEntry_updates {n : Nat} (hsp : W .sp) (hip : W .ip) (h : trapEntry n s = .ok t) : Updates W L s t := by
  obtain ⟨pa, -, hpa, hl, hv, rfl⟩ := trapEntry_ok h
  have hpush : Updates W L s (({ s with mem := s.mem.write pa.toNat (s.reg .ip) } : State).setReg .sp
      (integerWord (s.xi .sp + 1))) :=
    .tail (.single (writeMem_update hpa fun _ hs => hs.regsLegal .ip)) (setInteger_update hsp hl)
  exact (hpush.tail (setMode_update .kernel)).tail (setInteger_update hip hv)

theorem returnFromTrap_updates (hsp : W .sp) (hip : W .ip) (h : returnFromTrap s = .ok t) : Updates W L s t :=
  .head (setMode_update .user) (popInto_updates hsp hip h)

theorem transferBody_updates {page block : RegInt} {effect : Nat → Nat → State → State}
    (heffect : ∀ p b, p < s.cfg.numPages → b < s.cfg.numBlocks → Updates W L s (effect p b s))
    (h : transferBody page block effect s = .ok t) : Updates W L s t := by
  unfold transferBody at h
  split at h
  · cases h
  · rename_i p b hvalid
    obtain ⟨hq, ⟨hp0, hp⟩, hb0, hb⟩ := validateTransfer_ok hvalid
    obtain ⟨rfl, rfl⟩ := Prod.mk.inj hq
    exact Except.ok.inj h ▸ heffect _ _ (by omega) (by omega)

theorem issueDisk_updates {op : DiskOp} {p b : Nat} (hp : p < s.cfg.numPages) (hb : b < s.cfg.numBlocks) :
    Updates W L s (issueDisk op p b s) := by
  obtain ⟨-, h⟩ | ⟨-, h⟩ := issueDisk_cases op p b s <;> rw [h]
  refine .single (.disk _ fun _ => ?_)
  rintro r ⟨⟩
  exact ⟨le_rfl, hp, hb⟩

theorem issueConsole_updates {op : ConsoleOp} (hop : s.Inv → ∀ w, op = .print w → w.Legal s.cfg.wordCap) :
    Updates W L s (issueConsole op s) := by
  obtain ⟨-, h⟩ | ⟨-, h⟩ := issueConsole_cases op s <;> rw [h]
  refine .single (.console _ fun hs => ?_)
  rintro r ⟨⟩
  exact ⟨le_rfl, hop hs⟩

/-- A line of the console is a line of bytes, the host's or a free one (R258). -/
theorem nextLine_bytes (hs : s.Inv) : ∀ c ∈ nextLine s, c.toNat ≤ 255 := by
  intro c hc
  unfold nextLine at hc
  split at hc
  · rename_i line hline
    exact hs.linesOk line (List.mem_of_getElem? hline) c hc
  · simpa using (List.mem_filter.mp hc).2

theorem readConsole_updates (hp : W (.p 0)) : Updates W L s (readConsole s) :=
  .tail (.single (.setReg (.p 0) _ hp fun _ hs => consoleWord_legal (nextLine_bytes hs))) .takeLine

end

theorem pushRegs_updates {W : Reg → Prop} {L : Prop} (hsp : W .sp) :
    ∀ {rs : List Reg} {s t : State}, pushRegs rs s = .ok t → Updates W L s t
  | [], s, t, h => by cases h; exact .refl
  | r :: rs, s, t, h => by
    unfold pushRegs at h
    split at h
    · cases h
    · exact (pushWord_updates hsp ‹_›).trans (pushRegs_updates hsp h)

theorem popRegs_updates {W : Reg → Prop} {L : Prop} (hsp : W .sp) :
    ∀ {rs : List Reg} {s t : State}, (∀ r ∈ rs, W r) → popRegs rs s = .ok t → Updates W L s t
  | [], s, t, _, h => by cases h; exact .refl
  | r :: rs, s, t, hrs, h => by
    obtain ⟨hr, hrest⟩ := List.forall_mem_cons.mp hrs
    unfold popRegs at h
    split at h
    · cases h
    · exact (popInto_updates hsp hr ‹_›).trans (popRegs_updates hsp hrest h)

section
variable {W : Reg → Prop} {L : Prop} {s t : State}

/-- A completed instruction is a sequence of writes to the registers its rule names (R44). -/
theorem instrBody_updates {i : Instr} (hW : ∀ r ∈ writtenRegs i, W r) (hL : L → LegalLiteral i)
    (h : instrBody i s = .ok t) : Updates W L s t := by
  cases i with
  | mov d o =>
    exact moveWord_updates (fun r hr => hW r (by simp [hr, writtenRegs])) (fun l => literal_mov d o ▸ hL l) h
  | port d o =>
    exact moveWord_updates (fun r hr => hW r (by simp [hr, writtenRegs])) (fun l => literal_port d o ▸ hL l) h
  | add a | sub a | mul a | inr a | dcr a => exact setInt_updates (hW a (.head _)) h
  | div a | mod a => exact setInt_updates (hW a (.head _)) (divideInto_ok h).2
  | lt a | gt a | eq a | ne a | ge a | le a =>
    exact Except.ok.inj h ▸ compareInto_updates _ _ (hW a (.head _))
  | jz | jnz | jmp => exact jumpWhen_updates (hW .ip (.head _)) h
  | push => exact pushWord_updates (hW .sp (.head _)) h
  | pop a => exact popInto_updates (hW .sp (.head _)) (hW a (.tail _ (.head _))) h
  | ret => exact popInto_updates (hW .sp (.head _)) (hW .ip (.tail _ (.head _))) h
  | call => exact callTo_updates (hW .sp (.head _)) (hW .ip (.tail _ (.head _))) h
  | backup => exact pushRegs_updates (hW .sp (.head _)) h
  | restore =>
    exact popRegs_updates (hW .sp (.head _))
      (fun r hr => hW r (List.mem_cons_of_mem _ (List.mem_reverse.mp hr))) h
  | int =>
    exact trapEntry_updates (hW .sp (.head _)) (hW .ip (.tail _ (.head _)))
      (softwareInterrupt_ok h).2
  | iret => exact returnFromTrap_updates (hW .sp (.head _)) (hW .ip (.tail _ (.head _))) h
  | loadi => exact transferBody_updates (fun _ _ hp _ => .single (readBlock_update fun _ => hp)) h
  | load | store => exact transferBody_updates (fun _ _ hp hb => issueDisk_updates hp hb) h
  | encrypt a =>
    exact Except.ok.inj h ▸ .single (.setReg a _ (hW a (.head _)) fun _ _ => encrypt_legal _ _)
  | inp => exact Except.ok.inj h ▸ issueConsole_updates fun _ _ hop => ConsoleOp.noConfusion hop
  | ini => exact Except.ok.inj h ▸ readConsole_updates (hW (.p 0) (.head _))
  | out =>
    exact Except.ok.inj h ▸ issueConsole_updates fun hs _ hop => ConsoleOp.print.inj hop ▸ hs.regsLegal (.p 1)
  | brkp => exact Except.ok.inj h ▸ (callDebugHook_eq _ s).symm ▸ .refl
  | halt => exact Except.ok.inj h ▸ .single (.control _ .halted _ _ _)

/-! ### The delivery of a fault -/

theorem putClamped_update {r : Reg} {v : Int} (hr : W r) : Update W L s (s.putClamped r v) :=
  .setReg r _ hr fun _ hs => clampInt_legal hs.cfgValid.1 v

theorem writeExceptionRegs_updates (hW : ∀ r ∈ trapWrites, W r) (e : Exn) (ia : Int) :
    Updates W L s (writeExceptionRegs e ia s) := by
  have hepn : W .epn := hW _ (by simp [trapWrites])
  have hema : W .ema := hW _ (by simp [trapWrites])
  have hcause : Updates W L s ((s.putClamped .eip ia).putClamped .ec (causeCode e.kind)) :=
    .tail (.single (putClamped_update (hW _ (by simp [trapWrites])))) (putClamped_update (hW _ (by simp [trapWrites])))
  cases e with
  | pageFault | memoryProtectionFault => exact (hcause.tail (putClamped_update hepn)).tail (putClamped_update hema)
  | outOfRange => exact hcause.tail (putClamped_update hema)
  | illegalInstruction | malformedOperand | unknownRegister | divisionByZero | wordOverflow => exact hcause

/-- The delivery of a fault writes only the trap's registers (R280, R291). -/
theorem deliverFault_updates (hW : ∀ r ∈ trapWrites, W r) (e : Exn) (ia : Int) :
    Updates W L s (deliverFault e ia s) := by
  have hregs := writeExceptionRegs_updates (L := L) (s := s) hW e ia
  obtain ⟨-, h⟩ | ⟨-, t, ht, h⟩ | ⟨-, h⟩ := deliverFault_cases e ia s <;> rw [h]
  · exact .single (crash_update _)
  · exact hregs.trans (trapEntry_updates (hW _ (by simp [trapWrites])) (hW _ (by simp [trapWrites])) ht)
  · exact hregs.tail (crash_update _)

/-- An instruction writes its own registers or, when it faults, the trap's. -/
theorem exec_updates {i : Instr} (hi : ∀ r ∈ writtenRegs i, W r) (htrap : ∀ r ∈ trapWrites, W r)
    (hL : L → LegalLiteral i) (h : exec i s = .next t) : Updates W L s t := by
  rw [exec_eq_commit] at h
  obtain hok | ⟨e, -, rfl⟩ := commit_next h
  · exact instrBody_updates hi hL hok
  · exact deliverFault_updates htrap e _

/-! ### The post-execute phase -/

theorem timerTick_updates : Updates W L s (timerTick s) := by
  obtain ⟨-, h⟩ | ⟨hon, -, h⟩ | ⟨hon, htimer, h⟩ := timerTick_cases s <;> rw [h]
  · exact .tail (.single (.timer s.cfg.timerInterval fun _ _ => ⟨by omega, le_rfl⟩)) (.control _ _ true _ _)
  · refine .single (.timer _ fun hs _ => ?_)
    have hbound := hs.timerBound hon
    omega

theorem transfer_updates {r : DiskRequest} (hr : s.disk = some r) : Updates W L s (transfer r s) := by
  unfold transfer
  split
  · exact .single (readBlock_update fun hs => (hs.diskOk r hr).2.1)
  · exact .single (writeBlock_update fun hs => (hs.diskOk r hr).2.2)

theorem diskTick_updates : Updates W L s (diskTick s) := by
  obtain ⟨-, h⟩ | ⟨r, hr, -, h⟩ | ⟨r, hr, -, h⟩ := diskTick_cases s <;> rw [h]
  · refine .single (.disk _ fun hs => ?_)
    rintro _ ⟨⟩
    obtain ⟨hremaining, hpage, hblock⟩ := hs.diskOk r hr
    exact ⟨(Nat.sub_le _ _).trans hremaining, hpage, hblock⟩
  · exact ((transfer_updates hr).tail (.disk none fun _ _ hnone => nomatch hnone)).tail
      (.control _ _ _ true _)

theorem consoleTransfer_updates {r : ConsoleRequest} (hp : W (.p 0)) (hr : s.console = some r) :
    Updates W L s (consoleTransfer r.op s) := by
  unfold consoleTransfer
  split
  · exact readConsole_updates hp
  · rename_i w hop
    exact .single (.print w fun hs => (hs.consoleOk r hr).2 w hop)

theorem consoleTick_updates (hp : W (.p 0)) : Updates W L s (consoleTick s) := by
  obtain ⟨-, h⟩ | ⟨r, hr, -, h⟩ | ⟨r, hr, -, h⟩ := consoleTick_cases s <;> rw [h]
  · refine .single (.console _ fun hs => ?_)
    rintro _ ⟨⟩
    obtain ⟨hremaining, hop⟩ := hs.consoleOk r hr
    exact ⟨(Nat.sub_le _ _).trans hremaining, hop⟩
  · exact ((consoleTransfer_updates hp hr).tail (.console none fun _ _ hnone => nomatch hnone)).tail
      (.control _ _ _ _ true)

theorem deliverInterrupt_updates (hsp : W .sp) (hip : W .ip) : Updates W L s (deliverInterrupt s) := by
  obtain ⟨-, h⟩ | ⟨src, -, -, ⟨t, ht, h⟩ | ⟨e, -, h⟩⟩ := deliverInterrupt_cases s <;> rw [h]
  · exact (trapEntry_updates hsp hip ht).tail (clearLatch_update src)
  · exact .single (crash_update _)

end

/-! ### The cycle, with every register at its disposal -/

section
variable {L : Prop} {s t : State}

/-- Any sequence of writes, to whichever registers. -/
abbrev AnyUpdates (L : Prop) : State → State → Prop := Updates (fun _ => True) L

theorem skippableTick_updates {tick : State → State} (htick : ∀ u, AnyUpdates L u (tick u)) (skip : Bool) (s : State) :
    AnyUpdates L s (if skip then s else tick s) := by
  split
  · exact .refl
  · exact htick s

theorem postExecute_updates (d c : Bool) : AnyUpdates L s (postExecute d c s) := by
  have htimer : AnyUpdates L s (timerTick s) := timerTick_updates
  have hdisk := htimer.trans (skippableTick_updates (fun _ => diskTick_updates) d _)
  have hconsole := hdisk.trans (skippableTick_updates (fun _ => consoleTick_updates trivial) c _)
  exact hconsole.trans (deliverInterrupt_updates trivial trivial)

theorem finishCycle_updates (before : State) (h : AnyUpdates L s t) : AnyUpdates L s (finishCycle before t) := by
  obtain ⟨-, heq⟩ | ⟨-, heq⟩ := finishCycle_cases before t <;> rw [heq]
  · exact h.trans (postExecute_updates _ _)
  · exact h

/-! ### The slot's text is legal -/

theorem fetchText_legal (hs : s.Inv) : ∀ {n : Nat} {a : Int} {text : Text}, fetchText s a n = .ok text →
    ∀ c ∈ text, LegalChar c
  | 0, _, _, h => by cases h; exact fun _ hc => absurd hc List.not_mem_nil
  | n + 1, a, text, h => by
    unfold fetchText at h
    split at h
    · cases h
    · rename_i w hw
      obtain ⟨-, rfl⟩ := physRead_ok hw
      split at h
      · cases h
      · rename_i rest hrest
        cases h
        exact List.forall_mem_append.mpr ⟨(read_legal hs.memSound _).2, fetchText_legal hs hrest⟩

/-- A slot of a legal memory decodes to an instruction with a legal literal. -/
theorem legalLiteral_of_fetch {text : Text} {i : Instr} (hs : s.Inv) (hf : fetch s = .ok text)
    (hd : decode text = .ok i) : LegalLiteral i :=
  fun c hc => fetchText_legal hs hf c (decode_literal hd hc)

/-- A step is a sequence of writes, each fit for the invariant if the step begins in it. -/
theorem step_updates (h : step s = .next t) : AnyUpdates s.Inv s t := by
  have fault : ∀ (e : Exn) (ia : Int) (u : State), AnyUpdates s.Inv u (deliverFault e ia u) :=
    fun e ia u => deliverFault_updates (fun _ _ => trivial) e ia
  have advanced : ∀ {u : State}, advance s = .ok u → AnyUpdates s.Inv s u := setInt_updates trivial
  obtain ⟨-, ⟨e, -, rfl⟩ | ⟨_, e, -, -, rfl⟩ | ⟨_, s1, e, -, hadv, -, rfl⟩ |
    ⟨text, s1, i, u, hfetch, hadv, hdec, hexec, rfl⟩⟩ := step_next h
  · exact finishCycle_updates s (fault _ _ _)
  · exact finishCycle_updates s (fault _ _ _)
  · exact finishCycle_updates s1 ((advanced hadv).trans (fault _ _ _))
  · have hbody : AnyUpdates s.Inv s1 u := exec_updates (fun _ _ => trivial) (fun _ _ => trivial)
      (fun hs => legalLiteral_of_fetch hs hfetch hdec) hexec
    exact finishCycle_updates s1 ((advanced hadv).trans hbody)

end

/-- Settles O58: a step is a sequence of writes, and each write keeps the invariant. -/
theorem everyStepKeepsTheInvariant : Obligations.EveryStepKeepsTheInvariant := by
  unfold Obligations.EveryStepKeepsTheInvariant
  intro s t hs hstep
  exact (step_updates hstep).inv hs hs

/-- Settles O44: a step is a sequence of writes, and no write touches what the launch fixes. -/
theorem configurationIsNeverWritten : Obligations.ConfigurationIsNeverWritten := by
  unfold Obligations.ConfigurationIsNeverWritten
  intro s t hstep
  exact (step_updates hstep).platformGrows

/-- Settles O43: a completed instruction writes its own registers, a fault in Kernel mode none, and a fault in User
mode the trap's. -/
theorem instructionsWriteOnlyTheirRegisters : Obligations.InstructionsWriteOnlyTheirRegisters := by
  unfold Obligations.InstructionsWriteOnlyTheirRegisters
  intro i s t h
  rw [exec_eq_commit] at h
  obtain hok | ⟨e, -, rfl⟩ := commit_next h
  · have hbody : Updates (· ∈ writtenRegs i) (LegalLiteral i) s t := instrBody_updates (fun _ => id) id hok
    exact .inl hbody.sameRegsBut
  · cases hm : s.mode with
    | kernel =>
      have hcrash : deliverFault e s.currentInstr s = crash (.fault e.kind) s := by simp [deliverFault, hm]
      exact .inl fun r _ => by rw [hcrash, reg_crash]
    | user =>
      have htrap : Updates (· ∈ trapWrites) True s (deliverFault e s.currentInstr s) :=
        deliverFault_updates (fun _ => id) e _
      exact .inr ⟨rfl, ⟨e, rfl⟩, htrap.sameRegsBut⟩

/-! ### The text of a Word (R21 to R25, R27) -/

/-- `sign` is what `as_integer` and `classify` take off a text before they look for digits: one sign, or nothing where
the text begins with none. -/
def SignOf (sign t : Text) : Prop :=
  (sign = [] ∧ ∀ c ∈ t.head?, c ≠ '-' ∧ c ≠ '+') ∨ sign = ['+'] ∨ sign = ['-']

theorem exists_signOf (t : Text) : ∃ sign u, SignOf sign u ∧ t = sign ++ u := by
  cases t with
  | nil => exact ⟨[], [], .inl ⟨rfl, by simp⟩, rfl⟩
  | cons c u =>
    by_cases hplus : c = '+'
    · exact ⟨['+'], u, .inr (.inl rfl), by rw [hplus]; rfl⟩
    · by_cases hminus : c = '-'
      · exact ⟨['-'], u, .inr (.inr rfl), by rw [hminus]; rfl⟩
      · exact ⟨[], c :: u, .inl ⟨rfl, by simp [hplus, hminus]⟩, rfl⟩

theorem isDigit_ne_sign {c : Char} (h : c.isDigit = true) : c ≠ '-' ∧ c ≠ '+' := by
  constructor <;> rintro rfl <;> exact absurd h (by decide)

/-- The digits of an integer text begin with no sign, whatever stands after them. -/
theorem signOf_of_integerText {sign ds : Text} (h : IntegerText sign ds) (rest : Text) : SignOf sign (ds ++ rest) := by
  obtain ⟨hsign, hne, hdigits⟩ := h
  obtain rfl | hsigned := hsign
  · refine .inl ⟨rfl, ?_⟩
    cases ds with
    | nil => exact absurd rfl hne
    | cons d ds => simpa using isDigit_ne_sign (hdigits d (by simp))
  · exact .inr hsigned

theorem integerText_of_signOf {sign t ds : Text} (h : SignOf sign t) (hne : ds ≠ [])
    (hdigits : ∀ d ∈ ds, d.isDigit = true) : IntegerText sign ds :=
  ⟨h.imp_left And.left, hne, hdigits⟩

theorem integerOfText_sign {sign t : Text} (h : SignOf sign t) :
    integerOfText (sign ++ t) =
      if sign = ['-'] then -(digitsValue (leadingDigits t) : Int) else digitsValue (leadingDigits t) := by
  obtain ⟨rfl, ht⟩ | rfl | rfl := h
  · exact integerOfText_digits ht
  · rfl
  · rfl

theorem classify_sign {sign t : Text} (h : SignOf sign t) :
    classify ⟨sign ++ t⟩ = if allDigits t then .integer else .string := by
  obtain ⟨rfl, ht⟩ | rfl | rfl := h
  · cases t with
    | nil => rfl
    | cons c t =>
      have hc : c ≠ '-' ∧ c ≠ '+' := ht c (by simp)
      unfold classify
      simp only [List.nil_append]
      split <;> simp_all
  · rfl
  · rfl

theorem allDigits_iff (t : Text) : allDigits t = true ↔ t ≠ [] ∧ ∀ d ∈ t, d.isDigit = true := by
  simp [allDigits]

/-- The value of a text is that of its sign and the digits after it, where the rest begins with no digit (R22). -/
theorem asInteger_sign_digits {sign ds rest : Text} (h : IntegerText sign ds)
    (hrest : ∀ ch ∈ rest.head?, ch.isDigit = false) :
    asInteger ⟨sign ++ ds ++ rest⟩ = if sign = ['-'] then -(digitsValue ds : Int) else digitsValue ds := by
  have hdigits : ∀ d ∈ ds, d.isDigit = true := h.2.2
  rw [asInteger, List.append_assoc, integerOfText_sign (signOf_of_integerText h rest),
    leadingDigits_append hdigits hrest]

theorem asInteger_eq_zero {w : Word} (h : ¬ ∃ sign ds rest, IntegerText sign ds ∧ w.text = sign ++ ds ++ rest) :
    asInteger w = 0 := by
  obtain ⟨sign, u, hsign, htext⟩ := exists_signOf w.text
  have hnone : leadingDigits u = [] := by
    by_contra hne
    have hdigits : ∀ d ∈ leadingDigits u, d.isDigit = true := fun d hd => List.mem_takeWhile_imp hd
    refine h ⟨sign, leadingDigits u, u.dropWhile Char.isDigit, integerText_of_signOf hsign hne hdigits, ?_⟩
    rw [htext, List.append_assoc, leadingDigits, List.takeWhile_append_dropWhile]
  rw [asInteger, htext, integerOfText_sign hsign, hnone]
  simp [digitsValue]

/-- `classify` answers Integer exactly for an optional sign and one or more digits (R21). -/
theorem classify_integer_iff (w : Word) :
    classify w = .integer ↔ ∃ sign ds, IntegerText sign ds ∧ w.text = sign ++ ds := by
  constructor
  · intro h
    obtain ⟨sign, u, hsign, htext⟩ := exists_signOf w.text
    obtain rfl : w = ⟨sign ++ u⟩ := by rw [← htext]
    rw [classify_sign hsign] at h
    have hall : allDigits u = true := by
      by_contra hno
      simp [hno] at h
    obtain ⟨hne, hdigits⟩ := (allDigits_iff u).mp hall
    exact ⟨sign, u, integerText_of_signOf hsign hne hdigits, rfl⟩
  · rintro ⟨sign, ds, h, htext⟩
    obtain rfl : w = ⟨sign ++ ds⟩ := by rw [← htext]
    have hsign : SignOf sign ds := by simpa using signOf_of_integerText h []
    rw [classify_sign hsign, if_pos ((allDigits_iff ds).mpr h.2)]

theorem renderInt_integerText (v : Int) : IntegerText (if v < 0 then ['-'] else []) (renderNat v.natAbs) := by
  refine ⟨?_, renderNat_ne_nil _, fun _ => renderNat_isDigit⟩
  split <;> simp

theorem classify_integerWord (v : Int) : classify (integerWord v) = .integer :=
  (classify_integer_iff _).mpr ⟨_, _, renderInt_integerText v, renderInt_eq v⟩

/-- A legal Word survives `store_integer(as_integer(w))` exactly when its text is canonical (R27). -/
theorem storeInteger_asInteger_iff {cap : Nat} {w : Word} (hw : w.Legal cap) :
    storeInteger? cap (asInteger w) = some w ↔ ∃ v, w.text = renderInt v := by
  constructor
  · intro h
    exact ⟨asInteger w, congrArg Word.text (storeInteger_some h).1⟩
  · rintro ⟨v, hv⟩
    obtain rfl : w = integerWord v := congrArg Word.mk hv
    rw [asInteger_integerWord]
    exact if_pos hw.1

/-- Settles O8: reading and classifying take a sign off and look at the digits after it, and a rendering is such a
text. -/
theorem wordsRoundTrip : Obligations.WordsRoundTrip := by
  unfold Obligations.WordsRoundTrip
  refine ⟨fun sign ds rest => asInteger_sign_digits, fun w => asInteger_eq_zero,
    fun w => ⟨classify_integer_iff w, rfl⟩, fun c hc => ⟨fun v hv => ?_, fun t => ⟨fun ht => ?_, fun ht => ?_⟩,
      fun w => storeInteger_asInteger_iff⟩⟩
  · exact ⟨integerWord v, storeInteger_of_fits hc hv, asInteger_integerWord v, classify_integerWord v⟩
  · exact ⟨⟨t⟩, if_pos ht, rfl⟩
  · exact if_neg (by omega)

/-! ### Register lookup (R31) -/

theorem upperChar_name (r : Reg) : r.name.map upperChar = r.name := lookup_some (lookup_name r)

/-- Lookup reads a name only through its upper case, in which every register's own name is written. -/
theorem lookup_of_upper {name : Text} {r : Reg} (h : name.map upperChar = r.name) : lookup name = some r := by
  have hsame : lookup name = lookup r.name := by rw [lookup, lookup, h, upperChar_name]
  rw [hsame, lookup_name]

/-- Settles O6: lookup compares the upper-cased name with the names, and each name is its own lookup. -/
theorem registerLookupIsCaseInsensitive : Obligations.RegisterLookupIsCaseInsensitive := by
  unfold Obligations.RegisterLookupIsCaseInsensitive
  refine ⟨fun name r => ⟨lookup_some, lookup_of_upper⟩, fun c => ?_, by decide, by decide, rfl, rfl, rfl, rfl, rfl,
    rfl, rfl, rfl, rfl⟩
  simp only [upperChar, Char.isLower, Bool.and_eq_true, decide_eq_true_eq]
  rfl

/-! ### Reset (R60) -/

theorem reset_reg (r : Reg) : State.reset.reg r = Word.ofString "0" := by
  simp [State.reg, State.reset, resetRegs]

theorem empty_sound (size cap : Nat) : Memory.Sound ⟨[]⟩ size cap :=
  ⟨⟨List.Pairwise.nil, fun _ h => absurd h List.not_mem_nil⟩, fun _ h => absurd h List.not_mem_nil,
    fun _ h => absurd h List.not_mem_nil⟩

/-- Settles O59: the stores are empty, every register holds "0", the timer is off and the devices idle. -/
theorem resetMeetsTheInvariant : Obligations.ResetMeetsTheInvariant := by
  unfold Obligations.ResetMeetsTheInvariant
  exact
    { cfgValid := by decide
      regsLegal := fun r => reset_reg r ▸ integerWord_legal (v := 0) (by decide)
      memSound := empty_sound _ _
      blocksSound := empty_sound _ _
      timerBound := fun hon => absurd hon (by decide)
      diskOk := fun _ h => nomatch h
      consoleOk := fun _ h => nomatch h
      linesOk := fun _ h => absurd h List.not_mem_nil
      outLegal := fun _ h => absurd h List.not_mem_nil }

/-- Settles O60: each value is a field of the reset state, and ZR reads as "0" in every state. -/
theorem resetState : Obligations.ResetState := by
  unfold Obligations.ResetState
  exact ⟨rfl, rfl, reset_reg .ip, rfl, rfl, rfl, rfl, rfl, rfl, rfl, zr_text⟩

end Sys2Proof.Machine
end

section
/-! PROOFS of spec/20_memory.md: physical access, and the page walk of User mode. First the layer they share: each
access answered by the range test, the frame of a memory write, and the walk's steps 1 to 4 as one hypothesis
(`WalkReaches`) under which each of its outcomes is an equation. -/

namespace Sys2Proof.Machine

/-! ### Physical access (R72) -/

theorem physRead_inside {pa : Int} {s : State} (h : s.inMemory pa) : physRead pa s = .ok (s.mem.read pa.toNat) :=
  if_pos h

theorem physRead_outside {pa : Int} {s : State} (h : ¬ s.inMemory pa) : physRead pa s = .error (.outOfRange pa) :=
  if_neg h

theorem physWrite_inside {pa : Int} {w : Word} {s : State} (h : s.inMemory pa) :
    physWrite pa w s = .ok { s with mem := s.mem.write pa.toNat w } :=
  if_pos h

theorem physWrite_outside {pa : Int} {w : Word} {s : State} (h : ¬ s.inMemory pa) :
    physWrite pa w s = .error (.outOfRange pa) :=
  if_neg h

/-- The frame of a memory write: no register, and no Word but the one at the address. -/
theorem writeMem_onlyWord (s : State) {pa : Int} (hpa : 0 ≤ pa) (w : Word) :
    OnlyRegsAndWord [] pa s { s with mem := s.mem.write pa.toNat w } := by
  refine ⟨fun _ _ => rfl, fun a ha => ?_, by simp [SameDevices], rfl, rfl⟩
  have hne : a ≠ pa.toNat := by omega
  exact (read_write s.mem pa.toNat a w).trans (if_neg hne)

/-- Settles O9: one range test decides both accesses, and a write inside memory has the frame of a memory write. -/
theorem physicalAccessReadsAndWritesOneWord : Obligations.PhysicalAccessReadsAndWritesOneWord := by
  unfold Obligations.PhysicalAccessReadsAndWritesOneWord
  refine fun s pa w => ⟨rfl, Iff.rfl, fun hin => ⟨physRead_inside hin, ?_⟩,
    fun hout => ⟨physRead_outside hout, physWrite_outside hout⟩⟩
  exact ⟨_, physWrite_inside hin, read_write_same _ _ _, writeMem_onlyWord s hin.1 w⟩

/-! ### Translation (R75 to R79) -/

/-- Settles O10, by the model's own equation of translation in Kernel mode. -/
theorem kernelTranslationIsTheIdentity : Obligations.KernelTranslationIsTheIdentity := by
  unfold Obligations.KernelTranslationIsTheIdentity
  exact fun s va forWrite => translate_kernel va forWrite s

/-- A flag is set when its character is there and is not '0' (R75, D34). -/
theorem flagSet_iff (f : Text) (i : Nat) : flagSet f i = true ↔ ∃ c, f[i]? = some c ∧ c ≠ '0' := by
  unfold flagSet
  cases f[i]? <;> simp

/-- The page walk of `va` passes steps 1 to 3 of R77 and goes to the table entry of `page` at physical address
`entry`. -/
structure WalkReaches (va page entry : Int) (s : State) : Prop where
  nonneg : 0 ≤ va
  page_eq : va / s.cfg.pageSize = page
  inTable : page < s.xi .ptlr
  entry_eq : s.xi .ptbr + 2 * page = entry

section
variable {va page entry : Int} {s : State} {forWrite : Bool}

theorem translate_negative (h : va < 0) : translateAddr .user va forWrite s = .error (.pageFault va (-1)) :=
  if_pos h

theorem translate_beyondTable (hva : 0 ≤ va) (hpage : va / s.cfg.pageSize = page) (h : s.xi .ptlr ≤ page) :
    translateAddr .user va forWrite s = .error (.pageFault va page) := by
  subst hpage
  simp [translateAddr, translateUser, not_lt.mpr hva, h]

/-- Steps 4 to 8 of R77, when the flags Word can be read: the flag checks in their order, then the frame's Word. -/
theorem translate_flags (h : WalkReaches va page entry s) (hflags : s.inMemory (entry + 1)) :
    translateAddr .user va forWrite s =
      if entryValid (asString (s.mem.read (entry + 1).toNat)) = false then .error (.pageFault va page)
      else if forWrite = true ∧ entryWritable (asString (s.mem.read (entry + 1).toNat)) = false then
        .error (.memoryProtectionFault va page)
      else (physRead entry s).map fun frame => asInteger frame * s.cfg.pageSize + va % s.cfg.pageSize := by
  obtain ⟨hva, rfl, hin, rfl⟩ := h
  simp only [translateAddr, translateUser, if_neg (not_lt.mpr hva), if_neg (not_le.mpr hin), physRead_inside hflags]
  cases physRead (s.xi .ptbr + 2 * (va / s.cfg.pageSize)) s <;> rfl

theorem translate_flagsOutside (h : WalkReaches va page entry s) (hflags : ¬ s.inMemory (entry + 1)) :
    translateAddr .user va forWrite s = .error (.outOfRange (entry + 1)) := by
  obtain ⟨hva, rfl, hin, rfl⟩ := h
  simp only [translateAddr, translateUser, if_neg (not_lt.mpr hva), if_neg (not_le.mpr hin), physRead_outside hflags]

variable {flags : Text}

theorem translate_invalid (h : WalkReaches va page entry s) (hin : s.inMemory (entry + 1))
    (hflags : asString (s.mem.read (entry + 1).toNat) = flags) (hvalid : entryValid flags = false) :
    translateAddr .user va forWrite s = .error (.pageFault va page) := by
  rw [translate_flags h hin, hflags, if_pos hvalid]

theorem translate_readOnly (h : WalkReaches va page entry s) (hin : s.inMemory (entry + 1))
    (hflags : asString (s.mem.read (entry + 1).toNat) = flags) (hvalid : entryValid flags = true)
    (hwrite : forWrite = true) (hro : entryWritable flags = false) :
    translateAddr .user va forWrite s = .error (.memoryProtectionFault va page) := by
  rw [translate_flags h hin, hflags, if_neg (by simp [hvalid]), if_pos ⟨hwrite, hro⟩]

/-- Once the flag checks pass, only the read of the frame's Word can fail. -/
theorem translate_allowed (h : WalkReaches va page entry s) (hin : s.inMemory (entry + 1))
    (hflags : asString (s.mem.read (entry + 1).toNat) = flags) (hvalid : entryValid flags = true)
    (hwrite : forWrite = false ∨ entryWritable flags = true) :
    translateAddr .user va forWrite s =
      (physRead entry s).map fun frame => asInteger frame * s.cfg.pageSize + va % s.cfg.pageSize := by
  have hno : ¬ (forWrite = true ∧ entryWritable flags = false) := by
    rcases hwrite with h | h <;> simp [h]
  rw [translate_flags h hin, hflags, if_neg (by simp [hvalid]), if_neg hno]

theorem translate_mapped {frame : Word} (h : WalkReaches va page entry s) (hin : s.inMemory (entry + 1))
    (hflags : asString (s.mem.read (entry + 1).toNat) = flags) (hvalid : entryValid flags = true)
    (hwrite : forWrite = false ∨ entryWritable flags = true) (hframeIn : s.inMemory entry)
    (hframe : s.mem.read entry.toNat = frame) :
    translateAddr .user va forWrite s = .ok (asInteger frame * s.cfg.pageSize + va % s.cfg.pageSize) := by
  rw [translate_allowed h hin hflags hvalid hwrite, physRead_inside hframeIn, hframe]
  rfl

theorem translate_frameOutside (h : WalkReaches va page entry s) (hin : s.inMemory (entry + 1))
    (hflags : asString (s.mem.read (entry + 1).toNat) = flags) (hvalid : entryValid flags = true)
    (hwrite : forWrite = false ∨ entryWritable flags = true) (hframe : ¬ s.inMemory entry) :
    translateAddr .user va forWrite s = .error (.outOfRange entry) := by
  rw [translate_allowed h hin hflags hvalid hwrite, physRead_outside hframe]
  rfl

end

/-- Settles O11: an address below 0 or beyond the table never reaches the walk; one in the table has the outcome of
its entry. -/
theorem userTranslationChecksInOrder : Obligations.UserTranslationChecksInOrder := by
  unfold Obligations.UserTranslationChecksInOrder
  refine ⟨fun f => ⟨flagSet_iff f 1, flagSet_iff f 2⟩, fun s va forWrite => ?_⟩
  have hreach (hva : 0 ≤ va) (hpage : va / s.cfg.pageSize < s.xi .ptlr) :
      WalkReaches va _ _ s := ⟨hva, rfl, hpage, rfl⟩
  refine ⟨translate_negative, fun hva => translate_beyondTable hva rfl,
    fun hva hpage => translate_flagsOutside (hreach hva hpage),
    fun hva hpage hin => ⟨?_, ?_, fun hvalid hwrite => ⟨?_, ?_⟩⟩⟩
  · exact translate_invalid (hreach hva hpage) hin rfl
  · exact translate_readOnly (hreach hva hpage) hin rfl
  · exact translate_frameOutside (hreach hva hpage) hin rfl hvalid hwrite
  · exact fun hframe => translate_mapped (hreach hva hpage) hin rfl hvalid hwrite hframe rfl

/-- Settles O12: the walk of address 0 goes to the entry of page 0 at 1000, that of 513 to the entry of page 1 at
1002. -/
theorem translationWorkedExample : Obligations.TranslationWorkedExample := by
  unfold Obligations.TranslationWorkedExample
  intro s hsize hmem hbase hlimit hframe
  have hin {pa : Int} (hlow : 0 ≤ pa) (hhigh : pa < 1004) : s.inMemory pa := ⟨hlow, by omega⟩
  have hpage0 : WalkReaches 0 0 1000 s := ⟨le_rfl, Int.zero_ediv _, by omega, by omega⟩
  have hpage513 : (513 : Int) / s.cfg.pageSize = 1 := by simp [hsize]
  have hflagsIn : s.inMemory (1000 + 1) := hin (by decide) (by decide)
  have hmapped {fw : Bool} {flags : Text} (hflags : asString (s.mem.read 1001) = flags)
      (hvalid : entryValid flags = true) (hwrite : fw = false ∨ entryWritable flags = true) :
      translateAddr .user 0 fw s = .ok 2560 := by
    rw [translate_mapped hpage0 hflagsIn hflags hvalid hwrite (hin (by decide) (by decide)) hframe, hsize]
    decide
  refine ⟨fun h => ?_, fun h => ?_, fun h => ⟨?_, ?_⟩, fun hone => ?_, fun htwo hframe1 hflags1 => ?_⟩
  · exact hmapped (congrArg asString h) (by decide) (.inr (by decide))
  · exact translate_invalid hpage0 hflagsIn (congrArg asString h) (by decide)
  · exact translate_readOnly hpage0 hflagsIn (congrArg asString h) (by decide) rfl (by decide)
  · exact hmapped (congrArg asString h) (by decide) (.inl rfl)
  · exact translate_beyondTable (by decide) hpage513 hone.le
  · have hpage1 : WalkReaches 513 1 1002 s := ⟨by decide, hpage513, by omega, by omega⟩
    rw [translate_mapped hpage1 (hin (by decide) (by decide)) (congrArg asString hflags1) (by decide) (.inl rfl)
      (hin (by decide) (by decide)) hframe1, hsize]
    decide

end Sys2Proof.Machine
end

section
/-! PROOFS of spec/30_encoding.md: the tokens of a slot, the decoding faults in order, decode against encode, and the
fetch of a slot. First the layer they share: one lemma for each kind of token, `tokens` without its fuel, the parser
as the grammar of operands, and the rows of the opcode map against R120's table (`opcodeMap_implements`). -/

namespace Sys2Proof

open Machine

/-! ### One token (R105 to R109) -/

theorem isBlank_iff (c : Char) : isBlank c = true ↔ c = ' ' ∨ c = '\t' := by simp [isBlank]

theorem isBlank_of_isIdChar {c : Char} (h : isIdChar c = true) : isBlank c = false := by
  refine Bool.eq_false_iff.mpr fun hblank => ?_
  obtain rfl | rfl := (isBlank_iff c).mp hblank <;> exact absurd h (by decide)

theorem isIdChar_iff (c : Char) : isIdChar c = true ↔ c.isAlpha = true ∨ c.isDigit = true ∨ c = '_' := by
  simp [isIdChar, or_assoc]

theorem isIdChar_false_iff (c : Char) :
    isIdChar c = false ↔ ¬ (c.isAlpha = true ∨ c.isDigit = true ∨ c = '_') := by
  rw [← isIdChar_iff, Bool.not_eq_true]

theorem isAlpha_of_isDigit {c : Char} (h : c.isDigit = true) : c.isAlpha = false := by
  simp only [Char.isDigit, Char.isAlpha, Char.isUpper, Char.isLower] at *
  grind

/-- A longest run ends where the rest begins with a character outside it. -/
theorem takeWhile_run {p : Char → Bool} {run rest : Text} (hrun : ∀ c ∈ run, p c = true)
    (hrest : ∀ c ∈ rest.head?, p c = false) : (run ++ rest).takeWhile p = run := by
  rw [List.takeWhile_append_of_pos hrun]
  cases rest with
  | nil => simp
  | cons c rest => simp [hrest c (by simp)]

theorem dropWhile_run {p : Char → Bool} {run rest : Text} (hrun : ∀ c ∈ run, p c = true)
    (hrest : ∀ c ∈ rest.head?, p c = false) : (run ++ rest).dropWhile p = rest := by
  rw [List.dropWhile_append_of_pos hrun]
  cases rest with
  | nil => rfl
  | cons c rest => simp [hrest c (by simp)]

/-- Every character of the text is other than a closing quote. -/
theorem forall_ne_quote {x : Text} (hx : '"' ∉ x) : ∀ c ∈ x, (c != '"') = true :=
  fun c hc => by simpa using ne_of_mem_of_not_mem hc hx

theorem skipBlanks_blank {c : Char} (hc : c = ' ' ∨ c = '\t') (t : Text) : skipBlanks (c :: t) = skipBlanks t := by
  rw [skipBlanks, List.dropWhile_cons_of_pos ((isBlank_iff c).mpr hc), skipBlanks]

theorem skipBlanks_cons {c : Char} (hc : isBlank c = false) (t : Text) : skipBlanks (c :: t) = c :: t := by
  simp [skipBlanks, hc]

theorem scan_blank (first : Bool) {c : Char} (hc : c = ' ' ∨ c = '\t') (t : Text) :
    scan first (c :: t) = scan first t := by
  rw [scan, skipBlanks_blank hc, scan]

theorem scan_identifier (first : Bool) {c : Char} {name rest : Text} (hc : c.isAlpha = true)
    (hname : ∀ ch ∈ name, isIdChar ch = true) (hrest : ∀ ch ∈ rest.head?, isIdChar ch = false) :
    scan first (c :: name ++ rest) =
      .token (if first = true then .keyword (c :: name) else .register (c :: name)) rest := by
  have hblank : isBlank c = false := isBlank_of_isIdChar ((isIdChar_iff c).mpr (.inl hc))
  simp [scan, skipBlanks_cons hblank, isIdStart, hc, scanIdentifier, takeWhile_run hname hrest,
    dropWhile_run hname hrest]

/-- The digits of an integer literal are read to their end (R107). -/
theorem scanInteger_digits (negative : Bool) {ds rest : Text} (hne : ds ≠ []) (hds : ∀ d ∈ ds, d.isDigit = true)
    (hrest : ∀ ch ∈ rest.head?, ch.isDigit = false) :
    scanInteger negative (ds ++ rest) =
      .token (.int (if negative then -(digitsValue ds : Int) else digitsValue ds)) rest := by
  cases ds with
  | nil => exact absurd rfl hne
  | cons d ds => rw [scanInteger, leadingDigits_append hds hrest, dropWhile_run hds hrest]

theorem scanInteger_no_digit (negative : Bool) {rest : Text} (hrest : ∀ ch ∈ rest.head?, ch.isDigit = false) :
    scanInteger negative rest = .bad := by
  have hnone : leadingDigits rest = [] := leadingDigits_append (t := []) (by simp) hrest
  rw [scanInteger, hnone]

theorem scan_plus (first : Bool) (t : Text) : scan first ('+' :: t) = scanInteger false t := rfl

theorem scan_minus (first : Bool) (t : Text) : scan first ('-' :: t) = scanInteger true t := rfl

theorem scan_digit (first : Bool) {d : Char} (hd : d.isDigit = true) (t : Text) :
    scan first (d :: t) = scanInteger false (d :: t) := by
  have hblank : isBlank d = false := isBlank_of_isIdChar ((isIdChar_iff d).mpr (.inr (.inl hd)))
  simp [scan, skipBlanks_cons hblank, isIdStart, isAlpha_of_isDigit hd, hd]

theorem scan_integer (first : Bool) {sign ds rest : Text} (h : IntegerText sign ds)
    (hrest : ∀ ch ∈ rest.head?, ch.isDigit = false) :
    scan first (sign ++ ds ++ rest) =
      .token (.int (if sign = ['-'] then -(digitsValue ds : Int) else digitsValue ds)) rest := by
  obtain ⟨hsign, hne, hds⟩ := h
  obtain rfl | rfl | rfl := hsign
  · have hscan : scan first (ds ++ rest) = scanInteger false (ds ++ rest) := by
      cases ds with
      | nil => exact absurd rfl hne
      | cons d ds => exact scan_digit first (hds d (by simp)) _
    exact hscan.trans (scanInteger_digits false hne hds hrest)
  · exact (scan_plus first _).trans (scanInteger_digits false hne hds hrest)
  · exact (scan_minus first _).trans (scanInteger_digits true hne hds hrest)

theorem scan_sign_bad (first : Bool) {c : Char} {rest : Text} (hc : c = '+' ∨ c = '-')
    (hrest : ∀ ch ∈ rest.head?, ch.isDigit = false) : scan first (c :: rest) = .bad := by
  obtain rfl | rfl := hc
  · exact (scan_plus first rest).trans (scanInteger_no_digit false hrest)
  · exact (scan_minus first rest).trans (scanInteger_no_digit true hrest)

theorem scan_quote (first : Bool) (t : Text) : scan first ('"' :: t) = scanString t := rfl

theorem scan_string (first : Bool) {x : Text} (rest : Text) (hx : '"' ∉ x) :
    scan first ('"' :: x ++ '"' :: rest) = .token (.str x) rest := by
  have hend : ∀ c ∈ ('"' :: rest).head?, (c != '"') = false := by simp
  rw [List.cons_append, scan_quote, scanString, dropWhile_run (forall_ne_quote hx) hend,
    takeWhile_run (forall_ne_quote hx) hend]

theorem scan_open_string (first : Bool) {x : Text} (hx : '"' ∉ x) : scan first ('"' :: x) = .bad := by
  have hall : x.dropWhile (· != '"') = [] := List.dropWhile_eq_nil_iff.mpr (forall_ne_quote hx)
  rw [scan_quote, scanString, hall]

theorem scan_other_bad (first : Bool) {c : Char} (rest : Text) (halpha : c.isAlpha = false)
    (hdigit : c.isDigit = false) (hc : c ∉ [' ', '\t', '+', '-', '"', ',', '[', ']']) :
    scan first (c :: rest) = .bad := by
  simp only [List.mem_cons, List.not_mem_nil, or_false, not_or] at hc
  obtain ⟨hspace, htab, hplus, hminus, hquote, hcomma, hopen, hclose⟩ := hc
  have hblank : isBlank c = false := by simp [isBlank, hspace, htab]
  simp [scan, skipBlanks_cons hblank, isIdStart, *]

/-! ### The tokens of a text (R110) -/

/-- A scan that finds a token leaves fewer than `n` characters. -/
def Scan.LeavesBelow (n : Nat) : Scan → Prop
  | .token _ rest => rest.length < n
  | _ => True

theorem Scan.LeavesBelow.mono {m n : Nat} {r : Scan} (h : r.LeavesBelow m) (hmn : m ≤ n) : r.LeavesBelow n := by
  cases r with
  | token tok rest => exact Nat.lt_of_lt_of_le h hmn
  | finished | bad => trivial

theorem scanIdentifier_leavesBelow (first : Bool) (c : Char) (t : Text) :
    (scanIdentifier first c t).LeavesBelow (t.length + 1) :=
  Nat.lt_succ_of_le (List.dropWhile_suffix _).length_le

theorem scanInteger_leavesBelow (negative : Bool) (t : Text) : (scanInteger negative t).LeavesBelow t.length := by
  unfold scanInteger
  split
  · trivial
  · rename_i hds
    have hpos : 0 < (t.takeWhile Char.isDigit).length := List.length_pos_of_ne_nil hds
    have hsplit := congrArg List.length (List.takeWhile_append_dropWhile (p := Char.isDigit) (l := t))
    rw [List.length_append] at hsplit
    simp only [Scan.LeavesBelow]
    omega

theorem scanString_leavesBelow (t : Text) : (scanString t).LeavesBelow t.length := by
  unfold scanString
  split
  · trivial
  · rename_i c rest h
    have hle : (c :: rest).length ≤ t.length := h ▸ (List.dropWhile_suffix _).length_le
    exact hle

/-- Every token takes at least one character. -/
theorem scan_leavesBelow (first : Bool) (t : Text) : (scan first t).LeavesBelow t.length := by
  unfold scan
  split
  · trivial
  · rename_i c rest h
    have hall : (c :: rest).length ≤ t.length := h ▸ (List.dropWhile_suffix _).length_le
    have hrest : rest.length ≤ t.length := Nat.le_of_succ_le hall
    split_ifs
    · exact (scanIdentifier_leavesBelow first c rest).mono hall
    · exact (scanInteger_leavesBelow false (c :: rest)).mono hall
    · exact (scanInteger_leavesBelow false rest).mono hrest
    · exact (scanInteger_leavesBelow true rest).mono hrest
    · exact (scanString_leavesBelow rest).mono hrest
    · exact hall
    · exact hall
    · exact hall
    · trivial

theorem tokensFuel_finished (fuel : Nat) {t : Text} (h : scan false t = .finished) :
    tokensFuel (fuel + 1) t = some [] := by
  rw [tokensFuel, h]

theorem tokensFuel_bad (fuel : Nat) {t : Text} (h : scan false t = .bad) : tokensFuel (fuel + 1) t = none := by
  rw [tokensFuel, h]

theorem tokensFuel_token (fuel : Nat) {t rest : Text} {tok : Token} (h : scan false t = .token tok rest) :
    tokensFuel (fuel + 1) t = (tokensFuel fuel rest).map (tok :: ·) := by
  rw [tokensFuel, h]
  dsimp only
  cases tokensFuel fuel rest <;> rfl

/-- Any two fuels greater than the text's length give the same tokens. -/
theorem tokensFuel_congr : ∀ {m n : Nat} {t : Text}, t.length < m → t.length < n → tokensFuel m t = tokensFuel n t
  | 0, _, _, hm, _ => absurd hm (Nat.not_lt_zero _)
  | _ + 1, 0, _, _, hn => absurd hn (Nat.not_lt_zero _)
  | m + 1, n + 1, t, hm, hn => by
    have hleaves := scan_leavesBelow false t
    cases hscan : scan false t with
    | finished => rw [tokensFuel_finished m hscan, tokensFuel_finished n hscan]
    | bad => rw [tokensFuel_bad m hscan, tokensFuel_bad n hscan]
    | token tok rest =>
      rw [hscan] at hleaves
      have hrest : rest.length < t.length := hleaves
      have ih : tokensFuel m rest = tokensFuel n rest := tokensFuel_congr (by omega) (by omega)
      rw [tokensFuel_token m hscan, tokensFuel_token n hscan, ih]

theorem tokens_finished {t : Text} (h : scan false t = .finished) : tokens t = some [] := tokensFuel_finished _ h

theorem tokens_bad {t : Text} (h : scan false t = .bad) : tokens t = none := tokensFuel_bad _ h

/-- The recursion of `tokens`, without fuel. -/
theorem tokens_token {t rest : Text} {tok : Token} (h : scan false t = .token tok rest) :
    tokens t = (tokens rest).map (tok :: ·) := by
  have hleaves := scan_leavesBelow false t
  rw [h] at hleaves
  have hrest : rest.length < t.length := hleaves
  rw [tokens, tokensFuel_token _ h, tokensFuel_congr hrest (Nat.lt_succ_self _), ← tokens]

/-- A blank in front changes no token. -/
theorem tokens_space (t : Text) : tokens (' ' :: t) = tokens t := by
  have hscan : scan false (' ' :: t) = scan false t := scan_blank false (.inl rfl) t
  cases h : scan false t with
  | finished => rw [tokens_finished h, tokens_finished (hscan.trans h)]
  | bad => rw [tokens_bad h, tokens_bad (hscan.trans h)]
  | token tok rest => rw [tokens_token h, tokens_token (hscan.trans h)]

/-! ### The grammar of operands (R111 to R113) -/

/-- `parseOperand` takes the tokens of one operand off the front, however its offset is spelled. -/
theorem parseOperand_append {op : RawOperand} {ts : List Token} (h : SpellsOperand op ts) (rest : List Token) :
    parseOperand (ts ++ rest) = some (op, rest) := by
  cases h with
  | reg n | int v | str x => rfl
  | bare b | offset b off => cases b <;> rfl

theorem spellsOperand_of_parse {op : RawOperand} {ts rest : List Token} (h : parseOperand ts = some (op, rest)) :
    ∃ us, SpellsOperand op us ∧ ts = us ++ rest := by
  unfold parseOperand at h
  split at h <;> cases h
  · exact ⟨_, .reg _, rfl⟩
  · exact ⟨_, .int _, rfl⟩
  · exact ⟨_, .str _, rfl⟩
  · exact ⟨_, .bare (.reg _), rfl⟩
  · exact ⟨_, .offset (.reg _) _, rfl⟩
  · exact ⟨_, .bare (.int _), rfl⟩
  · exact ⟨_, .offset (.int _) _, rfl⟩

theorem parseOperands_one {op : RawOperand} {ts : List Token} (h : parseOperand ts = some (op, [])) :
    parseOperands ts = some [op] := by
  cases ts with
  | nil => cases h
  | cons tok ts => simp [parseOperands, h]

theorem parseOperands_two {a b : RawOperand} {ts us : List Token} (ha : parseOperand ts = some (a, .comma :: us))
    (hb : parseOperand us = some (b, [])) : parseOperands ts = some [a, b] := by
  cases ts with
  | nil => cases ha
  | cons tok ts => simp [parseOperands, ha, hb]

/-- The parser answers exactly the operands that the tokens spell. -/
theorem parseOperands_iff {ts : List Token} {ops : List RawOperand} :
    parseOperands ts = some ops ↔ SpellsOperands ops ts := by
  constructor
  · intro h
    unfold parseOperands at h
    split at h
    · cases h
      exact .none
    · split at h
      · rename_i a ha
        cases h
        obtain ⟨us, hus, rfl⟩ := spellsOperand_of_parse ha
        simpa using SpellsOperands.one hus
      · rename_i a rest ha
        obtain ⟨us, hus, rfl⟩ := spellsOperand_of_parse ha
        split at h
        · rename_i b hb
          cases h
          obtain ⟨vs, hvs, rfl⟩ := spellsOperand_of_parse hb
          simpa using SpellsOperands.two hus hvs
        · cases h
      · cases h
  · intro h
    cases h with
    | none => rfl
    | one ha => exact parseOperands_one (by simpa using parseOperand_append ha [])
    | two ha hb => exact parseOperands_two (parseOperand_append ha _) (by simpa using parseOperand_append hb [])

/-! ### Register names, resolved left to right (R124) -/

/-- The first of `names` that no register has. -/
def unknownName (names : List Text) : Option Text := names.find? fun n => (lookup n).isNone

theorem firstUnknown_eq (ops : List RawOperand) : firstUnknown ops = unknownName (ops.flatMap operandNames) := rfl

theorem unknownName_append (names more : List Text) :
    unknownName (names ++ more) = (unknownName names).or (unknownName more) := List.find?_append

theorem unknownName_singleton (n : Text) : unknownName [n] = if (lookup n).isNone then some n else none :=
  List.find?_singleton

/-- `x` resolves `names` from left to right: it fails with the first of them that no register has; if there is none,
it answers a value of which `P` holds. -/
structure Resolves {α : Type} (names : List Text) (P : α → Prop) (x : Except DecodeError α) : Prop where
  unknown : ∀ n, unknownName names = some n → x = .error (.unknownRegister n)
  known : unknownName names = none → ∃ a, x = .ok a ∧ P a

theorem Resolves.ok {α : Type} {P : α → Prop} {a : α} (h : P a) : Resolves [] P (.ok a) :=
  ⟨fun _ hn => (nomatch hn), fun _ => ⟨a, rfl, h⟩⟩

theorem Resolves.bind {α β : Type} {names more : List Text} {P : α → Prop} {Q : β → Prop}
    {x : Except DecodeError α} {f : α → Except DecodeError β} (hx : Resolves names P x)
    (hf : ∀ a, P a → Resolves more Q (f a)) : Resolves (names ++ more) Q (x.bind f) := by
  have happend := unknownName_append names more
  cases hnames : unknownName names with
  | some n =>
    rw [hnames, Option.some_or] at happend
    refine ⟨fun m hm => ?_, fun hnone => absurd (happend.symm.trans hnone) (by simp)⟩
    obtain rfl : n = m := Option.some.inj (happend.symm.trans hm)
    rw [hx.unknown n hnames]
    rfl
  | none =>
    rw [hnames, Option.none_or] at happend
    obtain ⟨a, rfl, ha⟩ := hx.known hnames
    exact ⟨fun m hm => (hf a ha).unknown m (happend ▸ hm), fun hnone => (hf a ha).known (happend ▸ hnone)⟩

theorem Resolves.map {α β : Type} {names : List Text} {P : α → Prop} {Q : β → Prop} {x : Except DecodeError α}
    {f : α → β} (hx : Resolves names P x) (hf : ∀ a, P a → Q (f a)) : Resolves names Q (x.map f) := by
  refine ⟨fun n hn => ?_, fun hnone => ?_⟩
  · rw [hx.unknown n hn]
    rfl
  · obtain ⟨a, rfl, ha⟩ := hx.known hnone
    exact ⟨f a, rfl, hf a ha⟩

theorem resolve_resolves (n : Text) : Resolves [n] (fun r => r.name = n.map upperChar) (resolve n) := by
  have hname := unknownName_singleton n
  unfold resolve
  cases h : lookup n with
  | some r => exact ⟨fun m hm => by simp [hname, h] at hm, fun _ => ⟨r, rfl, (lookup_some h).symm⟩⟩
  | none =>
    refine ⟨fun m hm => ?_, fun hnone => by simp [hname, h] at hnone⟩
    obtain rfl : n = m := by simpa [hname, h] using hm
    rfl

@[simp] theorem upperNames_reg (n : Text) : upperNames (.reg n) = .reg (n.map upperChar) := rfl

@[simp] theorem upperNames_int (v : Int) : upperNames (.int v) = .int v := rfl

theorem rawBase_resolves (b : RawBase) (off : Int) :
    Resolves (operandNames (.mem b off)) (fun base => RawOperand.mem base.rawBase off = upperNames (.mem b off))
      b.resolve := by
  cases b with
  | reg n => exact (resolve_resolves n).map fun r hr => by rw [RegInt.rawBase, hr, upperNames]
  | int v => exact .ok rfl

theorem toSrc_resolves (op : RawOperand) :
    Resolves ([op].flatMap operandNames) (fun o => o.raw = upperNames op) op.toSrc := by
  rw [List.flatMap_singleton]
  cases op with
  | reg n => exact (resolve_resolves n).map fun r hr => by rw [Src.raw, hr, upperNames]
  | int v => exact .ok rfl
  | str s => exact .ok rfl
  | mem b off => exact (rawBase_resolves b off).map fun base hbase => hbase

/-! ### The rows of the opcode map against R120's patterns -/

theorem matchesPattern_one {forms : List OperandForm} {ops : List RawOperand} :
    MatchesPattern [forms] ops ↔ ∃ a, operandForm a ∈ forms ∧ ops = [a] := by
  simp [MatchesPattern, List.forall₂_cons_left_iff]

theorem matchesPattern_two {forms more : List OperandForm} {ops : List RawOperand} :
    MatchesPattern [forms, more] ops ↔ ∃ a b, operandForm a ∈ forms ∧ operandForm b ∈ more ∧ ops = [a, b] := by
  simp [MatchesPattern, List.forall₂_cons_left_iff]

theorem form_r {op : RawOperand} : operandForm op ∈ [OperandForm.register] ↔ ∃ n, op = .reg n := by
  cases op <;> simp [operandForm]

theorem form_i {op : RawOperand} : operandForm op ∈ [OperandForm.integer] ↔ ∃ v, op = .int v := by
  cases op <;> simp [operandForm]

theorem form_ri {op : RawOperand} :
    operandForm op ∈ [OperandForm.register, .integer] ↔ (∃ n, op = .reg n) ∨ ∃ v, op = .int v := by
  cases op <;> simp [operandForm]

theorem form_rm {op : RawOperand} :
    operandForm op ∈ [OperandForm.register, .dereference] ↔ (∃ n, op = .reg n) ∨ ∃ b off, op = .mem b off := by
  cases op <;> simp [operandForm]

theorem form_any (op : RawOperand) : operandForm op ∈ [OperandForm.register, .integer, .string, .dereference] := by
  cases op <;> simp [operandForm]

/-- The instruction has this keyword and these operands, in R30's spelling. -/
def Instr.WrittenAs (i : Instr) (k : Text) (ops : List RawOperand) : Prop := i.keyword = k ∧ i.rawOperands = ops

theorem Instr.WrittenAs.congr {i : Instr} {k : Text} {ops others : List RawOperand} (h : i.WrittenAs k ops)
    (heq : ops = others) : i.WrittenAs k others :=
  heq ▸ h

/-- The builder of a row with this keyword and this pattern: it resolves the names of operands that match, and
answers the instruction written as the row says; it refuses all others (R123, R124). -/
def Builder.Implements (build : Builder) (k : Text) (pattern : List (List OperandForm)) : Prop :=
  ∀ ops, (MatchesPattern pattern ops ∧
      Resolves (ops.flatMap operandNames) (·.WrittenAs k (ops.map upperNames)) (build ops)) ∨
    (¬ MatchesPattern pattern ops ∧ build ops = .error .malformedOperand)

theorem shapeNone_implements {k : Text} {i : Instr} (hi : i.WrittenAs k []) :
    Builder.Implements (shapeNone i) k [] := by
  intro ops
  unfold shapeNone
  split
  · exact .inl ⟨.nil, .ok hi⟩
  · rename_i hops
    exact .inr ⟨fun h => hops (List.forall₂_nil_left_iff.mp h), rfl⟩

theorem shapeR_implements {k : Text} {mk : Reg → Instr} (hmk : ∀ a, (mk a).WrittenAs k [.reg a.name]) :
    Builder.Implements (shapeR mk) k [[.register]] := by
  intro ops
  unfold shapeR
  split
  · rename_i a
    exact .inl ⟨matchesPattern_one.mpr ⟨_, form_r.mpr ⟨a, rfl⟩, rfl⟩,
      (resolve_resolves a).map fun r hr => (hmk r).congr (by simp [hr])⟩
  · rename_i hops
    refine .inr ⟨fun h => ?_, rfl⟩
    obtain ⟨_, ha, rfl⟩ := matchesPattern_one.mp h
    obtain ⟨a, rfl⟩ := form_r.mp ha
    exact hops a rfl

theorem shapeI_implements {k : Text} {mk : Int → Instr} (hmk : ∀ v, (mk v).WrittenAs k [.int v]) :
    Builder.Implements (shapeI mk) k [[.integer]] := by
  intro ops
  unfold shapeI
  split
  · rename_i v
    exact .inl ⟨matchesPattern_one.mpr ⟨_, form_i.mpr ⟨v, rfl⟩, rfl⟩, .ok (hmk v)⟩
  · rename_i hops
    refine .inr ⟨fun h => ?_, rfl⟩
    obtain ⟨_, hv, rfl⟩ := matchesPattern_one.mp h
    obtain ⟨v, rfl⟩ := form_i.mp hv
    exact hops v rfl

theorem shapeRR_implements {k : Text} {mk : Reg → Reg → Instr}
    (hmk : ∀ a b, (mk a b).WrittenAs k [.reg a.name, .reg b.name]) :
    Builder.Implements (shapeRR mk) k [[.register], [.register]] := by
  intro ops
  unfold shapeRR
  split
  · rename_i a b
    exact .inl ⟨matchesPattern_two.mpr ⟨_, _, form_r.mpr ⟨a, rfl⟩, form_r.mpr ⟨b, rfl⟩, rfl⟩,
      (resolve_resolves a).bind fun ra ha => (resolve_resolves b).map fun rb hb =>
        (hmk ra rb).congr (by simp [ha, hb])⟩
  · rename_i hops
    refine .inr ⟨fun h => ?_, rfl⟩
    obtain ⟨_, _, ha, hb, rfl⟩ := matchesPattern_two.mp h
    obtain ⟨a, rfl⟩ := form_r.mp ha
    obtain ⟨b, rfl⟩ := form_r.mp hb
    exact hops a b rfl

theorem shapeRI_implements {k : Text} {mk : Reg → Int → Instr}
    (hmk : ∀ a v, (mk a v).WrittenAs k [.reg a.name, .int v]) :
    Builder.Implements (shapeRI mk) k [[.register], [.integer]] := by
  intro ops
  unfold shapeRI
  split
  · rename_i a v
    exact .inl ⟨matchesPattern_two.mpr ⟨_, _, form_r.mpr ⟨a, rfl⟩, form_i.mpr ⟨v, rfl⟩, rfl⟩,
      (resolve_resolves a).map fun r hr => (hmk r v).congr (by simp [hr])⟩
  · rename_i hops
    refine .inr ⟨fun h => ?_, rfl⟩
    obtain ⟨_, _, ha, hv, rfl⟩ := matchesPattern_two.mp h
    obtain ⟨a, rfl⟩ := form_r.mp ha
    obtain ⟨v, rfl⟩ := form_i.mp hv
    exact hops a v rfl

theorem shapeRRi_implements {k : Text} {mk : Reg → RegInt → Instr}
    (hmk : ∀ a b, (mk a b).WrittenAs k [.reg a.name, b.raw]) :
    Builder.Implements (shapeRRi mk) k [[.register], [.register, .integer]] := by
  intro ops
  unfold shapeRRi
  split
  · rename_i a b
    exact .inl ⟨matchesPattern_two.mpr ⟨_, _, form_r.mpr ⟨a, rfl⟩, form_ri.mpr (.inl ⟨b, rfl⟩), rfl⟩,
      (resolve_resolves a).bind fun ra ha => (resolve_resolves b).map fun rb hb =>
        (hmk ra (.reg rb)).congr (by simp [RegInt.raw, ha, hb])⟩
  · rename_i a v
    exact .inl ⟨matchesPattern_two.mpr ⟨_, _, form_r.mpr ⟨a, rfl⟩, form_ri.mpr (.inr ⟨v, rfl⟩), rfl⟩,
      (resolve_resolves a).map fun r hr => (hmk r (.int v)).congr (by simp [RegInt.raw, hr])⟩
  · rename_i hreg hint
    refine .inr ⟨fun h => ?_, rfl⟩
    obtain ⟨_, _, ha, hb, rfl⟩ := matchesPattern_two.mp h
    obtain ⟨a, rfl⟩ := form_r.mp ha
    obtain ⟨b, rfl⟩ | ⟨v, rfl⟩ := form_ri.mp hb
    · exact hreg a b rfl
    · exact hint a v rfl

theorem shapeRiRi_implements {k : Text} {mk : RegInt → RegInt → Instr}
    (hmk : ∀ a b, (mk a b).WrittenAs k [a.raw, b.raw]) :
    Builder.Implements (shapeRiRi mk) k [[.register, .integer], [.register, .integer]] := by
  intro ops
  unfold shapeRiRi
  split
  · rename_i a b
    exact .inl ⟨matchesPattern_two.mpr ⟨_, _, form_ri.mpr (.inl ⟨a, rfl⟩), form_ri.mpr (.inl ⟨b, rfl⟩), rfl⟩,
      (resolve_resolves a).bind fun ra ha => (resolve_resolves b).map fun rb hb =>
        (hmk (.reg ra) (.reg rb)).congr (by simp [RegInt.raw, ha, hb])⟩
  · rename_i a w
    exact .inl ⟨matchesPattern_two.mpr ⟨_, _, form_ri.mpr (.inl ⟨a, rfl⟩), form_ri.mpr (.inr ⟨w, rfl⟩), rfl⟩,
      (resolve_resolves a).map fun r hr => (hmk (.reg r) (.int w)).congr (by simp [RegInt.raw, hr])⟩
  · rename_i v b
    exact .inl ⟨matchesPattern_two.mpr ⟨_, _, form_ri.mpr (.inr ⟨v, rfl⟩), form_ri.mpr (.inl ⟨b, rfl⟩), rfl⟩,
      (resolve_resolves b).map fun r hr => (hmk (.int v) (.reg r)).congr (by simp [RegInt.raw, hr])⟩
  · rename_i v w
    exact .inl ⟨matchesPattern_two.mpr ⟨_, _, form_ri.mpr (.inr ⟨v, rfl⟩), form_ri.mpr (.inr ⟨w, rfl⟩), rfl⟩,
      .ok (hmk (.int v) (.int w))⟩
  · rename_i hrr hri hir hii
    refine .inr ⟨fun h => ?_, rfl⟩
    obtain ⟨_, _, ha, hb, rfl⟩ := matchesPattern_two.mp h
    obtain ⟨a, rfl⟩ | ⟨v, rfl⟩ := form_ri.mp ha <;> obtain ⟨b, rfl⟩ | ⟨w, rfl⟩ := form_ri.mp hb
    · exact hrr a b rfl
    · exact hri a w rfl
    · exact hir v b rfl
    · exact hii v w rfl

theorem shapeMove_implements {k : Text} {mk : Dst → Src → Instr}
    (hmk : ∀ d o, (mk d o).WrittenAs k [d.raw, o.raw]) :
    Builder.Implements (shapeMove mk) k
      [[.register, .dereference], [.register, .integer, .string, .dereference]] := by
  intro ops
  unfold shapeMove
  split
  · rename_i a src
    exact .inl ⟨matchesPattern_two.mpr ⟨_, _, form_rm.mpr (.inl ⟨a, rfl⟩), form_any src, rfl⟩,
      (resolve_resolves a).bind fun r hr => (toSrc_resolves src).map fun o ho =>
        (hmk (.reg r) o).congr (by simp [Dst.raw, hr, ho])⟩
  · rename_i b off src
    exact .inl ⟨matchesPattern_two.mpr ⟨_, _, form_rm.mpr (.inr ⟨b, off, rfl⟩), form_any src, rfl⟩,
      (rawBase_resolves b off).bind fun base hbase => (toSrc_resolves src).map fun o ho =>
        (hmk (.mem base off) o).congr (by simp [Dst.raw, hbase, ho])⟩
  · rename_i hreg hmem
    refine .inr ⟨fun h => ?_, rfl⟩
    obtain ⟨_, src, hd, -, rfl⟩ := matchesPattern_two.mp h
    obtain ⟨a, rfl⟩ | ⟨b, off, rfl⟩ := form_rm.mp hd
    · exact hreg a src rfl
    · exact hmem b off src rfl

/-- A row of the opcode map does what the entry of R120's table says. -/
def RowImplements (row : Text × Builder) (entry : Text × List (List OperandForm)) : Prop :=
  row.1 = entry.1 ∧ row.2.Implements entry.1 entry.2

/-- The rows of the opcode map, in its order, against R120's table. -/
theorem opcodeMap_implements : List.Forall₂ RowImplements opcodeMap operandPatterns := by
  have row {k : Text} {build : Builder} {pattern : List (List OperandForm)} (h : build.Implements k pattern) :
      RowImplements (k, build) (k, pattern) := ⟨rfl, h⟩
  have move {k mk} hmk := row (@shapeMove_implements k mk hmk)
  have rri {k mk} hmk := row (@shapeRRi_implements k mk hmk)
  have r {k mk} hmk := row (@shapeR_implements k mk hmk)
  have rr {k mk} hmk := row (@shapeRR_implements k mk hmk)
  have ri {k mk} hmk := row (@shapeRI_implements k mk hmk)
  have i {k mk} hmk := row (@shapeI_implements k mk hmk)
  have none {k instr} hi := row (@shapeNone_implements k instr hi)
  have riri {k mk} hmk := row (@shapeRiRi_implements k mk hmk)
  simp only [opcodeMap, operandPatterns, List.forall₂_cons]
  exact ⟨move fun _ _ => ⟨rfl, rfl⟩, move fun _ _ => ⟨rfl, rfl⟩,
    rri fun _ _ => ⟨rfl, rfl⟩, rri fun _ _ => ⟨rfl, rfl⟩, rri fun _ _ => ⟨rfl, rfl⟩,
    rri fun _ _ => ⟨rfl, rfl⟩, rri fun _ _ => ⟨rfl, rfl⟩,
    r fun _ => ⟨rfl, rfl⟩, r fun _ => ⟨rfl, rfl⟩,
    rr fun _ _ => ⟨rfl, rfl⟩, rr fun _ _ => ⟨rfl, rfl⟩, rr fun _ _ => ⟨rfl, rfl⟩,
    rr fun _ _ => ⟨rfl, rfl⟩, rr fun _ _ => ⟨rfl, rfl⟩, rr fun _ _ => ⟨rfl, rfl⟩,
    ri fun _ _ => ⟨rfl, rfl⟩, ri fun _ _ => ⟨rfl, rfl⟩, i fun _ => ⟨rfl, rfl⟩,
    r fun _ => ⟨rfl, rfl⟩, r fun _ => ⟨rfl, rfl⟩, i fun _ => ⟨rfl, rfl⟩, none ⟨rfl, rfl⟩,
    none ⟨rfl, rfl⟩, none ⟨rfl, rfl⟩, i fun _ => ⟨rfl, rfl⟩, none ⟨rfl, rfl⟩,
    riri fun _ _ => ⟨rfl, rfl⟩, riri fun _ _ => ⟨rfl, rfl⟩, riri fun _ _ => ⟨rfl, rfl⟩,
    r fun _ => ⟨rfl, rfl⟩,
    none ⟨rfl, rfl⟩, none ⟨rfl, rfl⟩, none ⟨rfl, rfl⟩, none ⟨rfl, rfl⟩, none ⟨rfl, rfl⟩, .nil⟩

/-- No two rows share a keyword, so the map answers exactly its rows (R120, R121). -/
theorem builderOf_iff {k : Text} {build : Builder} : builderOf k = some build ↔ (k, build) ∈ opcodeMap := by
  unfold builderOf
  split
  · rename_i row hrow
    have hmem : row ∈ opcodeMap := List.mem_of_find?_eq_some hrow
    have hkey : row.1 = k := by simpa using List.find?_some hrow
    refine ⟨fun h => ?_, fun h => ?_⟩
    · cases h
      exact hkey ▸ hmem
    · rw [List.inj_on_of_nodup_map opcodeMap_keywords_nodup hmem h hkey]
  · rename_i hnone
    refine ⟨fun h => (nomatch h), fun h => ?_⟩
    simpa using List.find?_eq_none.mp hnone _ h

/-- Of two related lists, each element of one is related to an element of the other. -/
theorem exists_related_of_mem {α β : Type} {R : α → β → Prop} {xs : List α} {ys : List β}
    (h : List.Forall₂ R xs ys) : (∀ x ∈ xs, ∃ y ∈ ys, R x y) ∧ ∀ y ∈ ys, ∃ x ∈ xs, R x y := by
  induction h with
  | nil => simp
  | cons hr _ ih =>
    simp only [List.mem_cons]
    grind

/-- The opcode map and R120's table list the same keywords, each with its pattern. -/
theorem exists_pattern {k : Text} {build : Builder} (h : builderOf k = some build) :
    ∃ pattern, (k, pattern) ∈ operandPatterns ∧ build.Implements k pattern := by
  obtain ⟨⟨_, pattern⟩, hentry, rfl, himpl⟩ :=
    (exists_related_of_mem opcodeMap_implements).1 _ (builderOf_iff.mp h)
  exact ⟨pattern, hentry, himpl⟩

theorem exists_builder {k : Text} {pattern : List (List OperandForm)} (h : (k, pattern) ∈ operandPatterns) :
    ∃ build, builderOf k = some build ∧ build.Implements k pattern := by
  obtain ⟨⟨_, build⟩, hrow, rfl, himpl⟩ := (exists_related_of_mem opcodeMap_implements).2 _ h
  exact ⟨build, builderOf_iff.mpr hrow, himpl⟩

theorem builderOf_unlisted {k : Text} (h : k ∉ operandPatterns.map Prod.fst) : builderOf k = none := by
  cases hb : builderOf k with
  | none => rfl
  | some build =>
    obtain ⟨pattern, hmem, -⟩ := exists_pattern hb
    exact absurd (List.mem_map_of_mem hmem) h

theorem Builder.Implements.malformed {build : Builder} {k : Text} {pattern : List (List OperandForm)}
    {ops : List RawOperand} (h : build.Implements k pattern) (hno : ¬ MatchesPattern pattern ops) :
    build ops = .error .malformedOperand := by
  obtain ⟨hmatch, -⟩ | ⟨-, herr⟩ := h ops
  · exact absurd hmatch hno
  · exact herr

theorem Builder.Implements.resolves {build : Builder} {k : Text} {pattern : List (List OperandForm)}
    {ops : List RawOperand} (h : build.Implements k pattern) (hmatch : MatchesPattern pattern ops) :
    Resolves (ops.flatMap operandNames) (·.WrittenAs k (ops.map upperNames)) (build ops) := by
  obtain ⟨-, hres⟩ | ⟨hno, -⟩ := h ops
  · exact hres
  · exact absurd hmatch hno

/-- A row builds instructions of its own keyword only. -/
theorem Builder.Implements.keyword {build : Builder} {k : Text} {pattern : List (List OperandForm)}
    {ops : List RawOperand} {i : Instr} (h : build.Implements k pattern) (hi : build ops = .ok i) :
    i.keyword = k := by
  by_cases hmatch : MatchesPattern pattern ops
  · have hres := h.resolves hmatch
    cases hnames : unknownName (ops.flatMap operandNames) with
    | some n => exact absurd (hi.symm.trans (hres.unknown n hnames)) (by simp)
    | none =>
      obtain ⟨j, hj, hkey, -⟩ := hres.known hnames
      cases hi.symm.trans hj
      exact hkey
  · exact absurd (hi.symm.trans (h.malformed hmatch)) (by simp)

/-! ### Decoding, fault by fault (R128) -/

theorem decode_no_keyword {t : Text} (h : ∀ k rest, scan true t ≠ .token (.keyword k) rest) :
    decode t = .error .illegalInstruction := by
  unfold decode
  split
  · exact absurd ‹_› (h _ _)
  · rfl

section

variable {t k rest : Text} {build : Builder} {ts : List Token}

theorem decode_unknown_keyword (hscan : scan true t = .token (.keyword k) rest) (hb : builderOf k = none) :
    decode t = .error .illegalInstruction := by
  simp only [decode, hscan, hb]

theorem decode_lexical_error (hscan : scan true t = .token (.keyword k) rest) (hb : builderOf k = some build)
    (hts : tokens rest = none) : decode t = .error .malformedOperand := by
  simp only [decode, hscan, hb, hts]

theorem decode_wrong_shape (hscan : scan true t = .token (.keyword k) rest) (hb : builderOf k = some build)
    (hts : tokens rest = some ts) (hops : parseOperands ts = none) : decode t = .error .malformedOperand := by
  simp only [decode, hscan, hb, hts, hops]

theorem decode_builds {ops : List RawOperand} (hscan : scan true t = .token (.keyword k) rest)
    (hb : builderOf k = some build) (hts : tokens rest = some ts) (hops : SpellsOperands ops ts) :
    decode t = build ops := by
  simp only [decode, hscan, hb, hts, parseOperands_iff.mpr hops]

/-- Tokens that spell no operands of the row's pattern, as operands of another pattern or as none at all. -/
theorem decode_no_match {pattern : List (List OperandForm)} (hscan : scan true t = .token (.keyword k) rest)
    (hb : builderOf k = some build) (himpl : build.Implements k pattern) (hts : tokens rest = some ts)
    (hno : ∀ ops, SpellsOperands ops ts → ¬ MatchesPattern pattern ops) : decode t = .error .malformedOperand := by
  cases hops : parseOperands ts with
  | none => exact decode_wrong_shape hscan hb hts hops
  | some ops =>
    have hspells : SpellsOperands ops ts := parseOperands_iff.mp hops
    rw [decode_builds hscan hb hts hspells, himpl.malformed (hno ops hspells)]

end

/-- A decoded slot begins with the keyword of its instruction (R121). -/
theorem decode_keyword {t : Text} {i : Instr} (h : decode t = .ok i) :
    ∃ rest, scan true t = .token (.keyword i.keyword) rest := by
  obtain ⟨k, rest, build, toks, ops, hscan, hbuild, -, -, hi⟩ := decode_ok h
  obtain ⟨pattern, -, himpl⟩ := exists_pattern hbuild
  exact ⟨rest, himpl.keyword hi ▸ hscan⟩

/-! ### The text of an operand, read back (R112, R113, R126) -/

/-- A text that the lexical layer reads as one identifier (R106). -/
def isIdentifier : Text → Bool
  | [] => false
  | c :: name => c.isAlpha && name.all isIdChar

/-- What may follow an identifier or an integer: a text that does not go on with it. -/
def EndsToken (rest : Text) : Prop := ∀ ch ∈ rest.head?, isIdChar ch = false

theorem EndsToken.no_digit {rest : Text} (h : EndsToken rest) : ∀ ch ∈ rest.head?, ch.isDigit = false := by
  intro ch hch
  have hno := (isIdChar_false_iff ch).mp (h ch hch)
  exact Bool.eq_false_iff.mpr fun hd => hno (.inr (.inl hd))

theorem endsToken_nil : EndsToken [] := fun _ h => nomatch h

theorem endsToken_cons {c : Char} (hc : isIdChar c = false) (rest : Text) : EndsToken (c :: rest) := by
  simpa [EndsToken] using hc

theorem scan_isIdentifier (first : Bool) {name rest : Text} (hname : isIdentifier name = true)
    (hrest : EndsToken rest) :
    scan first (name ++ rest) = .token (if first = true then .keyword name else .register name) rest := by
  cases name with
  | nil => cases hname
  | cons c name =>
    simp only [isIdentifier, Bool.and_eq_true, List.all_eq_true] at hname
    exact scan_identifier first hname.1 hname.2 hrest

/-- A canonical rendering is read back as its value. -/
theorem scan_renderInt (first : Bool) (v : Int) {rest : Text} (hrest : EndsToken rest) :
    scan first (renderInt v ++ rest) = .token (.int v) rest := by
  rw [renderInt_eq, scan_integer first (renderInt_integerText v) hrest.no_digit, digitsValue_renderNat]
  by_cases hv : v < 0
  · rw [if_pos hv, if_pos rfl, Int.ofNat_natAbs_of_nonpos hv.le, Int.neg_neg]
  · rw [if_neg hv, if_neg (by decide), Int.natAbs_of_nonneg (not_lt.mp hv)]

/-- The `+` of an offset is the sign of the integer after it (R107, R113). -/
theorem scan_plus_renderInt (first : Bool) {v : Int} (hv : ¬ v < 0) {rest : Text} (hrest : EndsToken rest) :
    scan first ('+' :: renderInt v ++ rest) = .token (.int v) rest := by
  have hplus : IntegerText ['+'] (renderNat v.natAbs) := ⟨.inr (.inl rfl), (renderInt_integerText v).2⟩
  have hscan := scan_integer first hplus hrest.no_digit
  rw [renderInt, if_neg hv]
  rw [if_neg (by decide), digitsValue_renderNat, Int.natAbs_of_nonneg (by omega)] at hscan
  exact hscan

/-- An operand that can be written: its register name is an identifier and its literal holds no quote. -/
def RawOperand.Writable (op : RawOperand) : Prop :=
  (∀ n ∈ operandNames op, isIdentifier n = true) ∧ '"' ∉ op.literal

/-- The tokens of an operand's text: an offset 0 is left out. -/
def RawOperand.spelling : RawOperand → List Token
  | .reg n => [.register n]
  | .int v => [.int v]
  | .str s => [.str s]
  | .mem b off =>
    if off = 0 then [.openBracket, baseToken b, .closeBracket]
    else [.openBracket, baseToken b, .int off, .closeBracket]

theorem spellsOperand_spelling (op : RawOperand) : SpellsOperand op op.spelling := by
  cases op with
  | reg n => exact .reg n
  | int v => exact .int v
  | str s => exact .str s
  | mem b off =>
    rw [RawOperand.spelling]
    split
    · rename_i hoff
      exact hoff ▸ .bare b
    · exact .offset b off

theorem scan_base {b : RawBase} {off : Int} (hb : (RawOperand.mem b off).Writable) {rest : Text}
    (hrest : EndsToken rest) : scan false (b.text ++ rest) = .token (baseToken b) rest := by
  cases b with
  | reg n => exact scan_isIdentifier false (hb.1 n (List.mem_singleton_self n)) hrest
  | int v => exact scan_renderInt false v hrest

theorem scan_offset {off : Int} (hoff : off ≠ 0) {rest : Text} (hrest : EndsToken rest) :
    scan false (offsetText off ++ rest) = .token (.int off) rest := by
  rw [offsetText, if_neg hoff]
  split
  · exact scan_renderInt false off hrest
  · exact scan_plus_renderInt false ‹_› hrest

/-- The text of an offset, with the bracket after it, ends the base before it. -/
theorem endsToken_offset (off : Int) (rest : Text) : EndsToken (offsetText off ++ ']' :: rest) := by
  unfold offsetText
  split_ifs with hzero hneg
  · exact endsToken_cons (by decide) _
  · rw [renderInt, if_pos hneg]
    exact endsToken_cons (by decide) _
  · exact endsToken_cons (by decide) _

/-- The tokens of an operand's text stand before those of the text after it. -/
theorem tokens_operand {op : RawOperand} (hop : op.Writable) {rest : Text} (hrest : EndsToken rest) :
    tokens (op.text ++ rest) = (tokens rest).map (op.spelling ++ ·) := by
  cases op with
  | reg n => exact tokens_token (scan_isIdentifier false (hop.1 n (List.mem_singleton_self n)) hrest)
  | int v => exact tokens_token (scan_renderInt false v hrest)
  | str s =>
    have htext : (RawOperand.str s).text ++ rest = '"' :: s ++ '"' :: rest := by simp [RawOperand.text]
    rw [htext]
    exact tokens_token (scan_string false rest hop.2)
  | mem b off =>
    have htext : (RawOperand.mem b off).text ++ rest = '[' :: (b.text ++ (offsetText off ++ ']' :: rest)) := by
      simp [RawOperand.text]
    have hopen : scan false ('[' :: (b.text ++ (offsetText off ++ ']' :: rest))) = .token .openBracket _ := rfl
    have hclose : scan false (']' :: rest) = .token .closeBracket rest := rfl
    rw [htext, tokens_token hopen, tokens_token (scan_base hop (endsToken_offset off rest))]
    by_cases hoff : off = 0
    · subst hoff
      have hnone : offsetText 0 ++ ']' :: rest = ']' :: rest := rfl
      rw [hnone, tokens_token hclose]
      simp [RawOperand.spelling, Function.comp_def]
    · rw [tokens_token (scan_offset hoff (endsToken_cons (by decide) rest)), tokens_token hclose]
      simp [RawOperand.spelling, hoff, Function.comp_def]

theorem endsToken_operands (ops : List RawOperand) : EndsToken (operandsText ops) := by
  unfold operandsText
  split
  · exact endsToken_nil
  · exact endsToken_cons (by decide) _
  · exact endsToken_cons (by decide) _

/-- The operands' text is read as tokens that spell the operands, of which there are at most two (R111). -/
theorem tokens_operands {ops : List RawOperand} (hlen : ops.length ≤ 2) (hops : ∀ op ∈ ops, op.Writable) :
    ∃ ts, tokens (operandsText ops) = some ts ∧ SpellsOperands ops ts := by
  have hnil : tokens [] = some [] := rfl
  match ops, hlen with
  | [], _ => exact ⟨[], hnil, .none⟩
  | [a], _ =>
    have ha := tokens_operand (hops a (by simp)) endsToken_nil
    refine ⟨a.spelling, ?_, .one (spellsOperand_spelling a)⟩
    rw [List.append_nil] at ha
    rw [operandsText, tokens_space, ha, hnil]
    simp
  | [a, b], _ =>
    have hb := tokens_operand (hops b (by simp)) endsToken_nil
    have hcomma : scan false (',' :: ' ' :: b.text) = .token .comma (' ' :: b.text) := rfl
    have htext : operandsText [a, b] = ' ' :: (a.text ++ ',' :: ' ' :: b.text) := by simp [operandsText]
    refine ⟨a.spelling ++ .comma :: b.spelling, ?_, .two (spellsOperand_spelling a) (spellsOperand_spelling b)⟩
    rw [List.append_nil] at hb
    rw [htext, tokens_space, tokens_operand (hops a (by simp)) (endsToken_cons (by decide) _), tokens_token hcomma,
      tokens_space, hb, hnil]
    simp

/-! ### The parts of an instruction's text (R120, R126) -/

/-- The row of an instruction's keyword builds the instruction from its operands. -/
theorem builderOf_keyword (i : Instr) : ∃ build, builderOf i.keyword = some build ∧ build i.rawOperands = .ok i := by
  cases i with
  | mov d o | port d o => exact ⟨_, rfl, shapeMove_raw _ d o⟩
  | add a b | sub a b | mul a b | div a b | mod a b => exact ⟨_, rfl, shapeRRi_raw _ a b⟩
  | inr a | dcr a | push a | pop a | encrypt a => exact ⟨_, rfl, shapeR_name _ a⟩
  | lt a b | gt a b | eq a b | ne a b | ge a b | le a b => exact ⟨_, rfl, shapeRR_name _ a b⟩
  | jz a v | jnz a v => exact ⟨_, rfl, shapeRI_name _ a v⟩
  | loadi a b | load a b | store a b => exact ⟨_, rfl, shapeRiRi_raw _ a b⟩
  | jmp v | call v | int v => exact ⟨_, rfl, rfl⟩
  | ret | backup | restore | iret | inp | ini | out | brkp | halt => exact ⟨_, rfl, rfl⟩

theorem opcodeMap_identifiers : ∀ k ∈ opcodeMap.map Prod.fst, isIdentifier k = true := by decide

theorem keyword_isIdentifier (i : Instr) : isIdentifier i.keyword = true := by
  obtain ⟨build, hbuild, -⟩ := builderOf_keyword i
  exact opcodeMap_identifiers _ (List.mem_map_of_mem (builderOf_iff.mp hbuild))

theorem name_isIdentifier (r : Reg) : isIdentifier r.name = true := by
  have digits (n : Nat) : ∀ c ∈ renderNat n, isIdChar c = true :=
    fun c hc => (isIdChar_iff c).mpr (.inr (.inl (renderNat_isDigit hc)))
  cases r with
  | r n | p n => simpa [Reg.name, isIdentifier] using digits n
  | _ => rfl

theorem regName_writable (r : Reg) : (RawOperand.reg r.name).Writable :=
  ⟨List.forall_mem_singleton.mpr (name_isIdentifier r), List.not_mem_nil⟩

theorem int_writable (v : Int) : (RawOperand.int v).Writable :=
  ⟨fun _ h => absurd h List.not_mem_nil, List.not_mem_nil⟩

theorem rawBase_writable (b : RegInt) (off : Int) : (RawOperand.mem b.rawBase off).Writable := by
  cases b with
  | reg r => exact regName_writable r
  | int v => exact int_writable v

theorem regInt_writable (b : RegInt) : b.raw.Writable := by
  cases b with
  | reg r => exact regName_writable r
  | int v => exact int_writable v

theorem dst_writable (d : Dst) : d.raw.Writable := by
  cases d with
  | reg r => exact regName_writable r
  | mem b off => exact rawBase_writable b off

theorem src_writable {o : Src} (h : '"' ∉ o.raw.literal) : o.raw.Writable := by
  cases o with
  | reg r => exact regName_writable r
  | int v => exact int_writable v
  | str s => exact ⟨fun _ hn => absurd hn List.not_mem_nil, h⟩
  | mem b off => exact rawBase_writable b off

theorem rawOperands_length (i : Instr) : i.rawOperands.length ≤ 2 := by
  cases i <;> simp [Instr.rawOperands]

/-- Only the literal of MOV and PORT restricts what can be written (R108). -/
theorem rawOperands_writable {i : Instr} (hi : '"' ∉ i.literal) : ∀ op ∈ i.rawOperands, op.Writable := by
  cases i with
  | mov d o => simpa [Instr.rawOperands] using ⟨dst_writable d, src_writable (literal_mov d o ▸ hi)⟩
  | port d o => simpa [Instr.rawOperands] using ⟨dst_writable d, src_writable (literal_port d o ▸ hi)⟩
  | add a b | sub a b | mul a b | div a b | mod a b =>
    simpa [Instr.rawOperands] using ⟨regName_writable a, regInt_writable b⟩
  | inr a | dcr a | push a | pop a | encrypt a => simpa [Instr.rawOperands] using regName_writable a
  | lt a b | gt a b | eq a b | ne a b | ge a b | le a b =>
    simpa [Instr.rawOperands] using ⟨regName_writable a, regName_writable b⟩
  | jz a v | jnz a v => simpa [Instr.rawOperands] using ⟨regName_writable a, int_writable v⟩
  | loadi a b | load a b | store a b => simpa [Instr.rawOperands] using ⟨regInt_writable a, regInt_writable b⟩
  | jmp v | call v | int v => simpa [Instr.rawOperands] using int_writable v
  | ret | backup | restore | iret | inp | ini | out | brkp | halt => simp [Instr.rawOperands]

/-- Decoding undoes encoding: the keyword finds the instruction's own row, and the operands' text spells the operands
that row builds it from. -/
theorem decode_encodeText {i : Instr} (hi : i.WellFormed) : decode (encodeText i) = .ok i := by
  have hquote : '"' ∉ i.literal := fun hmem => (hi _ hmem).2 rfl
  have hscan : scan true (encodeText i) = .token (.keyword i.keyword) (operandsText i.rawOperands) :=
    scan_isIdentifier true (keyword_isIdentifier i) (endsToken_operands _)
  obtain ⟨build, hbuild, hi⟩ := builderOf_keyword i
  obtain ⟨ts, hts, hspells⟩ := tokens_operands (rawOperands_length i) (rawOperands_writable hquote)
  rw [decode_builds hscan hbuild hts hspells, hi]

end Sys2Proof

namespace Sys2Proof.Machine

/-- Settles O1: the encoded text is one keyword and operands that can be written, and each is read back whole. -/
theorem decodeReadsBackEveryEncoding : Obligations.DecodeReadsBackEveryEncoding := by
  unfold Obligations.DecodeReadsBackEveryEncoding
  exact fun i => decode_encodeText

/-- Settles O5: the row of the keyword implements the entry of R120's table, and the parser reads exactly the
operands the tokens spell. -/
theorem decodingFaultsComeInOrder : Obligations.DecodingFaultsComeInOrder := by
  unfold Obligations.DecodingFaultsComeInOrder
  refine fun t => ⟨decode_no_keyword, fun k rest hscan =>
    ⟨fun hk => decode_unknown_keyword hscan (builderOf_unlisted hk), fun pattern hentry => ?_⟩⟩
  obtain ⟨build, hb, himpl⟩ := exists_builder hentry
  refine ⟨decode_lexical_error hscan hb, fun ts hts =>
    ⟨decode_no_match hscan hb himpl hts, fun ops hspells hmatch => ?_⟩⟩
  have hres := himpl.resolves hmatch
  rw [decode_builds hscan hb hts hspells]
  exact ⟨hres.unknown, hres.known⟩

/-- Settles O4: one scan lemma for each kind of token, the recursion of `tokens`, and the keyword of the row. -/
theorem decodedSlotBeginsWithTheKeyword : Obligations.DecodedSlotBeginsWithTheKeyword := by
  unfold Obligations.DecodedSlotBeginsWithTheKeyword
  refine ⟨fun first => ⟨rfl, fun c t hc => scan_blank first hc t, fun c name rest hc hname hrest => ?_,
      fun sign ds rest => scan_integer first, fun c rest => scan_sign_bad first,
      fun x rest hx => ⟨scan_string first rest hx, scan_open_string first hx⟩, fun rest => ⟨rfl, rfl, rfl⟩,
      fun c rest => scan_other_bad first rest⟩,
    fun t => ⟨tokens_finished, tokens_bad, fun tok rest => tokens_token⟩, fun t i => decode_keyword⟩
  exact scan_identifier first hc (fun ch hch => (isIdChar_iff ch).mpr (hname ch hch))
    fun ch hch => (isIdChar_false_iff ch).mpr (hrest ch hch)

/-! ### The fetch of a slot (R104, R141) -/

theorem fetchText_succ_inside {s : State} {a : Int} (n : Nat) (h : s.inMemory a) :
    fetchText s a (n + 1) = (fetchText s (a + 1) n).map ((s.mem.read a.toNat).text ++ ·) := by
  rw [fetchText, physRead_inside h]
  cases fetchText s (a + 1) n <;> rfl

theorem fetchText_succ_outside {s : State} {a : Int} (n : Nat) (h : ¬ s.inMemory a) :
    fetchText s a (n + 1) = .error (.outOfRange a) := by
  rw [fetchText, physRead_outside h]

/-- A slot inside memory is fetched whole. -/
theorem fetchText_inside {s : State} : ∀ {n : Nat} {a : Int}, 0 ≤ a → a + n ≤ s.cfg.memorySize →
    fetchText s a n = .ok ((List.range n).flatMap fun k => (s.mem.read (a.toNat + k)).text)
  | 0, _, _, _ => rfl
  | n + 1, a, hlow, hhigh => by
    have hnext : ∀ k, (a + 1).toNat + k = a.toNat + (k + 1) := by omega
    rw [fetchText_succ_inside n ⟨hlow, by omega⟩, fetchText_inside (by omega) (by omega), List.range_succ_eq_map]
    simp [Except.map, List.flatMap_map, hnext]

/-- A slot that begins inside memory and goes beyond its end raises at the end. -/
theorem fetchText_beyond {s : State} : ∀ {n : Nat} {a : Int}, 0 ≤ a → a ≤ s.cfg.memorySize →
    s.cfg.memorySize < a + n → fetchText s a n = .error (.outOfRange s.cfg.memorySize)
  | 0, _, _, hle, hlt => by omega
  | n + 1, a, hlow, hle, hlt => by
    by_cases hin : s.inMemory a
    · rw [fetchText_succ_inside n hin, fetchText_beyond (by omega) (by omega) (by omega)]
      rfl
    · obtain rfl : a = s.cfg.memorySize := by omega
      exact fetchText_succ_outside n hin

/-- Settles O57: a slot's addresses are all inside memory, or the first outside is IP or the end of memory. -/
theorem fetchJoinsTheSlotsWords : Obligations.FetchJoinsTheSlotsWords := by
  unfold Obligations.FetchJoinsTheSlotsWords
  refine fun s hsize => ⟨fun ⟨hlow, hhigh⟩ => fetchText_inside hlow hhigh, fun hout => ?_,
    fun ⟨hlow, hlt, hhigh⟩ => fetchText_beyond hlow hlt.le hhigh⟩
  obtain ⟨n, hn⟩ : ∃ n, s.cfg.instrSize = n + 1 := ⟨s.cfg.instrSize - 1, by omega⟩
  rw [fetch, hn]
  exact fetchText_succ_outside n (by omega)

/-- The Words that a text is cut into hold the text, if it is not too long for them (R126). -/
theorem flatMap_cutWords {cap : Nat} : ∀ {n : Nat} {t : Text}, t.length ≤ n * cap →
    (cutWords cap n t).flatMap Word.text = t
  | 0, t, h => by
    obtain rfl : t = [] := List.eq_nil_of_length_eq_zero (by omega)
    rfl
  | n + 1, t, h => by
    rw [Nat.succ_mul] at h
    have hdrop : (t.drop cap).length ≤ n * cap := by rw [List.length_drop]; omega
    rw [cutWords, List.flatMap_cons, flatMap_cutWords hdrop, List.take_append_drop]

theorem length_cutWords (cap : Nat) : ∀ (n : Nat) (t : Text), (cutWords cap n t).length = n
  | 0, _ => rfl
  | n + 1, t => by rw [cutWords, List.length_cons, length_cutWords]

/-- A slot that holds given Words is fetched as their joined texts. -/
theorem fetch_words {s : State} {ia : Nat} {ws : List Word} (hip : s.xi .ip = ia)
    (hin : ia + s.cfg.instrSize ≤ s.cfg.memorySize) (hlen : ws.length = s.cfg.instrSize)
    (hws : ∀ k w, ws[k]? = some w → s.mem.read (ia + k) = w) : fetch s = .ok (ws.flatMap Word.text) := by
  have hslot : (List.range s.cfg.instrSize).map (fun k => s.mem.read (ia + k)) = ws := by
    refine List.ext_getElem (by simp [hlen]) fun k _ hk => ?_
    simpa using hws k ws[k] (List.getElem?_eq_getElem hk)
  rw [fetch, hip, fetchText_inside (by omega) (by omega), Int.toNat_natCast, ← hslot, List.flatMap_map]

/-- Settles O2: the slot's Words join to the encoded text, which decodes to the instruction. -/
theorem encodedSlotIsFetchedAndDecoded : Obligations.EncodedSlotIsFetchedAndDecoded := by
  unfold Obligations.EncodedSlotIsFetchedAndDecoded
  intro s i ia hi hfits hip hin hslot
  have hfetch := fetch_words hip hin (length_cutWords _ _ _) hslot
  rw [flatMap_cutWords hfits] at hfetch
  exact ⟨encodeText i, hfetch, decode_encodeText hi⟩

/-- Settles O3, by running the decoder and the encoder on each text. -/
theorem writtenOutTextsDecode : Obligations.WrittenOutTextsDecode := by
  unfold Obligations.WrittenOutTextsDecode
  and_intros <;> decide

end Sys2Proof.Machine
end

section
/-! PROOFS of spec/40_cycle.md: what MOV and PORT move and where they trap, BACKUP and RESTORE push by push and pop by
pop, and the Kernel-mode fault. First the layer they share: where an access of memory or of the stack faults, and the
states in the middle of a BACKUP and of a RESTORE. -/

namespace Sys2Proof.Machine

/-! ### Where an access of memory faults (R72, R74) -/

section
variable {va pa : Int} {w : Word} {s t : State} {e : Exn}

theorem memRead_untranslated (h : translateAddr s.mode va false s = .error e) : memRead va s = .error e := by
  simp only [memRead, h]

theorem memRead_outside (ht : translateAddr s.mode va false s = .ok pa) (hp : ¬ s.inMemory pa) :
    memRead va s = .error (.outOfRange pa) := by
  simp only [memRead, ht, physRead_outside hp]

theorem memWrite_untranslated (h : translateAddr s.mode va true s = .error e) : memWrite va w s = .error e := by
  simp only [memWrite, h]

theorem memWrite_outside (ht : translateAddr s.mode va true s = .ok pa) (hp : ¬ s.inMemory pa) :
    memWrite va w s = .error (.outOfRange pa) := by
  simp only [memWrite, ht, physWrite_outside hp]

theorem eq_of_translate_kernel {forWrite : Bool} (hk : s.mode = .kernel)
    (h : translateAddr s.mode va forWrite t = .ok pa) : pa = va := by
  rw [hk] at h
  exact (Except.ok.inj h).symm

end

/-! ### Move (R148, R149, R160, R161) -/

section
variable {mk : Dst → Src → Instr} {s : State} {d : Dst} {o : Src} {w : Word} {e : Exn}

theorem valOf_int {v : Int} (hc : 2 ≤ s.cfg.wordSize) (h : Fits s.cfg v) : valOf (.int v) s = .ok (integerWord v) := by
  simp only [valOf, storeInteger_of_fits hc h]

theorem valOf_int_overflow {v : Int} (hc : 2 ≤ s.cfg.wordSize) (h : ¬ Fits s.cfg v) :
    valOf (.int v) s = .error (.wordOverflow v) := by
  simp only [valOf, storeInteger_of_not_fits hc h]

theorem valOf_str {x : Text} (h : x.length ≤ s.cfg.wordCap) : valOf (.str x) s = .ok ⟨x⟩ := by
  simp only [valOf, storeString?, if_pos h]

theorem valOf_str_tooLong {x : Text} (h : s.cfg.wordCap < x.length) : valOf (.str x) s = .error .malformedOperand := by
  simp only [valOf, storeString?, if_neg (not_le.mpr h)]

theorem moveWord_of_source (h : valOf o s = .ok w) : moveWord d o s = writeTo d w s := by
  simp only [moveWord, h]

theorem moveWord_of_sourceFault (h : valOf o s = .error e) : moveWord d o s = .error e := by
  simp only [moveWord, h]

/-- PORT is MOV under its second keyword (R161, D14). -/
theorem exec_move (hmk : mk = .mov ∨ mk = .port) (d : Dst) (o : Src) (s : State) :
    exec (mk d o) s = commit s (moveWord d o s) := by
  obtain rfl | rfl := hmk <;> rfl

theorem exec_moveToReg (hmk : mk = .mov ∨ mk = .port) (r : Reg) (h : valOf o s = .ok w) :
    ∃ t, exec (mk (.reg r) o) s = .next t ∧ t.reg r = w ∧ OnlyRegs [r] s t :=
  ⟨s.setReg r w, (exec_move hmk _ o s).trans (commit_ok (moveWord_of_source h)), reg_setReg_same s r w,
    setReg_onlyRegs s r w⟩

theorem exec_moveToMem (hmk : mk = .mov ∨ mk = .port) {base : RegInt} {off pa : Int}
    (ht : translateAddr s.mode (effAddr base off s) true s = .ok pa) (hp : s.inMemory pa) (h : valOf o s = .ok w) :
    ∃ t, exec (mk (.mem base off) o) s = .next t ∧ t.mem.read pa.toNat = w ∧ OnlyRegsAndWord [] pa s t :=
  ⟨_, (exec_move hmk _ o s).trans (commit_ok ((moveWord_of_source h).trans (memWrite_of ht hp))),
    read_write_same _ _ _, writeMem_onlyWord s hp.1 w⟩

theorem exec_move_sourceFault (hmk : mk = .mov ∨ mk = .port) (d : Dst) (h : valOf o s = .error e) :
    exec (mk d o) s = .next (deliverFault e s.currentInstr s) :=
  (exec_move hmk d o s).trans (commit_error (moveWord_of_sourceFault h))

theorem exec_move_destFault (hmk : mk = .mov ∨ mk = .port) (h : valOf o s = .ok w) (hd : writeTo d w s = .error e) :
    exec (mk d o) s = .next (deliverFault e s.currentInstr s) :=
  (exec_move hmk d o s).trans (commit_error ((moveWord_of_source h).trans hd))

end

/-- Settles O13: each source form supplies its Word, and a Word moved into a register has the frame of a register
write. -/
theorem moveIntoRegister : Obligations.MoveIntoRegister := by
  unfold Obligations.MoveIntoRegister
  refine ⟨fun _ _ _ => rfl, fun _ _ _ => ⟨rfl, rfl⟩, fun mk hmk s r hc => ⟨fun q => ?_, fun v hv => ?_,
    fun x hx => ?_, fun base off pa ht hp => ?_⟩⟩
  · exact exec_moveToReg hmk r rfl
  · obtain ⟨t, hexec, hreg, honly⟩ := exec_moveToReg hmk r (valOf_int hc hv)
    exact ⟨t, hexec, congrArg Word.text hreg, (holdsInt_iff.mpr hreg).2, honly⟩
  · obtain ⟨t, hexec, hreg, honly⟩ := exec_moveToReg hmk r (valOf_str hx)
    exact ⟨t, hexec, congrArg Word.text hreg, honly⟩
  · exact exec_moveToReg hmk r (memRead_of ht hp)

/-- Settles O14: as O13, with the frame of a memory write. -/
theorem moveIntoMemory : Obligations.MoveIntoMemory := by
  unfold Obligations.MoveIntoMemory
  refine ⟨fun _ _ _ => rfl, fun _ _ _ => ⟨rfl, rfl⟩, fun mk hmk s base off pa hc ht hp => ⟨fun q => ?_,
    fun v hv => ?_, fun x hx => ?_, fun b o qa htsrc hpsrc => ?_⟩⟩
  · exact exec_moveToMem hmk ht hp rfl
  · obtain ⟨t, hexec, hread, honly⟩ := exec_moveToMem hmk ht hp (valOf_int hc hv)
    exact ⟨t, hexec, congrArg Word.text hread, honly⟩
  · obtain ⟨t, hexec, hread, honly⟩ := exec_moveToMem hmk ht hp (valOf_str hx)
    exact ⟨t, hexec, congrArg Word.text hread, honly⟩
  · exact exec_moveToMem hmk ht hp (memRead_of htsrc hpsrc)

/-- Settles O15: a source that raises ends the move before the destination is looked at. -/
theorem moveFaultsSourceFirst : Obligations.MoveFaultsSourceFirst := by
  unfold Obligations.MoveFaultsSourceFirst
  intro mk hmk s d hc
  refine ⟨fun v hv => ?_, fun x hx => ?_, fun base off e he => ?_, fun base off pa ht hp => ?_,
    ⟨fun _ => rfl, fun _ => valOf_int hc, fun _ => valOf_str, fun _ _ _ => memRead_of⟩,
    fun base off src w hw => ⟨fun e he => ?_, fun pa ht hp => ?_⟩⟩
  · exact exec_move_sourceFault hmk d (valOf_int_overflow hc hv)
  · exact exec_move_sourceFault hmk d (valOf_str_tooLong hx)
  · exact exec_move_sourceFault hmk d (memRead_untranslated he)
  · exact exec_move_sourceFault hmk d (memRead_outside ht hp)
  · exact exec_move_destFault hmk hw (memWrite_untranslated he)
  · exact exec_move_destFault hmk hw (memWrite_outside ht hp)

/-! ### A fault in Kernel mode (R279, R281) -/

theorem deliverFault_kernel (e : Exn) (ia : Int) {s : State} (h : s.mode = .kernel) :
    deliverFault e ia s = crash (.fault e.kind) s := by
  simp only [deliverFault, h]

/-- A completed instruction does not crash: it keeps the status or is HALT (R53). -/
theorem instrBody_not_crashed {i : Instr} {s t : State} {k : CrashKind} (hrun : s.status = .running)
    (h : instrBody i s = .ok t) : t.status ≠ .crashed k := by
  by_cases hi : i = .halt
  · subst hi
    obtain rfl := Except.ok.inj h
    exact Status.noConfusion
  · rw [(instrBody_execFrame hi h).status, hrun]
    exact Status.noConfusion

/-- Settles O36: the crash is not a completed instruction's, so it is the delivery of the fault raised. -/
theorem kernelFaultChangesOnlyTheStatus : Obligations.KernelFaultChangesOnlyTheStatus := by
  unfold Obligations.KernelFaultChangesOnlyTheStatus
  refine ⟨fun e ia s hk => deliverFault_kernel e ia hk, fun i s t k hk hrun hexec ht => ?_⟩
  rw [exec_eq_commit] at hexec
  obtain hok | ⟨e, -, rfl⟩ := commit_next hexec
  · exact absurd ht (instrBody_not_crashed hrun hok)
  · rw [deliverFault_kernel e _ hk] at ht ⊢
    obtain rfl := Status.crashed.inj ht
    exact ⟨rfl, e, rfl⟩

/-! ### Where a stack access faults (R215) -/

section
variable {pa : Int} {w : Word} {r : Reg} {t : State} {e : Exn}

theorem pushWord_untranslated (h : translateAddr t.mode (t.xi .sp + 1) true t = .error e) :
    pushWord w t = .error e := by
  simp only [pushWord, memWrite_untranslated h]

theorem pushWord_outside (ht : translateAddr t.mode (t.xi .sp + 1) true t = .ok pa) (hp : ¬ t.inMemory pa) :
    pushWord w t = .error (.outOfRange pa) := by
  simp only [pushWord, memWrite_outside ht hp]

theorem pushWord_overflow (hc : 2 ≤ t.cfg.wordSize) (ht : translateAddr t.mode (t.xi .sp + 1) true t = .ok pa)
    (hp : t.inMemory pa) (hf : ¬ Fits t.cfg (t.xi .sp + 1)) :
    pushWord w t = .error (.wordOverflow (t.xi .sp + 1)) := by
  simp only [pushWord, memWrite_of ht hp]
  exact setInt_overflow hc hf

theorem popInto_untranslated (h : translateAddr t.mode (t.xi .sp) false t = .error e) : popInto r t = .error e := by
  simp only [popInto, popWord, memRead_untranslated h]

theorem popInto_outside (ht : translateAddr t.mode (t.xi .sp) false t = .ok pa) (hp : ¬ t.inMemory pa) :
    popInto r t = .error (.outOfRange pa) := by
  simp only [popInto, popWord, memRead_outside ht hp]

theorem popInto_overflow (hc : 2 ≤ t.cfg.wordSize) (ht : translateAddr t.mode (t.xi .sp) false t = .ok pa)
    (hp : t.inMemory pa) (hf : ¬ Fits t.cfg (t.xi .sp - 1)) :
    popInto r t = .error (.wordOverflow (t.xi .sp - 1)) := by
  simp only [popInto, popWord, memRead_of ht hp, setInt_overflow hc hf]

/-- An instruction whose push, made in the state `t`, raises only what the instruction delivers. -/
theorem stackFaults_of_push {i : Instr} {m : Mode} {va : Int} {view s : State} (hc : 2 ≤ s.cfg.wordSize)
    (hcfg : t.cfg = s.cfg) (hsp : t.xi .sp + 1 = va)
    (hview : translateAddr t.mode (t.xi .sp + 1) true t = translateAddr m va true view)
    (hraise : ∀ e, pushWord w t = .error e → exec i s = .next (deliverFault e s.currentInstr s)) :
    StackFaults i m va true va view s := by
  subst hsp
  have hin {pa : Int} : t.inMemory pa ↔ s.inMemory pa := by rw [State.inMemory, hcfg]
  refine ⟨fun e he => hraise _ (pushWord_untranslated (hview.trans he)), fun pa ht hp => hraise _ ?_,
    fun pa ht hp hf => hraise _ ?_⟩
  · exact pushWord_outside (hview.trans ht) (mt hin.mp hp)
  · exact pushWord_overflow (hcfg ▸ hc) (hview.trans ht) (hin.mpr hp) (hcfg ▸ hf)

/-- An instruction whose pop, made in the state `t`, raises only what the instruction delivers. -/
theorem stackFaults_of_pop {i : Instr} {m : Mode} {va newSp : Int} {view s : State} (hc : 2 ≤ s.cfg.wordSize)
    (hcfg : t.cfg = s.cfg) (hsp : t.xi .sp - 1 = newSp)
    (hview : translateAddr t.mode (t.xi .sp) false t = translateAddr m va false view)
    (hraise : ∀ e, popInto r t = .error e → exec i s = .next (deliverFault e s.currentInstr s)) :
    StackFaults i m va false newSp view s := by
  subst hsp
  have hin {pa : Int} : t.inMemory pa ↔ s.inMemory pa := by rw [State.inMemory, hcfg]
  refine ⟨fun e he => hraise _ (popInto_untranslated (hview.trans he)), fun pa ht hp => hraise _ ?_,
    fun pa ht hp hf => hraise _ ?_⟩
  · exact popInto_outside (hview.trans ht) (mt hin.mp hp)
  · exact popInto_overflow (hcfg ▸ hc) (hview.trans ht) (hin.mpr hp) (hcfg ▸ hf)

end

/-! ### Pushing and popping a list of registers (R220, R221)

Both are the same loop, so how far it goes and where it stops is said once, for a list that is a numbered sequence of
registers. -/

theorem pushRegs_eq_foldlM : ∀ (rs : List Reg) (s : State),
    pushRegs rs s = rs.foldlM (fun t r => pushWord (t.reg r) t) s
  | [], _ => rfl
  | r :: rs, s => by
    rw [pushRegs, List.foldlM_cons]
    cases pushWord (s.reg r) s with
    | error e => rfl
    | ok t => exact pushRegs_eq_foldlM rs t

theorem popRegs_eq_foldlM : ∀ (rs : List Reg) (s : State), popRegs rs s = rs.foldlM (fun t r => popInto r t) s
  | [], _ => rfl
  | r :: rs, s => by
    rw [popRegs, List.foldlM_cons]
    cases popInto r s with
    | error e => rfl
    | ok t => exact popRegs_eq_foldlM rs t

section
variable {f : State → Reg → Except Exn State} {reg : Nat → Reg} {st : Nat → State}

/-- The loop goes from state to state while every turn goes through. -/
theorem foldlM_range_ok : ∀ {n : Nat}, (∀ k < n, f (st k) (reg k) = .ok (st (k + 1))) →
    ((List.range n).map reg).foldlM f (st 0) = .ok (st n)
  | 0, _ => rfl
  | n + 1, h => by
    rw [List.range_succ, List.map_append, List.foldlM_append, foldlM_range_ok fun k hk => h k (by omega)]
    show (f (st n) (reg n) >>= pure) = .ok (st (n + 1))
    rw [h n (by omega)]
    rfl

/-- The first turn that raises ends the loop with its fault. -/
theorem foldlM_range_error {n m : Nat} {e : Exn} (hn : n < m) (h : ∀ k < n, f (st k) (reg k) = .ok (st (k + 1)))
    (he : f (st n) (reg n) = .error e) : ((List.range m).map reg).foldlM f (st 0) = .error e := by
  obtain ⟨k, rfl⟩ : ∃ k, m = n + 1 + k := ⟨m - (n + 1), by omega⟩
  rw [List.range_add, List.range_succ, List.append_assoc, List.map_append, List.foldlM_append, foldlM_range_ok h]
  show (f (st n) (reg n) >>= _) = .error e
  rw [he]
  rfl

end

theorem contextRegs_eq : contextRegs = (List.range 23).map savedReg := by decide

theorem savedReg_injective : ∀ j < 23, ∀ k < 23, savedReg j = savedReg k → j = k := by decide

theorem savedReg_ne_sp (k : Nat) : savedReg k ≠ .sp := by
  unfold savedReg
  split_ifs <;> exact Reg.noConfusion

theorem savedReg_r : ∀ k : Fin 20, savedReg (3 + k) = .r k := by decide

/-! ### BACKUP, push by push (R220) -/

/-- The state after the first `n` pushes of a BACKUP. -/
def backupState (s : State) (addr : Nat → Int) : (n : Nat) → State
  | 0 => s
  | n + 1 =>
    let t := backupState s addr n
    ({ t with mem := t.mem.write (addr n).toNat (s.reg (savedReg n)) } : State).setReg .sp
      (integerWord (s.xi .sp + (n + 1 : Nat)))

section
variable (s : State) (addr : Nat → Int)

theorem backupState_frame : ∀ n, ∃ regs, backupState s addr n = { s with regs := regs, mem := backupMem s addr n }
  | 0 => ⟨_, rfl⟩
  | n + 1 => by
    obtain ⟨regs, h⟩ := backupState_frame n
    exact ⟨_, by rw [backupState, h]; rfl⟩

theorem backupState_cfg (n : Nat) : (backupState s addr n).cfg = s.cfg := by
  obtain ⟨_, h⟩ := backupState_frame s addr n
  rw [h]

theorem backupState_mode (n : Nat) : (backupState s addr n).mode = s.mode := by
  obtain ⟨_, h⟩ := backupState_frame s addr n
  rw [h]

theorem backupState_mem (n : Nat) : (backupState s addr n).mem = backupMem s addr n := by
  obtain ⟨_, h⟩ := backupState_frame s addr n
  rw [h]

theorem backupState_reg {r : Reg} (hr : r ≠ .sp) : ∀ n, (backupState s addr n).reg r = s.reg r
  | 0 => rfl
  | n + 1 => (reg_setReg_other _ _ hr).trans (backupState_reg hr n)

theorem backupState_sp : ∀ n : Nat, (backupState s addr n).xi .sp = s.xi .sp + n
  | 0 => (add_zero _).symm
  | _ + 1 => (xi_setReg_same _ _ _).trans (asInteger_integerWord _)

/-- A push looks at the page table as `backupView` has it, whatever SP's text is. -/
theorem backupState_translate (n : Nat) (va : Int) (forWrite : Bool) :
    translateAddr (backupState s addr n).mode va forWrite (backupState s addr n) =
      translateAddr s.mode va forWrite (backupView s addr n) := by
  rw [backupState_mode]
  exact translate_congr (backupState_cfg ..) (backupState_mem ..) (backupState_reg s addr (by decide) n)
    (backupState_reg s addr (by decide) n)

theorem backupState_nextAddress (n : Nat) : (backupState s addr n).xi .sp + 1 = s.xi .sp + 1 + n := by
  rw [backupState_sp]
  omega

end

section
variable {s : State} {addr : Nat → Int} {n : Nat}

theorem pushWord_backupState (hc : 2 ≤ s.cfg.wordSize) (hgo : PushesGo n addr s) {k : Nat} (hk : k < n) :
    pushWord ((backupState s addr k).reg (savedReg k)) (backupState s addr k) = .ok (backupState s addr (k + 1)) := by
  obtain ⟨ht, hp, hf⟩ := hgo k hk
  rw [← backupState_nextAddress s addr] at ht hf
  have hcfg := backupState_cfg s addr k
  have hsp : (backupState s addr k).xi .sp + 1 = s.xi .sp + (k + 1 : Nat) := by
    rw [backupState_sp]
    omega
  rw [pushWord_of (hcfg ▸ hc) ((backupState_translate ..).trans ht) (by rwa [State.inMemory, hcfg]) (hcfg ▸ hf),
    backupState_reg s addr (savedReg_ne_sp k), hsp]
  rfl

theorem exec_backup (hc : 2 ≤ s.cfg.wordSize) (hgo : PushesGo 23 addr s) :
    exec .backup s = .next (backupState s addr 23) := by
  refine commit_ok ?_
  rw [contextRegs_eq, pushRegs_eq_foldlM]
  exact foldlM_range_ok (st := backupState s addr) fun k => pushWord_backupState hc hgo

theorem exec_backup_fault (hc : 2 ≤ s.cfg.wordSize) (hn : n < 23) (hgo : PushesGo n addr s) {e : Exn}
    (he : pushWord ((backupState s addr n).reg (savedReg n)) (backupState s addr n) = .error e) :
    exec .backup s = .next (deliverFault e s.currentInstr s) := by
  refine commit_error ?_
  rw [contextRegs_eq, pushRegs_eq_foldlM]
  exact foldlM_range_error (st := backupState s addr) hn (fun k => pushWord_backupState hc hgo) he

theorem backup_stackFaults (hc : 2 ≤ s.cfg.wordSize) (hn : n < 23) (hgo : PushesGo n addr s) :
    StackFaults .backup s.mode (s.xi .sp + 1 + n) true (s.xi .sp + 1 + n) (backupView s addr n) s := by
  refine stackFaults_of_push hc (backupState_cfg s addr n) (backupState_nextAddress s addr n) ?_
    fun e => exec_backup_fault hc hn hgo
  rw [backupState_translate, backupState_nextAddress]

/-- A Word at none of the pushed addresses is as it was. -/
theorem read_backupMem_other {a : Nat} : ∀ {n : Nat}, (∀ k < n, 0 ≤ addr k ∧ (a : Int) ≠ addr k) →
    (backupMem s addr n).read a = s.mem.read a
  | 0, _ => rfl
  | n + 1, h => by
    have hn := h n (by omega)
    exact (read_write_other _ _ (by omega)).trans (read_backupMem_other fun k hk => h k (by omega))

/-- Pushed Words at different addresses are all there at the end. -/
theorem read_backupMem {k : Nat} : ∀ {n : Nat}, (∀ j < n, 0 ≤ addr j) → AllDiffer n addr → k < n →
    (backupMem s addr n).read (addr k).toNat = s.reg (savedReg k)
  | n + 1, hlow, hdiff, hk => by
    by_cases h : k = n
    · subst h
      exact read_write_same _ _ _
    · have hne := hdiff n (by omega) k (by omega)
      have hlowk := hlow k hk
      have hlown := hlow n (by omega)
      have hother : (addr k).toNat ≠ (addr n).toNat := by omega
      exact (read_write_other _ _ hother).trans
        (read_backupMem (fun j hj => hlow j (by omega)) (fun j hj => hdiff j (by omega)) (by omega))

end

/-- Settles O26: the state after 23 pushes, read off register by register. -/
theorem backupStoresTheContext : Obligations.BackupStoresTheContext := by
  unfold Obligations.BackupStoresTheContext
  intro s addr hc hgo
  have hlow : ∀ k < 23, 0 ≤ addr k := by
    intro k hk
    obtain ⟨-, ⟨hlow, -⟩, -⟩ := hgo k hk
    exact hlow
  obtain ⟨regs, hframe⟩ := backupState_frame s addr 23
  refine ⟨backupState s addr 23, exec_backup hc hgo, holdsInt_iff.mpr (reg_setReg_same ..), backupState_mem s addr 23,
    fun hdiff => ?_, fun hk k hlt => ?_, fun a ha => ?_, fun r hr => ?_, ?_⟩
  · have hread (k : Nat) (hk : k < 23) : (backupState s addr 23).mem.read (addr k).toNat = s.reg (savedReg k) := by
      rw [backupState_mem]
      exact read_backupMem hlow hdiff hk
    exact ⟨hread 0 (by decide), hread 1 (by decide), hread 2 (by decide),
      fun k => savedReg_r k ▸ hread (3 + k) (by omega)⟩
  · exact eq_of_translate_kernel hk (hgo k hlt).1
  · rw [backupState_mem]
    exact read_backupMem_other fun k hk => ⟨hlow k hk, ha k hk⟩
  · exact backupState_reg s addr (by simpa using hr) 23
  · rw [hframe]
    exact ⟨by simp [SameDevices], rfl, rfl⟩

/-- In Kernel mode the pushes go through as long as their addresses lie in memory: R5's joint constraint makes each of
them fit a Word. -/
theorem pushesGo_kernel {s : State} {n : Nat} (hv : s.cfg.Valid) (hk : s.mode = .kernel)
    (h : ∀ k < n, s.inMemory (s.xi .sp + 1 + k)) : PushesGo n (fun k => s.xi .sp + 1 + k) s := by
  obtain ⟨-, -, -, -, -, hjoint⟩ := hv
  have hmin := intMin_nonpos s.cfg
  intro k hlt
  obtain ⟨hlow, hhigh⟩ := h k hlt
  exact ⟨by rw [hk, translate_kernel], ⟨hlow, hhigh⟩, by omega, by omega⟩

/-- Settles O29: in Kernel mode the first of the 23 addresses outside memory is where the BACKUP faults. -/
theorem backupIsAllOrNothing : Obligations.BackupIsAllOrNothing := by
  unfold Obligations.BackupIsAllOrNothing
  refine fun s => ⟨fun n addr hc hn hgo => backup_stackFaults hc hn hgo, fun hv hk hout => ?_⟩
  have hexists : ∃ n : Nat, n < 23 ∧ ¬ s.inMemory (s.xi .sp + 1 + n) := by
    by_cases hlow : 0 ≤ s.xi .sp + 1
    · exact ⟨22, by omega, fun hin => hout ⟨hlow, by have := hin.2; omega⟩⟩
    · exact ⟨0, by omega, fun hin => hlow (by have := hin.1; omega)⟩
  obtain ⟨hn, hfirst⟩ := Nat.find_spec hexists
  have hbefore : ∀ k < Nat.find hexists, s.inMemory (s.xi .sp + 1 + k) := by
    intro k hlt
    by_contra hoff
    exact Nat.find_min hexists hlt ⟨by omega, hoff⟩
  obtain ⟨-, houtside, -⟩ := backup_stackFaults hv.1 hn (pushesGo_kernel hv hk hbefore)
  rw [houtside _ (by rw [hk, translate_kernel]) hfirst, deliverFault_kernel _ _ hk]
  rfl

/-! ### RESTORE, pop by pop (R221) -/

/-- The register of RESTORE's pop number `k`: BACKUP's order, reversed. -/
def restoredReg (k : Nat) : Reg := savedReg (22 - k)

theorem contextRegs_reverse_eq : contextRegs.reverse = (List.range 23).map restoredReg := by decide

theorem restoredReg_inj {j k : Nat} (hj : j < 23) (hk : k < 23) : restoredReg j = restoredReg k ↔ j = k := by
  refine ⟨fun h => ?_, congrArg _⟩
  have := savedReg_injective _ (by omega) _ (by omega) h
  omega

theorem restoredReg_ne_sp (k : Nat) : restoredReg k ≠ .sp := savedReg_ne_sp _

theorem restoredReg_r : ∀ k : Fin 20, restoredReg (19 - k) = .r k := by decide

theorem restoredReg_mem {k : Nat} (hk : k < 23) : restoredReg k ∈ savedRegs := by
  have hsaved : savedRegs = (List.range 23).map savedReg := contextRegs_eq
  rw [hsaved]
  exact List.mem_map_of_mem (List.mem_range.mpr (by omega))

/-- The state after the first `n` pops of a RESTORE. -/
def restoreState (s : State) (addr : Nat → Int) : (n : Nat) → State
  | 0 => s
  | n + 1 => ((restoreState s addr n).setReg .sp (integerWord (s.xi .sp - (n + 1 : Nat)))).setReg (restoredReg n)
      (s.mem.read (addr n).toNat)

section
variable (s : State) (addr : Nat → Int)

theorem restoreState_frame : ∀ n, ∃ regs, restoreState s addr n = { s with regs := regs }
  | 0 => ⟨_, rfl⟩
  | n + 1 => by
    obtain ⟨regs, h⟩ := restoreState_frame n
    exact ⟨_, by rw [restoreState, h]; rfl⟩

theorem restoreState_cfg (n : Nat) : (restoreState s addr n).cfg = s.cfg := by
  obtain ⟨_, h⟩ := restoreState_frame s addr n
  rw [h]

theorem restoreState_mode (n : Nat) : (restoreState s addr n).mode = s.mode := by
  obtain ⟨_, h⟩ := restoreState_frame s addr n
  rw [h]

theorem restoreState_mem (n : Nat) : (restoreState s addr n).mem = s.mem := by
  obtain ⟨_, h⟩ := restoreState_frame s addr n
  rw [h]

theorem restoreState_succ_sp (n : Nat) :
    (restoreState s addr (n + 1)).reg .sp = integerWord (s.xi .sp - (n + 1 : Nat)) :=
  (reg_setReg_other _ _ (restoredReg_ne_sp n).symm).trans (reg_setReg_same ..)

theorem restoreState_sp : ∀ n : Nat, (restoreState s addr n).xi .sp = s.xi .sp - n
  | 0 => (sub_zero _).symm
  | n + 1 => (congrArg asInteger (restoreState_succ_sp s addr n)).trans (asInteger_integerWord _)

/-- A register neither SP nor among the 23 is as it was. -/
theorem restoreState_reg_other {r : Reg} (hsp : r ≠ .sp) (hr : r ∉ savedRegs) :
    ∀ n ≤ 23, (restoreState s addr n).reg r = s.reg r
  | 0, _ => rfl
  | n + 1, hn => by
    have hne : r ≠ restoredReg n := fun h => hr (h ▸ restoredReg_mem (by omega))
    rw [restoreState, reg_setReg_other _ _ hne, reg_setReg_other _ _ hsp,
      restoreState_reg_other hsp hr n (by omega)]

/-- Each of the 23 registers is written by its own pop and by no other. -/
theorem restoreState_reg {k : Nat} (hk : k < 23) : ∀ n ≤ 23, (restoreState s addr n).reg (restoredReg k) =
    if k < n then s.mem.read (addr k).toNat else s.reg (restoredReg k)
  | 0, _ => rfl
  | n + 1, hn => by
    rw [restoreState, reg_setReg, reg_setReg_other _ _ (restoredReg_ne_sp k), restoreState_reg hk n (by omega)]
    by_cases h : k = n
    · subst h
      simp
    · rw [if_neg (mt (restoredReg_inj hk (by omega)).mp h)]
      exact if_congr (by omega) rfl rfl

theorem restoreView_frame (n : Nat) : ∃ regs, restoreView s addr n = { s with regs := regs } := by
  unfold restoreView
  split_ifs <;> exact ⟨_, rfl⟩

theorem restoreView_ptlr (n : Nat) : (restoreView s addr n).reg .ptlr =
    if 20 < n then s.mem.read (addr 20).toNat else s.reg .ptlr := by
  unfold restoreView
  by_cases h20 : n ≤ 20
  · simp [h20]
  · by_cases h21 : n = 21
    · simp [h21]
    · simp [h20, h21, reg_setReg, not_le.mp h20]

theorem restoreView_ptbr (n : Nat) : (restoreView s addr n).reg .ptbr =
    if 21 < n then s.mem.read (addr 21).toNat else s.reg .ptbr := by
  unfold restoreView
  by_cases h20 : n ≤ 20
  · simp [h20, show ¬ 21 < n by omega]
  · by_cases h21 : n = 21
    · simp [h21, reg_setReg]
    · simp [h20, h21, show 21 < n by omega]

/-- A pop looks at PTLR and PTBR as `restoreView` has them. -/
theorem restoreState_translate {n : Nat} (hn : n ≤ 23) (va : Int) (forWrite : Bool) :
    translateAddr (restoreState s addr n).mode va forWrite (restoreState s addr n) =
      translateAddr s.mode va forWrite (restoreView s addr n) := by
  obtain ⟨_, hview⟩ := restoreView_frame s addr n
  have hptbr : (restoreState s addr n).reg .ptbr = (restoreView s addr n).reg .ptbr :=
    (restoreState_reg s addr (k := 21) (by decide) n hn).trans (restoreView_ptbr s addr n).symm
  have hptlr : (restoreState s addr n).reg .ptlr = (restoreView s addr n).reg .ptlr :=
    (restoreState_reg s addr (k := 20) (by decide) n hn).trans (restoreView_ptlr s addr n).symm
  rw [restoreState_mode]
  exact translate_congr (by rw [restoreState_cfg, hview]) (by rw [restoreState_mem, hview]) hptbr hptlr

end

section
variable {s : State} {addr : Nat → Int} {n : Nat}

theorem popInto_restoreState (hc : 2 ≤ s.cfg.wordSize) (hn : n ≤ 23) (hgo : PopsGo n addr s) {k : Nat} (hk : k < n) :
    popInto (restoredReg k) (restoreState s addr k) = .ok (restoreState s addr (k + 1)) := by
  obtain ⟨ht, hp, hf⟩ := hgo k hk
  have hcfg := restoreState_cfg s addr k
  have hsp : (restoreState s addr k).xi .sp - 1 = s.xi .sp - (k + 1 : Nat) := by
    rw [restoreState_sp]
    omega
  have hfit : Fits (restoreState s addr k).cfg ((restoreState s addr k).xi .sp - 1) := by
    rw [hcfg, restoreState_sp, sub_right_comm]
    exact hf
  rw [← restoreState_sp s addr, ← restoreState_translate s addr (by omega)] at ht
  rw [popInto_of (hcfg ▸ hc) ht (by rwa [State.inMemory, hcfg]) hfit, hsp, restoreState_mem]
  rfl

theorem exec_restore (hc : 2 ≤ s.cfg.wordSize) (hgo : PopsGo 23 addr s) :
    exec .restore s = .next (restoreState s addr 23) := by
  refine commit_ok ?_
  rw [contextRegs_reverse_eq, popRegs_eq_foldlM]
  exact foldlM_range_ok (st := restoreState s addr) fun k => popInto_restoreState hc le_rfl hgo

theorem exec_restore_fault (hc : 2 ≤ s.cfg.wordSize) (hn : n < 23) (hgo : PopsGo n addr s) {e : Exn}
    (he : popInto (restoredReg n) (restoreState s addr n) = .error e) :
    exec .restore s = .next (deliverFault e s.currentInstr s) := by
  refine commit_error ?_
  rw [contextRegs_reverse_eq, popRegs_eq_foldlM]
  exact foldlM_range_error (st := restoreState s addr) hn (fun k => popInto_restoreState hc hn.le hgo) he

theorem restore_stackFaults (hc : 2 ≤ s.cfg.wordSize) (hn : n < 23) (hgo : PopsGo n addr s) :
    StackFaults .restore s.mode (s.xi .sp - n) false (s.xi .sp - 1 - n) (restoreView s addr n) s := by
  refine stackFaults_of_pop hc (restoreState_cfg s addr n) ?_ ?_ fun e => exec_restore_fault hc hn hgo
  · rw [restoreState_sp, sub_right_comm]
  · rw [restoreState_translate s addr hn.le, restoreState_sp]

end

/-- Settles O27: the state after 23 pops, read off register by register; where a pop faults, the state it is made
in. -/
theorem restoreLoadsTheContext : Obligations.RestoreLoadsTheContext := by
  unfold Obligations.RestoreLoadsTheContext
  refine fun s addr hc => ⟨fun hgo => ?_, fun n hn hgo => restore_stackFaults hc hn hgo⟩
  obtain ⟨regs, hframe⟩ := restoreState_frame s addr 23
  have hreg (k : Nat) (hk : k < 23) : (restoreState s addr 23).reg (restoredReg k) = s.mem.read (addr k).toNat :=
    (restoreState_reg s addr hk 23 le_rfl).trans (if_pos hk)
  refine ⟨restoreState s addr 23, exec_restore hc hgo, holdsInt_iff.mpr (restoreState_succ_sp s addr 22),
    fun k => restoredReg_r k ▸ hreg (19 - k) (by omega), hreg 20 (by decide), hreg 21 (by decide), hreg 22 (by decide),
    fun hk k hlt => ?_, fun r hr => ?_, ?_⟩
  · exact eq_of_translate_kernel hk (hgo k hlt).1
  · obtain ⟨hsp, hsaved⟩ := not_or.mp (mt List.mem_cons.mpr hr)
    exact restoreState_reg_other s addr hsp hsaved 23 le_rfl
  · rw [hframe]
    exact ⟨fun _ => rfl, by simp [SameDevices], rfl, rfl⟩

end Sys2Proof.Machine
end

section
/-! PROOFS of spec/42_arithmetic.md: DIV and MOD. First the range of the integer a legal Word reads as, which bounds the
remainder, and the signs of a truncated remainder. -/

namespace Sys2Proof.Machine

/-! ### The integer of a legal Word fits (R22, R24) -/

theorem digitValue_lt {c : Char} (h : c.isDigit = true) : digitValue c < 10 := by
  have hrange : '0'.toNat ≤ c.toNat ∧ c.toNat ≤ '9'.toNat := by
    simpa [Char.isDigit, UInt32.le_iff_toNat_le] using h
  have h9 : '9'.toNat = '0'.toNat + 9 := rfl
  unfold digitValue
  omega

theorem digitsValue_lt {t : Text} (h : ∀ c ∈ t, c.isDigit = true) : digitsValue t < 10 ^ t.length := by
  induction t using List.reverseRecOn with
  | nil => decide
  | append_singleton t c ih =>
    have hinit := ih fun d hd => h d (List.mem_append_left _ hd)
    have hlast := digitValue_lt (h c (by simp))
    rw [digitsValue_append, List.length_append, List.length_singleton, Nat.pow_succ]
    omega

theorem leadingDigits_value_lt {t : Text} {k : Nat} (h : t.length ≤ k) : digitsValue (leadingDigits t) < 10 ^ k := by
  have hlen : (leadingDigits t).length ≤ k := (List.takeWhile_prefix _).length_le.trans h
  calc digitsValue (leadingDigits t)
      < 10 ^ (leadingDigits t).length := digitsValue_lt fun _ hc => List.mem_takeWhile_imp hc
    _ ≤ 10 ^ k := Nat.pow_le_pow_right (by decide) hlen

theorem intMax_nonneg (c : Config) : 0 ≤ c.intMax := by
  have : 0 < 10 ^ c.wordCap := Nat.pow_pos (by decide)
  unfold Config.intMax
  omega

/-- The sign of a negative integer takes one of the Word's characters, which is why INT_MIN has a digit less. -/
theorem asInteger_fits {c : Config} {w : Word} (h : w.text.length ≤ c.wordCap) : Fits c (asInteger w) := by
  obtain ⟨sign, u, hsign, htext⟩ := exists_signOf w.text
  rw [htext, List.length_append] at h
  rw [asInteger, htext, integerOfText_sign hsign]
  split
  case isTrue hneg =>
    have hu : u.length ≤ c.wordCap - 1 := by
      rw [hneg, List.length_singleton] at h
      omega
    have hlt := leadingDigits_value_lt hu
    have hmax := intMax_nonneg c
    unfold Fits Config.intMin
    omega
  case isFalse =>
    have hlt := leadingDigits_value_lt (show u.length ≤ c.wordCap by omega)
    have hmin := intMin_nonpos c
    unfold Fits Config.intMax
    omega

/-! ### The remainder of the division that rounds toward zero (R178, D10) -/

theorem pos_of_tmod_pos {a d : Int} (h : 0 < a.tmod d) : 0 < a := by
  by_contra hneg
  have hrem : 0 ≤ (-a).tmod d := Int.tmod_nonneg d (by omega)
  rw [Int.neg_tmod] at hrem
  omega

theorem neg_of_tmod_neg {a d : Int} (h : a.tmod d < 0) : a < 0 := by
  by_contra hpos
  have hrem : 0 ≤ a.tmod d := Int.tmod_nonneg d (by omega)
  omega

theorem natAbs_tmod_lt (a : Int) {d : Int} (hd : d ≠ 0) : (a.tmod d).natAbs < d.natAbs := by
  rw [Int.natAbs_tmod]
  exact Nat.mod_lt _ (Int.natAbs_pos.mpr hd)

/-- A remainder lies between 0 and the dividend, so it fits wherever the dividend does. -/
theorem tmod_fits {c : Config} {a : Int} (d : Int) (h : Fits c a) : Fits c (a.tmod d) := by
  have habs : (a.tmod d).natAbs ≤ a.natAbs := by
    rw [Int.natAbs_tmod]
    exact Nat.mod_le _ _
  have hpos := pos_of_tmod_pos (a := a) (d := d)
  have hneg := neg_of_tmod_neg (a := a) (d := d)
  have hmin := intMin_nonpos c
  have hmax := intMax_nonneg c
  unfold Fits at h ⊢
  omega

/-! ### DIV and MOD (R174, R175) -/

section
variable {op : Int → Int → Int} {i : Instr} {ra : Reg} {b : RegInt} {s : State}

theorem exec_divide_byZero (hi : exec i s = commit s (divideInto op ra b s)) (hb : intOf b s = 0) :
    exec i s = .next (deliverFault .divisionByZero s.currentInstr s) :=
  hi.trans (commit_error (if_pos hb))

theorem storesResult_of_divide (hc : 2 ≤ s.cfg.wordSize) (hi : exec i s = commit s (divideInto op ra b s))
    (hb : intOf b s ≠ 0) : StoresResult i ra (op (s.xi ra) (intOf b s)) s :=
  storesResult_of_setInt hc (hi.trans (congrArg (commit s) (if_neg hb)))

end

/-- Settles O17: the quotient and the remainder are the library's truncating `Int.tdiv` and `Int.tmod`, and a remainder
is no further from 0 than the dividend, which a legal Word keeps in range. -/
theorem divisionTruncatesTowardZero : Obligations.DivisionTruncatesTowardZero := by
  unfold Obligations.DivisionTruncatesTowardZero
  refine fun s ra b hc => ⟨fun hb => ⟨exec_divide_byZero rfl hb, exec_divide_byZero rfl hb⟩, fun hb => ?_⟩
  exact ⟨(s.xi ra).tdiv (intOf b s), (s.xi ra).tmod (intOf b s), (Int.mul_tdiv_add_tmod _ _).symm,
    natAbs_tmod_lt _ hb, pos_of_tmod_pos, neg_of_tmod_neg, storesResult_of_divide hc rfl hb,
    storesResult_of_divide hc rfl hb, fun hlegal => tmod_fits _ (asInteger_fits hlegal.1)⟩

end Sys2Proof.Machine
end

section
/-! PROOFS of spec/43_comparison.md: the six comparisons are one operation, `compareInto`, at six relations. -/

namespace Sys2Proof.Machine

/-! ### The Word of a truth value (R190) -/

theorem truthWord_decide (p : Prop) [Decidable p] :
    truthWord (decide p) = if p then Word.ofString "1" else Word.ofString "0" := by
  have htrue : truthWord true = Word.ofString "1" := by decide
  have hfalse : truthWord false = Word.ofString "0" := by decide
  by_cases h : p
  · rw [decide_eq_true h, htrue, if_pos h]
  · rw [decide_eq_false h, hfalse, if_neg h]

/-! ### LT, GT, EQ, NE, GE, LE (R191 to R196) -/

/-- An instruction whose whole body is a comparison stores "1" exactly when the proposition `p` that its relation
decides holds. Both operands are read before the write, so `ra` and `rb` may be the same register. -/
theorem storesTruth_of_compare {i : Instr} {rel : Relation} {ra rb : Reg} {s : State} {p : Prop} [Decidable p]
    (hi : exec i s = .next (compareInto rel ra rb s)) (hp : rel.holds (s.xi ra) (s.xi rb) = decide p) :
    ∃ t, exec i s = .next t ∧ OnlyRegs [ra] s t ∧
      t.reg ra = if p then Word.ofString "1" else Word.ofString "0" := by
  refine ⟨_, hi, setReg_onlyRegs s ra _, ?_⟩
  calc (compareInto rel ra rb s).reg ra
      = truthWord (rel.holds (s.xi ra) (s.xi rb)) := reg_setReg_same s ra _
    _ = truthWord (decide p) := congrArg truthWord hp
    _ = if p then Word.ofString "1" else Word.ofString "0" := truthWord_decide p

/-- Settles O18: each instruction is `compareInto` at its relation; NE alone is defined as a negated test. -/
theorem comparisonsStoreOneOrZero : Obligations.ComparisonsStoreOneOrZero := by
  unfold Obligations.ComparisonsStoreOneOrZero
  intro s ra rb
  refine ⟨?lt, ?gt, ?eq, ?ne, ?ge, ?le⟩
  case lt => exact storesTruth_of_compare (rel := .lt) rfl rfl
  case gt => exact storesTruth_of_compare (rel := .gt) rfl rfl
  case eq => exact storesTruth_of_compare (rel := .eq) rfl rfl
  case ne => exact storesTruth_of_compare (rel := .ne) rfl decide_not.symm
  case ge => exact storesTruth_of_compare (rel := .ge) rfl rfl
  case le => exact storesTruth_of_compare (rel := .le) rfl rfl

end Sys2Proof.Machine
end

section
/-! PROOFS of spec/44_control_transfer.md: the jumps, CALL and RET. First the layer they share: what a write adds to a
frame, the states a push and a pop leave, and the Words that a page walk depends on. -/

namespace Sys2Proof.Machine

/-! ### A frame, with one more register written -/

section
variable {rs : List Reg} {s t : State}

theorem sameRegsBut_setReg (h : SameRegsBut rs s t) (r : Reg) (w : Word) :
    SameRegsBut (rs ++ [r]) s (t.setReg r w) := by
  intro q hq
  obtain ⟨hrs, hr⟩ : q ∉ rs ∧ q ≠ r := by simpa using hq
  exact (reg_setReg_other t w hr).trans (h q hrs)

theorem onlyRegs_setReg (h : OnlyRegs rs s t) (r : Reg) (w : Word) : OnlyRegs (rs ++ [r]) s (t.setReg r w) :=
  ⟨sameRegsBut_setReg h.1 r w, h.2⟩

theorem onlyRegsAndWord_setReg {pa : Int} (h : OnlyRegsAndWord rs pa s t) (r : Reg) (w : Word) :
    OnlyRegsAndWord (rs ++ [r]) pa s (t.setReg r w) :=
  ⟨sameRegsBut_setReg h.1 r w, h.2⟩

end

/-! ### The states a push and a pop leave (R215 to R217) -/

/-- The state a push of `w` to the physical address `pa` leaves. -/
def pushState (w : Word) (pa : Int) (s : State) : State :=
  ({ s with mem := s.mem.write pa.toNat w } : State).setReg .sp (integerWord (s.xi .sp + 1))

/-- The state a pop of the Word `w` into the register `r` leaves, `r` written last. -/
def popState (r : Reg) (w : Word) (s : State) : State :=
  (s.setReg .sp (integerWord (s.xi .sp - 1))).setReg r w

section
variable {s : State} {w : Word} {pa : Int} {r : Reg}

theorem pushWord_eq_pushState (hc : 2 ≤ s.cfg.wordSize) (ht : translateAddr s.mode (s.xi .sp + 1) true s = .ok pa)
    (hp : s.inMemory pa) (hf : Fits s.cfg (s.xi .sp + 1)) : pushWord w s = .ok (pushState w pa s) :=
  pushWord_of hc ht hp hf

theorem popInto_eq_popState (hc : 2 ≤ s.cfg.wordSize) (ht : translateAddr s.mode (s.xi .sp) false s = .ok pa)
    (hp : s.inMemory pa) (hf : Fits s.cfg (s.xi .sp - 1)) :
    popInto r s = .ok (popState r (s.mem.read pa.toNat) s) :=
  popInto_of hc ht hp hf

theorem pushState_holdsSp : HoldsInt (pushState w pa s) .sp (s.xi .sp + 1) :=
  holdsInt_iff.mpr (reg_setReg_same ..)

theorem pushState_reg_other (h : r ≠ .sp) : (pushState w pa s).reg r = s.reg r :=
  reg_setReg_other _ _ h

theorem pushState_read : (pushState w pa s).mem.read pa.toNat = w :=
  read_write_same _ _ _

theorem pushState_onlyRegsAndWord (hpa : 0 ≤ pa) : OnlyRegsAndWord [.sp] pa s (pushState w pa s) :=
  onlyRegsAndWord_setReg (writeMem_onlyWord s hpa w) .sp _

theorem popState_reg : (popState r w s).reg r = w :=
  reg_setReg_same ..

theorem popState_holdsSp (h : r ≠ .sp) : HoldsInt (popState r w s) .sp (s.xi .sp - 1) :=
  holdsInt_iff.mpr ((reg_setReg_other _ w h.symm).trans (reg_setReg_same ..))

theorem popState_onlyRegs : OnlyRegs [.sp, r] s (popState r w s) :=
  onlyRegs_setReg (setReg_onlyRegs s .sp _) r w

end

/-! ### What a translation depends on (R77) -/

section
variable {m : Mode} {va pa : Int} {forWrite : Bool} {s t : State} {w : Word}

/-- A translation after a push sees the Word pushed, and not the new SP (R151). -/
theorem pushState_translate : translateAddr m va forWrite (pushState w pa s) =
    translateAddr m va forWrite { s with mem := s.mem.write pa.toNat w } :=
  translate_congr rfl rfl (pushState_reg_other (by decide)) (pushState_reg_other (by decide))

theorem physRead_congr_read {a : Int} (hcfg : t.cfg = s.cfg)
    (hread : s.inMemory a → t.mem.read a.toNat = s.mem.read a.toNat) : physRead a t = physRead a s := by
  have hmem : t.inMemory a ↔ s.inMemory a := by rw [State.inMemory, hcfg]
  by_cases hin : s.inMemory a
  · rw [physRead_inside hin, physRead_inside (hmem.mpr hin), hread hin]
  · rw [physRead_outside hin, physRead_outside (mt hmem.mp hin)]

theorem physRead_writeMem_other {a : Int} (hpa : 0 ≤ pa) (h : pa ≠ a) :
    physRead a { s with mem := s.mem.write pa.toNat w } = physRead a s :=
  physRead_congr_read rfl fun ⟨hlow, _⟩ => read_write_other s.mem w (by omega)

/-- Of memory, a walk reads the two Words of the page's own table entry alone. -/
theorem translate_writeMem_other (hpa : 0 ≤ pa) (hclear : m = .user →
    pa ≠ s.xi .ptbr + 2 * (va / s.cfg.pageSize) ∧ pa ≠ s.xi .ptbr + 2 * (va / s.cfg.pageSize) + 1) :
    translateAddr m va forWrite { s with mem := s.mem.write pa.toNat w } = translateAddr m va forWrite s := by
  cases m with
  | kernel => rfl
  | user =>
    obtain ⟨hframe, hflags⟩ := hclear rfl
    simp only [translateAddr, translateUser, xi_with_mem, physRead_writeMem_other hpa hframe,
      physRead_writeMem_other hpa hflags]

/-- A Word that may be written may be read, at the same physical address: only the writable flag tells them apart. -/
theorem translate_read_of_write (h : translateAddr m va true s = .ok pa) : translateAddr m va false s = .ok pa := by
  cases m with
  | kernel => exact h
  | user =>
    simp only [translateAddr, translateUser] at h ⊢
    split_ifs at h ⊢
    split at h
    · cases h
    · split_ifs at h with hvalid
      simpa only [if_neg hvalid, Bool.false_eq_true, false_and, if_false] using h

/-- The pushed Word is found again where it was put: a push clear of its own page's entry leaves the walk as it was. -/
theorem StackWord.translate_pushState (h : StackWord pa s) :
    translateAddr s.mode (s.xi .sp + 1) false (pushState w pa s) = .ok pa := by
  obtain ⟨ht, ⟨hlow, -⟩, -, hclear⟩ := h
  have hentry (hu : s.mode = .user) := hclear hu 0 one_pos 0 one_pos
  rw [Nat.cast_zero, add_zero] at hentry
  rw [pushState_translate, translate_writeMem_other hlow hentry]
  exact translate_read_of_write ht

end

/-! ### A pop after a push (R218) -/

/-- What a pop looks at is in `u` as it is in `t`. -/
structure SameStackView (u t : State) : Prop where
  cfg : u.cfg = t.cfg
  mode : u.mode = t.mode
  mem : u.mem = t.mem
  sp : u.xi .sp = t.xi .sp
  ptbr : u.reg .ptbr = t.reg .ptbr
  ptlr : u.reg .ptlr = t.reg .ptlr

/-- A pop from a state that looks to it as a push left it gives the Word pushed, and SP back. -/
theorem popInto_of_pushState {s u : State} {w : Word} {pa : Int} {r : Reg} (hc : 2 ≤ s.cfg.wordSize)
    (hstack : StackWord pa s) (hf : Fits s.cfg (s.xi .sp)) (hu : SameStackView u (pushState w pa s)) :
    popInto r u = .ok (popState r w u) ∧ u.xi .sp - 1 = s.xi .sp := by
  obtain ⟨hcfg, hmode, hmem, husp, hptbr, hptlr⟩ := hu
  have hcfg' : u.cfg = s.cfg := hcfg
  have hsp : u.xi .sp = s.xi .sp + 1 := husp.trans pushState_holdsSp.2
  have hback : u.xi .sp - 1 = s.xi .sp := by omega
  have hread : u.mem.read pa.toNat = w := by rw [hmem, pushState_read]
  have ht : translateAddr u.mode (u.xi .sp) false u = .ok pa := by
    rw [translate_congr hcfg hmem hptbr hptlr, hmode, hsp]
    exact hstack.translate_pushState
  have ⟨_, hp, _⟩ := hstack
  have hin : u.inMemory pa := by rwa [State.inMemory, hcfg']
  rw [popInto_eq_popState (hcfg' ▸ hc) ht hin (by rwa [hcfg', hback]), hread]
  exact ⟨rfl, hback⟩

/-! ### Jumps (R200 to R203) -/

section
variable {s : State} {target pa : Int}

theorem jumpTo_of (hc : 2 ≤ s.cfg.wordSize) (ht : translateAddr s.mode target false s = .ok pa) (hf : Fits s.cfg pa) :
    jumpTo target s = .ok (s.setReg .ip (integerWord pa)) := by
  simp only [jumpTo, ht, setInt_fits hc hf]

theorem jumpTo_overflow (hc : 2 ≤ s.cfg.wordSize) (ht : translateAddr s.mode target false s = .ok pa)
    (hf : ¬ Fits s.cfg pa) : jumpTo target s = .error (.wordOverflow pa) := by
  simp only [jumpTo, ht, setInt_overflow hc hf]

theorem jumpTo_untranslated {e : Exn} (h : translateAddr s.mode target false s = .error e) :
    jumpTo target s = .error e := by
  simp only [jumpTo, h]

/-- JMP, a JZ on zero and a JNZ on another integer are one and the same jump. -/
theorem exec_jump_taken {i : Instr} {ra : Reg}
    (hi : i = .jmp target ∨ i = .jz ra target ∧ s.xi ra = 0 ∨ i = .jnz ra target ∧ s.xi ra ≠ 0) :
    exec i s = commit s (jumpTo target s) := by
  obtain rfl | ⟨rfl, hz⟩ | ⟨rfl, hnz⟩ := hi
  · exact congrArg (commit s) (if_pos (decide_eq_true (asInteger_integerWord 0)))
  · exact congrArg (commit s) (if_pos (decide_eq_true hz))
  · exact congrArg (commit s) (if_pos (by simpa using hnz))

theorem exec_jz_not_taken {ra : Reg} (h : s.xi ra ≠ 0) : exec (.jz ra target) s = .next s :=
  commit_ok (if_neg (by simpa using h))

theorem exec_jnz_not_taken {ra : Reg} (h : s.xi ra = 0) : exec (.jnz ra target) s = .next s :=
  commit_ok (if_neg (by simpa using h))

end

/-- Settles O19: a jump taken is `jumpTo`, whose outcome is that of the translation and of the store into IP. -/
theorem jumpsTranslateTheirTarget : Obligations.JumpsTranslateTheirTarget := by
  unfold Obligations.JumpsTranslateTheirTarget
  refine fun s ra target hc => ⟨fun i hi => ?_, exec_jz_not_taken, exec_jnz_not_taken⟩
  rw [exec_jump_taken hi]
  refine ⟨fun pa ht hf => ?_, fun pa ht hf => ?_, fun e he => ?_⟩
  · exact ⟨_, commit_ok (jumpTo_of hc ht hf), holdsInt_iff.mpr (reg_setReg_same ..), setReg_onlyRegs s .ip _⟩
  · exact commit_error (jumpTo_overflow hc ht hf)
  · exact commit_error (jumpTo_untranslated he)

/-! ### CALL and RET (R204 to R207) -/

section
variable {s : State} {target pa : Int}

theorem callTo_of_pushFault {e : Exn} (h : pushWord (s.reg .ip) s = .error e) : callTo target s = .error e := by
  simp only [callTo, h]

/-- Once its push goes through, a CALL is a jump made in the state after the push. -/
theorem callTo_eq_jumpTo (hc : 2 ≤ s.cfg.wordSize) (ht : translateAddr s.mode (s.xi .sp + 1) true s = .ok pa)
    (hp : s.inMemory pa) (hf : Fits s.cfg (s.xi .sp + 1)) :
    callTo target s = jumpTo target (pushState (s.reg .ip) pa s) := by
  simp only [callTo, pushWord_eq_pushState hc ht hp hf]

end

/-- Settles O20: a CALL faults where its push does, or else as the jump from the state after the push. -/
theorem callPushesTheReturnAddress : Obligations.CallPushesTheReturnAddress := by
  unfold Obligations.CallPushesTheReturnAddress
  refine fun s target hc => ⟨fun pa ht hp hf => ?_, ?_⟩
  · have hcall := callTo_eq_jumpTo (target := target) hc ht hp hf
    refine ⟨fun pc hpc hfit => ?_, fun pc hpc hfit => ?_, fun e he => ?_⟩
    · refine ⟨_, commit_ok (hcall.trans (jumpTo_of hc (pushState_translate.trans hpc) hfit)), pushState_read, ?_,
        holdsInt_iff.mpr (reg_setReg_same ..), onlyRegsAndWord_setReg (pushState_onlyRegsAndWord hp.1) .ip _⟩
      exact holdsInt_iff.mpr ((reg_setReg_other _ _ (by decide)).trans pushState_holdsSp.1)
    · exact commit_error (hcall.trans (jumpTo_overflow hc (pushState_translate.trans hpc) hfit))
    · exact commit_error (hcall.trans (jumpTo_untranslated (pushState_translate.trans he)))
  · exact stackFaults_of_push hc rfl rfl rfl fun e he => commit_error (callTo_of_pushFault he)

/-- Settles O21: RET is a pop into IP. -/
theorem returnCopiesTheTopOfTheStack : Obligations.ReturnCopiesTheTopOfTheStack := by
  unfold Obligations.ReturnCopiesTheTopOfTheStack
  refine fun s hc => ⟨fun pa ht hp hf => ?_, ?_⟩
  · exact ⟨_, commit_ok (popInto_eq_popState hc ht hp hf), popState_reg, popState_holdsSp (by decide),
      popState_onlyRegs⟩
  · exact stackFaults_of_pop hc rfl rfl rfl fun e he => commit_error he

/-- Settles O22: CALL's jump writes IP alone, so RET finds the stack as CALL's push left it. -/
theorem returnUndoesCall : Obligations.ReturnUndoesCall := by
  unfold Obligations.ReturnUndoesCall
  intro s target pa hc hstack hf t hcall
  refine ⟨commit_ok hcall, fun u hcfg hmode hmem hsp hptbr hptlr => ?_⟩
  have ⟨ht, hp, hfpush, _⟩ := hstack
  rw [callTo_eq_jumpTo hc ht hp hfpush] at hcall
  obtain ⟨pc, -, -, rfl⟩ := jumpTo_ok hcall
  have hview : SameStackView u (pushState (s.reg .ip) pa s) :=
    ⟨hcfg, hmode, hmem, hsp.trans (xi_setReg_other _ _ (by decide)),
      hptbr.trans (reg_setReg_other _ _ (by decide)), hptlr.trans (reg_setReg_other _ _ (by decide))⟩
  obtain ⟨hpop, hback⟩ := popInto_of_pushState (r := .ip) hc hstack hf hview
  exact ⟨_, commit_ok hpop, popState_reg, hback ▸ popState_holdsSp (by decide)⟩

end Sys2Proof.Machine
end

section
/-! PROOFS of spec/45_stack_context.md: PUSH, POP, and the two pairings, POP after PUSH and RESTORE after BACKUP. The
states these leave, and where they fault, stand with the proofs of CALL and RET, BACKUP and RESTORE; what is new is that
a RESTORE finds the Words where the BACKUP put them. -/

namespace Sys2Proof.Machine

/-! ### PUSH and POP (R216, R217) -/

/-- Settles O23: PUSH is a push of the register's Word. -/
theorem pushStoresAboveTheTop : Obligations.PushStoresAboveTheTop := by
  unfold Obligations.PushStoresAboveTheTop
  refine fun s ra hc => ⟨fun pa ht hp hf => ?_, ?_⟩
  · exact ⟨_, commit_ok (pushWord_eq_pushState hc ht hp hf), pushState_read, pushState_holdsSp,
      pushState_onlyRegsAndWord hp.1⟩
  · exact stackFaults_of_push hc rfl rfl rfl fun e he => commit_error he

/-- Settles O24: POP is a pop into the register, SP written before it. -/
theorem popLoadsTheTop : Obligations.PopLoadsTheTop := by
  unfold Obligations.PopLoadsTheTop
  refine fun s ra hc => ⟨fun pa ht hp hf => ?_, ?_⟩
  · exact ⟨_, commit_ok (popInto_eq_popState hc ht hp hf), popState_reg, popState_holdsSp, popState_onlyRegs⟩
  · exact stackFaults_of_pop hc rfl rfl rfl fun e he => commit_error he

/-! ### PUSH, then POP (R218) -/

/-- Register writes that follow a change of registers and one Word keep its frame, their registers added. -/
theorem OnlyRegsAndWord.trans_onlyRegs {ps rs : List Reg} {pa : Int} {s t u : State} (hsub : ps ⊆ rs)
    (h : OnlyRegsAndWord ps pa s t) (k : OnlyRegs rs t u) : OnlyRegsAndWord rs pa s u := by
  obtain ⟨hregs, hmem, hdev, hmode, hstatus⟩ := h
  obtain ⟨kregs, kmem, kdev, kmode, kstatus⟩ := k
  refine ⟨fun r hr => (kregs r hr).trans (hregs r (mt (hsub ·) hr)), fun a ha => (kmem a).trans (hmem a ha), ?_,
    kmode.trans hmode, kstatus.trans hstatus⟩
  unfold SameDevices at *
  simp [kdev, hdev]

/-- Settles O25: the pop is made in the state the push left, and moves SP to where it was. -/
theorem popUndoesPush : Obligations.PopUndoesPush := by
  unfold Obligations.PopUndoesPush
  intro s ra rb pa hc hrb hstack hf
  have ⟨ht, hp, hfpush, _⟩ := hstack
  obtain ⟨hpop, hback⟩ := popInto_of_pushState (w := s.reg ra) (r := rb) hc hstack hf ⟨rfl, rfl, rfl, rfl, rfl, rfl⟩
  refine ⟨_, _, commit_ok (pushWord_eq_pushState hc ht hp hfpush), commit_ok hpop, popState_reg,
    hback ▸ popState_holdsSp hrb, pushState_read, ?_⟩
  exact (pushState_onlyRegsAndWord hp.1).trans_onlyRegs (by simp) popState_onlyRegs

/-! ### What the pops of a RESTORE are translated with (R77, R151) -/

/-- Of memory, a translation sees what it reads as, and not how it is listed. -/
theorem translate_congr_read {m : Mode} {va : Int} {forWrite : Bool} {s t : State} (hcfg : t.cfg = s.cfg)
    (hmem : SameMemory s t) (hptbr : t.reg .ptbr = s.reg .ptbr) (hptlr : t.reg .ptlr = s.reg .ptlr) :
    translateAddr m va forWrite t = translateAddr m va forWrite s := by
  have hread (a : Int) : physRead a t = physRead a s := physRead_congr_read hcfg fun _ => hmem _
  have hbase : t.xi .ptbr = s.xi .ptbr := congrArg asInteger hptbr
  have hlimit : t.xi .ptlr = s.xi .ptlr := congrArg asInteger hptlr
  cases m with
  | kernel => rfl
  | user => simp only [translateAddr, translateUser, hread, hbase, hlimit, hcfg]

theorem PushesGo.inMemory {n : Nat} {addr : Nat → Int} {s : State} (h : PushesGo n addr s) {k : Nat} (hk : k < n) :
    s.inMemory (addr k) := by
  obtain ⟨-, hin, -⟩ := h k hk
  exact hin

theorem PushesGo.nonneg {n : Nat} {addr : Nat → Int} {s : State} (h : PushesGo n addr s) : ∀ k < n, 0 ≤ addr k :=
  fun _ hk => (h.inMemory hk).1

/-- Pushes clear of the table leave the walk to each of the 23 Words as it was before the first push. -/
theorem translate_backupView {m : Mode} {forWrite : Bool} {s : State} {addr : Nat → Int} {j : Nat}
    (hgo : PushesGo 23 addr s) (hclear : ClearOfTable 23 addr s) (hj : j < 23) : ∀ {n : Nat}, n ≤ 23 →
    translateAddr m (s.xi .sp + 1 + j) forWrite (backupView s addr n) =
      translateAddr m (s.xi .sp + 1 + j) forWrite s
  | 0, _ => rfl
  | n + 1, hn =>
    (translate_writeMem_other (s := backupView s addr n) (hgo.nonneg n hn) fun _ => hclear n hn j hj).trans
      (translate_backupView hgo hclear hj (by omega))

/-! ### RESTORE after BACKUP (R222) -/

/-- The addresses of RESTORE's pops: those of BACKUP's pushes, the last first. -/
def popAddr (addr : Nat → Int) : Nat → Int := fun k => addr (22 - k)

/-- SP, the mode and the 23 stack Words of `u` are as a BACKUP from `s`, with its pushes at `addr`, leaves them. -/
structure HoldsContext (s : State) (addr : Nat → Int) (u : State) : Prop where
  cfg : u.cfg = s.cfg
  mode : u.mode = s.mode
  sp : u.xi .sp = s.xi .sp + 23
  words : ∀ k < 23, u.mem.read (addr k).toNat = s.reg (savedReg k)

section
variable {s u : State} {addr : Nat → Int}

/-- The pops go through where the pushes did, once they translate to the same Words. -/
theorem HoldsContext.popsGo (h : HoldsContext s addr u) (hgo : PushesGo 23 addr s) (hf : Fits s.cfg (s.xi .sp))
    (ht : ∀ j : Nat, j < 23 → translateAddr u.mode (s.xi .sp + 1 + j) false (restoreView u (popAddr addr) (22 - j)) =
      .ok (addr j)) : PopsGo 23 (popAddr addr) u := by
  intro k hk
  obtain ⟨j, hj, rfl⟩ : ∃ j < 23, k = 22 - j := ⟨22 - k, by omega, by omega⟩
  have haddr : popAddr addr (22 - j) = addr j := congrArg addr (by omega)
  have hva : u.xi .sp - (22 - j : Nat) = s.xi .sp + 1 + j := by
    have := h.sp
    omega
  have hnewSp : u.xi .sp - 1 - (22 - j : Nat) = s.xi .sp + j := by omega
  rw [haddr, hva, hnewSp, State.inMemory, h.cfg]
  refine ⟨ht j hj, hgo.inMemory hj, ?_⟩
  cases j with
  | zero => simpa using hf
  | succ i =>
    obtain ⟨-, -, hfit⟩ := hgo i (by omega)
    rwa [Nat.cast_succ, add_comm (i : Int), ← add_assoc]

/-- The popped PTLR is the pushed one, so a pop sees it whether before or after its own pop. -/
theorem HoldsContext.ptlr_unmoved (h : HoldsContext s addr u) (hptlr : u.reg .ptlr = s.reg .ptlr) (n : Nat) :
    (restoreView u (popAddr addr) n).reg .ptlr = s.reg .ptlr := by
  have hword : u.mem.read (popAddr addr 20).toNat = s.reg .ptlr := h.words 2 (by decide)
  rw [restoreView_ptlr, hword, hptlr, ite_self]

/-- The popped PTBR is the pushed one. -/
theorem HoldsContext.ptbr_unmoved (h : HoldsContext s addr u) (hptbr : u.reg .ptbr = s.reg .ptbr) (n : Nat) :
    (restoreView u (popAddr addr) n).reg .ptbr = s.reg .ptbr := by
  have hword : u.mem.read (popAddr addr 21).toNat = s.reg .ptbr := h.words 1 (by decide)
  rw [restoreView_ptbr, hword, hptbr, ite_self]

/-- With the page table as the BACKUP left it, and no entry used among the Words pushed, each Word is popped from where
it was pushed: every state between the two walks as `s` does. -/
theorem HoldsContext.translate_clear (h : HoldsContext s addr u) (hgo : PushesGo 23 addr s)
    (hclear : ClearOfTable 23 addr s) (hptbr : u.reg .ptbr = s.reg .ptbr) (hptlr : u.reg .ptlr = s.reg .ptlr)
    (hmem : SameMemory (backupView s addr 23) u) {j : Nat} (hj : j < 23) (n : Nat) :
    translateAddr u.mode (s.xi .sp + 1 + j) false (restoreView u (popAddr addr) n) = .ok (addr j) := by
  obtain ⟨regs, hview⟩ := restoreView_frame u (popAddr addr) n
  have hpush := translate_read_of_write (hgo j hj).1
  rw [translate_backupView hgo hclear hj hj.le] at hpush
  rw [h.mode, ← hpush, ← translate_backupView hgo hclear hj le_rfl]
  refine translate_congr_read ?_ ?_ (h.ptbr_unmoved hptbr n) (h.ptlr_unmoved hptlr n)
  · rw [hview]
    exact h.cfg
  · rw [hview]
    exact hmem

/-- A RESTORE whose pops find the 23 Words brings the 23 registers back. -/
theorem HoldsContext.exec_restore (hc : 2 ≤ s.cfg.wordSize) (h : HoldsContext s addr u)
    (hgo : PopsGo 23 (popAddr addr) u) :
    ∃ v, exec .restore u = .next v ∧ v.reg .bp = s.reg .bp ∧ v.reg .ptbr = s.reg .ptbr ∧
      v.reg .ptlr = s.reg .ptlr ∧ (∀ k : Fin 20, v.reg (.r k) = s.reg (.r k)) ∧ HoldsInt v .sp (s.xi .sp) ∧
      OnlyRegs (.sp :: savedRegs) u v := by
  obtain ⟨v, hexec, hsp, hr, hptlr, hptbr, hbp, -, honly⟩ := (restoreLoadsTheContext u _ (h.cfg ▸ hc)).1 hgo
  rw [h.sp, add_sub_cancel_right] at hsp
  refine ⟨v, hexec, hbp.trans (h.words 0 (by decide)), hptbr.trans (h.words 1 (by decide)),
    hptlr.trans (h.words 2 (by decide)), fun k => ?_, hsp, honly⟩
  have haddr : popAddr addr (19 - k) = addr (3 + k) := congrArg addr (by omega)
  rw [hr k, haddr, h.words _ (by omega), savedReg_r]

end

/-- Settles O28: by O26 the 23 Words are where BACKUP pushed them, and by O27 a RESTORE that pops them there brings the
registers back; the pops go there in Kernel mode by themselves, in User mode by either condition of R222. -/
theorem restoreUndoesBackup : Obligations.RestoreUndoesBackup := by
  unfold Obligations.RestoreUndoesBackup
  intro s addr hc hgo hdiff hf
  obtain ⟨t, hexec, ⟨-, htsp⟩, htmem, -, hkernel, -, hregs, ⟨htcfg, -⟩, htmode, -⟩ :=
    backupStoresTheContext s addr hc hgo
  refine ⟨t, hexec, fun u hcfg hmode hsp hwords huser => ?_⟩
  have hholds : HoldsContext s addr u := by
    refine ⟨hcfg.trans htcfg, hmode.trans htmode, hsp.trans htsp, fun k hk => (hwords k hk).trans ?_⟩
    rw [htmem]
    exact read_backupMem hgo.nonneg hdiff hk
  refine hholds.exec_restore hc ?_
  cases hm : s.mode with
  | kernel =>
    refine hholds.popsGo hgo hf fun j hj => ?_
    rw [hholds.mode, hm, translate_kernel, hkernel hm j hj]
  | user =>
    obtain hpops | ⟨hclear, hptbr, hptlr, hmem⟩ := huser hm
    · exact hpops
    · have hmem' : SameMemory (backupView s addr 23) u := fun a => (hmem a).trans (by rw [htmem]; rfl)
      exact hholds.popsGo hgo hf fun j hj => hholds.translate_clear hgo hclear
        (hptbr.trans (hregs _ (by decide))) (hptlr.trans (hregs _ (by decide))) hmem' hj _

end Sys2Proof.Machine
end

section
/-! PROOFS of spec/46_trap.md: INT and IRET. First the layer they share: where the vectors lie, and the one path into a
trap, which is a push with the current mode followed by the entry into Kernel mode. -/

namespace Sys2Proof.Machine

/-! ### The vectors (R231, R233, R290) -/

section
variable {c : Config}

theorem vector_eq (n : Nat) : vector c n = (2 * n + 4) * c.pageSize := by
  simp [vector]

theorem interruptAddress_of_le {n : Nat} (h : n ≤ 18) : interruptAddress c n = some (vector c n) :=
  if_pos ⟨Int.natCast_nonneg n, Int.ofNat_le.mpr h⟩

theorem interruptAddress_outside {n : Int} (h : n < 0 ∨ 18 < n) : interruptAddress c n = none := by
  refine if_neg fun ⟨hlow, (hhigh : n ≤ 18)⟩ => ?_
  omega

/-- R5's 41 pages hold the last vector, and every address in memory fits a Word. -/
theorem vector_fits {n : Nat} (hv : c.Valid) (hn : n ≤ 18) : Fits c (vector c n) := by
  obtain ⟨-, -, hpages, -, -, hjoint⟩ := hv
  have hmin := intMin_nonpos c
  have hmem : (2 * n + 4) * c.pageSize ≤ c.memorySize := by
    rw [Config.memorySize, Nat.mul_comm c.pageSize]
    exact Nat.mul_le_mul_right _ (by omega)
  unfold Fits vector
  omega

end

/-- Settles O32: the named values are the formula at 4, 0 and 18. Its products of `c.pageSize` are of naturals, cast
afterwards, which is how `vector` reads. -/
theorem vectorFormula : Obligations.VectorFormula := by
  unfold Obligations.VectorFormula
  intro c
  have h4 : interruptAddress c 4 = some (vector c 4) := interruptAddress_of_le (by decide)
  have h0 : interruptAddress c 0 = some (vector c 0) := interruptAddress_of_le (by decide)
  have h18 : interruptAddress c 18 = some (vector c 18) := interruptAddress_of_le (by decide)
  refine ⟨fun n => interruptAddress_of_le, h4, h4, h0, h18, fun hpage => ?_⟩
  simp [h4, h0, h18, vector, hpage]

/-! ### Into a trap (R291) -/

/-- The state the trap entry with number `n` leaves, its push having gone to the physical address `pa`. -/
def trapState (n : Nat) (pa : Int) (s : State) : State :=
  { (pushState (s.reg .ip) pa s).setReg .ip (integerWord (vector s.cfg n)) with mode := .kernel }

section
variable {s : State} {n : Nat} {pa : Int}

theorem trapEntry_eq_trapState (hv : s.cfg.Valid) (hn : n ≤ 18)
    (ht : translateAddr s.mode (s.xi .sp + 1) true s = .ok pa) (hp : s.inMemory pa)
    (hf : Fits s.cfg (s.xi .sp + 1)) : trapEntry n s = .ok (trapState n pa s) := by
  have ⟨hc, _⟩ := hv
  simp only [trapEntry, pushWord_eq_pushState hc ht hp hf]
  exact setInt_fits hc (vector_fits hv hn)

theorem trapEntry_of_pushFault {e : Exn} (h : pushWord (s.reg .ip) s = .error e) : trapEntry n s = .error e := by
  simp only [trapEntry, h]

theorem trapState_mode : (trapState n pa s).mode = .kernel := rfl

theorem trapState_read : (trapState n pa s).mem.read pa.toNat = s.reg .ip :=
  pushState_read

theorem trapState_reg_other {r : Reg} (h : r ≠ .ip) : (trapState n pa s).reg r = (pushState (s.reg .ip) pa s).reg r :=
  reg_setReg_other _ _ h

theorem trapState_holdsSp : HoldsInt (trapState n pa s) .sp (s.xi .sp + 1) :=
  holdsInt_iff.mpr ((trapState_reg_other (by decide)).trans pushState_holdsSp.1)

theorem trapState_holdsIp : HoldsInt (trapState n pa s) .ip ((2 * n + 4) * s.cfg.pageSize) :=
  holdsInt_iff.mpr ((reg_setReg_same ..).trans (by rw [vector_eq]))

/-- The mode apart, a trap entry writes SP, IP and the Word pushed. -/
theorem trapState_frame (hpa : 0 ≤ pa) :
    OnlyRegsAndWord [.sp, .ip] pa s { trapState n pa s with mode := s.mode } :=
  onlyRegsAndWord_setReg (pushState_onlyRegsAndWord hpa) .ip _

end

/-! ### INT (R230, R231) -/

theorem softwareInterrupt_of_le {n : Nat} (hn : n ≤ 18) (s : State) : softwareInterrupt n s = trapEntry n s := by
  simp only [softwareInterrupt, interruptAddress_of_le hn, Int.toNat_natCast]

theorem softwareInterrupt_outside {n : Int} (h : n < 0 ∨ 18 < n) (s : State) :
    softwareInterrupt n s = .error .malformedOperand := by
  simp only [softwareInterrupt, interruptAddress_outside h]

theorem exec_int_of_le {n : Nat} (hn : n ≤ 18) (s : State) : exec (.int n) s = commit s (trapEntry n s) :=
  congrArg (commit s) (softwareInterrupt_of_le hn s)

/-- Settles O31: the number is judged before the trap entry. -/
theorem intRejectsOtherNumbers : Obligations.IntRejectsOtherNumbers := by
  unfold Obligations.IntRejectsOtherNumbers
  exact fun s n h => ⟨interruptAddress_outside h, commit_error (softwareInterrupt_outside h s)⟩

/-- Settles O30: the vector fits a Word, so the push alone can fault. -/
theorem intEntersTheHandler : Obligations.IntEntersTheHandler := by
  unfold Obligations.IntEntersTheHandler
  intro s n hv hn
  have ⟨hc, _⟩ := hv
  have hexec := exec_int_of_le hn s
  refine ⟨fun pa ht hp hf => ?_, ?_⟩
  · obtain ⟨hregs, hmem, hdev, -, hstatus⟩ := trapState_frame (n := n) (s := s) hp.1
    exact ⟨_, hexec.trans (commit_ok (trapEntry_eq_trapState hv hn ht hp hf)), trapState_read, trapState_holdsSp,
      trapState_mode, trapState_holdsIp, hregs, hmem, hdev, hstatus⟩
  · exact stackFaults_of_push hc rfl rfl rfl fun e he => hexec.trans (commit_error (trapEntry_of_pushFault he))

/-! ### IRET (R232, R294) -/

/-- Settles O33: IRET is a pop into IP made in User mode; a translation does not look at the mode in the state. -/
theorem iretReturnsToUserMode : Obligations.IretReturnsToUserMode := by
  unfold Obligations.IretReturnsToUserMode
  intro s hc
  have hview {va : Int} : translateAddr .user va false { s with mode := .user } = translateAddr .user va false s :=
    translate_congr rfl rfl rfl rfl
  refine ⟨fun pa ht hp hf => ?_, ?_⟩
  · obtain ⟨hregs, hmem, hdev, hmode, hstatus⟩ :=
      popState_onlyRegs (r := .ip) (w := s.mem.read pa.toNat) (s := { s with mode := .user })
    exact ⟨_, commit_ok (popInto_eq_popState hc (hview.trans ht) hp hf), hmode, popState_reg,
      popState_holdsSp (by decide), hregs, hmem, hdev, hstatus⟩
  · exact stackFaults_of_pop (t := { s with mode := .user }) hc rfl rfl hview fun e he => commit_error he

/-! ### INT, then IRET -/

/-- Settles O34: of the stack, the entry's write to IP changes nothing, and IRET sets back the mode, so its pop finds
the Word pushed. -/
theorem iretUndoesIntFromUserMode : Obligations.IretUndoesIntFromUserMode := by
  unfold Obligations.IretUndoesIntFromUserMode
  intro s n pa hv hn huser hstack hf
  have ⟨hc, _⟩ := hv
  have ⟨ht, hp, hfpush, _⟩ := hstack
  refine ⟨trapState n pa s, ?_, trapState_mode, fun u hcfg hmem hsp hptbr hptlr => ?_⟩
  · exact (exec_int_of_le hn s).trans (commit_ok (trapEntry_eq_trapState hv hn ht hp hfpush))
  have hview : SameStackView { u with mode := .user } (pushState (s.reg .ip) pa s) :=
    ⟨hcfg, huser.symm, hmem, hsp.trans (congrArg asInteger (trapState_reg_other (by decide))),
      hptbr.trans (trapState_reg_other (by decide)), hptlr.trans (trapState_reg_other (by decide))⟩
  obtain ⟨hpop, hback⟩ := popInto_of_pushState (r := .ip) hc hstack hf hview
  exact ⟨_, commit_ok hpop, rfl, popState_reg, hback ▸ popState_holdsSp (by decide)⟩

end Sys2Proof.Machine
end

section
/-! PROOFS of spec/47_disk.md: the block transfers, the three disk instructions, the ticks of the disk, and the pending
request along a cycle. The last is put together from what each part of a cycle does to the disk's side of the state:
Execute and a delivered fault (`KeepsDisk`), the two other ticks (`SameDiskSide`), the interrupt (`DiskDelivered`). -/

namespace Sys2Proof.Machine

/-! ### The block transfers (R240) -/

section
variable {src dst : Memory} {i j n : Nat}

theorem read_copyWords_inside {k : Nat} (hk : k < n) : (copyWords src i dst j n).read (j + k) = src.read (i + k) := by
  rw [read_copyWords, if_pos ⟨by omega, by omega⟩, Nat.add_sub_cancel_left]

theorem read_copyWords_outside {a : Nat} (ha : a < j ∨ j + n ≤ a) :
    (copyWords src i dst j n).read a = dst.read a := by
  rw [read_copyWords, if_neg (by omega)]

end

section
variable {p b i a : Nat} {s : State}

theorem readBlock_read_inside (hi : i < s.cfg.pageSize) :
    (readBlock p b s).mem.read (p * s.cfg.pageSize + i) = s.blocks.read (b * s.cfg.pageSize + i) :=
  read_copyWords_inside hi

theorem writeBlock_read_inside (hi : i < s.cfg.pageSize) :
    (writeBlock p b s).blocks.read (b * s.cfg.pageSize + i) = s.mem.read (p * s.cfg.pageSize + i) :=
  read_copyWords_inside hi

theorem readBlock_read_outside (ha : a < p * s.cfg.pageSize ∨ (p + 1) * s.cfg.pageSize ≤ a) :
    (readBlock p b s).mem.read a = s.mem.read a :=
  read_copyWords_outside (Nat.succ_mul p s.cfg.pageSize ▸ ha)

theorem writeBlock_read_outside (ha : a < b * s.cfg.pageSize ∨ (b + 1) * s.cfg.pageSize ≤ a) :
    (writeBlock p b s).blocks.read a = s.blocks.read a :=
  read_copyWords_outside (Nat.succ_mul b s.cfg.pageSize ▸ ha)

end

/-- Settles O48: both transfers are one copy of PAGE_SIZE Words, read inside and outside the copied range. -/
theorem blockTransfersCopyAPage : Obligations.BlockTransfersCopyAPage := by
  unfold Obligations.BlockTransfersCopyAPage
  exact fun s p b => ⟨fun i hi => ⟨readBlock_read_inside hi, writeBlock_read_inside hi⟩,
    fun a => readBlock_read_outside, fun a => writeBlock_read_outside, rfl, rfl⟩

/-! ### LOADI, LOAD and STORE (R242 to R247) -/

section
variable {page block : RegInt} {effect : Nat → Nat → State → State} {s : State}

theorem transferBody_inRange (hp : 0 ≤ intOf page s ∧ intOf page s < s.cfg.numPages)
    (hb : 0 ≤ intOf block s ∧ intOf block s < s.cfg.numBlocks) :
    transferBody page block effect s = .ok (effect (intOf page s).toNat (intOf block s).toNat s) := by
  simp only [transferBody, validateTransfer, not_lt.mpr hp.1, not_le.mpr hp.2, not_lt.mpr hb.1, not_le.mpr hb.2,
    or_self, if_false]

theorem transferBody_badPage (hp : ¬ (0 ≤ intOf page s ∧ intOf page s < s.cfg.numPages)) :
    transferBody page block effect s = .error (.outOfRange (intOf page s * s.cfg.pageSize)) := by
  have hbad : intOf page s < 0 ∨ intOf page s ≥ s.cfg.numPages := by omega
  simp only [transferBody, validateTransfer, if_pos hbad]

theorem transferBody_badBlock (hp : 0 ≤ intOf page s ∧ intOf page s < s.cfg.numPages)
    (hb : ¬ (0 ≤ intOf block s ∧ intOf block s < s.cfg.numBlocks)) :
    transferBody page block effect s = .error (.outOfRange (intOf block s)) := by
  have hgood : ¬ (intOf page s < 0 ∨ intOf page s ≥ s.cfg.numPages) := by omega
  have hbad : intOf block s < 0 ∨ intOf block s ≥ s.cfg.numBlocks := by omega
  simp only [transferBody, validateTransfer, if_neg hgood, if_pos hbad]

end

theorem issueDisk_idle {s : State} (h : s.disk = none) (op : DiskOp) (p b : Nat) :
    issueDisk op p b s = { s with disk := some ⟨s.cfg.diskLatency, op, p, b⟩ } := by
  simp only [issueDisk, h]

theorem issueDisk_busy {s : State} (h : s.disk ≠ none) (op : DiskOp) (p b : Nat) : issueDisk op p b s = s := by
  obtain ⟨r, hr⟩ := Option.ne_none_iff_exists'.mp h
  simp only [issueDisk, hr]

/-- Settles O51: the validated body is one `readBlock`. -/
theorem loadiTransfersAtOnce : Obligations.LoadiTransfersAtOnce := by
  unfold Obligations.LoadiTransfersAtOnce
  intro s page block hp hb
  have hexec : exec (.loadi page block) s = .next (readBlock (intOf page s).toNat (intOf block s).toNat s) :=
    commit_ok (transferBody_inRange hp hb)
  refine ⟨_, hexec, fun i => readBlock_read_inside, fun a ha => readBlock_read_outside ?_, fun _ _ => rfl,
    by simp [SameDevices], rfl, rfl⟩
  have hbase : intOf page s * s.cfg.pageSize = ((intOf page s).toNat * s.cfg.pageSize : Nat) := by
    rw [Nat.cast_mul, Int.toNat_of_nonneg hp.1]
  rw [hbase] at ha
  rw [Nat.succ_mul]
  omega

/-- Settles O52: the three instructions share one validation; behind it LOAD and STORE issue a request. -/
theorem diskRequestsAreRecordedOrDropped : Obligations.DiskRequestsAreRecordedOrDropped := by
  unfold Obligations.DiskRequestsAreRecordedOrDropped
  intro s page block op i hi
  have hissue : exec i s = commit s (transferBody page block (issueDisk op) s) := by
    obtain ⟨rfl, rfl⟩ | ⟨rfl, rfl⟩ := hi <;> rfl
  refine ⟨fun hp hb => ?_, fun j hj => ?_⟩
  · rw [hissue, commit_ok (transferBody_inRange hp hb)]
    exact ⟨fun hidle => by rw [issueDisk_idle hidle], fun hbusy => by rw [issueDisk_busy hbusy]⟩
  · obtain ⟨effect, hexec⟩ : ∃ effect, exec j s = commit s (transferBody page block effect s) := by
      obtain rfl | rfl := hj
      · exact ⟨_, hissue⟩
      · exact ⟨readBlock, rfl⟩
    rw [hexec]
    exact ⟨fun hp => commit_error (transferBody_badPage hp), fun hp hb => commit_error (transferBody_badBlock hp hb)⟩

/-! ### The tick of the disk (R301) -/

theorem transfer_load {r : DiskRequest} (h : r.op = .load) (s : State) :
    transfer r s = readBlock r.page r.block s := by
  simp only [transfer, h]

theorem transfer_store {r : DiskRequest} (h : r.op = .store) (s : State) :
    transfer r s = writeBlock r.page r.block s := by
  simp only [transfer, h]

theorem diskTick_idle {s : State} (h : s.disk = none) : diskTick s = s := by
  simp only [diskTick, h]

section
variable {s : State} {r : DiskRequest}

theorem diskTick_countdown (h : s.disk = some r) (hr : 0 < r.remaining) :
    diskTick s = { s with disk := some { r with remaining := r.remaining - 1 } } := by
  simp only [diskTick, h, gt_iff_lt, if_pos hr]

theorem diskTick_complete (h : s.disk = some r) (hr : r.remaining = 0) :
    diskTick s = { transfer r s with disk := none, diskPending := true } := by
  simp only [diskTick, h, gt_iff_lt, hr, lt_irrefl, if_false]

theorem diskTick_keepsLatch (h : s.diskPending = true) : (diskTick s).diskPending = true := by
  obtain ⟨-, hs⟩ | ⟨r, -, -, hs⟩ | ⟨r, -, -, hs⟩ := diskTick_cases s <;> rw [hs]
  · exact h
  · exact h

end

/-- A pending request counts its own ticks. -/
theorem repeatTick_diskTick {s : State} {r : DiskRequest} (h : s.disk = some r) : ∀ n ≤ r.remaining,
    repeatTick diskTick n s = { s with disk := some { r with remaining := r.remaining - n } }
  | 0, _ => by rw [repeatTick, Nat.sub_zero, ← h]
  | n + 1, hn => by
    rw [repeatTick, repeatTick_diskTick h n (by omega), diskTick_countdown rfl (Nat.sub_pos_of_lt hn)]
    rfl

/-- Settles O46: a request of latency L is counted down by L ticks, so that the next one completes it. -/
theorem diskRequestCompletesAfterItsLatency : Obligations.DiskRequestCompletesAfterItsLatency := by
  unfold Obligations.DiskRequestCompletesAfterItsLatency
  refine ⟨fun s => diskTick_idle, fun s r hr => ⟨diskTick_countdown hr, fun hzero => ?_⟩, fun s op p b hidle => ?_⟩
  · rw [diskTick_complete hr hzero]
    cases hop : r.op with
    | load => rw [transfer_load hop]
    | store => rw [transfer_store hop]
  · rw [issueDisk_idle hidle]
    have hcount := repeatTick_diskTick (s := { s with disk := some ⟨s.cfg.diskLatency, op, p, b⟩ }) rfl
    refine ⟨hcount, ?_⟩
    rw [repeatTick, hcount _ le_rfl, diskTick_complete rfl (Nat.sub_self _)]
    cases op <;> rfl

/-! ### What Execute does to the devices -/

/-- What Execute, or the delivery of its fault, can do to the devices and the console's input: nothing, a request to
the disk or to the console, or INI's line. -/
inductive DeviceEffect (s : State) : State → Prop
  | none {t : State} (h : SameDevices s t) : DeviceEffect s t
  | disk (op : DiskOp) (p b : Nat) : DeviceEffect s (issueDisk op p b s)
  | console (op : ConsoleOp) : DeviceEffect s (issueConsole op s)
  | line : DeviceEffect s (readConsole s)

/-- The fields that are no device's: registers, memory, mode, run status. -/
theorem sameDevices_of_writes (s : State) (regs : Vector Word 33) (mem : Memory) (mode : Mode) (status : Status) :
    SameDevices s { s with regs := regs, mem := mem, mode := mode, status := status } := by
  simp [SameDevices]

theorem SameDevices.trans {s t u : State} (h : SameDevices s t) (k : SameDevices t u) : SameDevices s u := by
  unfold SameDevices at *
  simp_all

theorem setInt_sameDevices {r : Reg} {v : Int} {s t : State} (h : setInt r v s = .ok t) : SameDevices s t := by
  obtain ⟨rfl, -⟩ := setInt_ok h
  exact sameDevices_of_writes ..

theorem moveWord_sameDevices {d : Dst} {o : Src} {s t : State} (h : moveWord d o s = .ok t) : SameDevices s t := by
  obtain ⟨w, -, hw⟩ := moveWord_ok h
  obtain ⟨r, -, rfl⟩ | ⟨_, _, pa, -, -, -, rfl⟩ := writeTo_ok hw <;> exact sameDevices_of_writes ..

theorem jumpTo_sameDevices {target : Int} {s t : State} (h : jumpTo target s = .ok t) : SameDevices s t := by
  obtain ⟨pa, -, -, rfl⟩ := jumpTo_ok h
  exact sameDevices_of_writes ..

theorem jumpWhen_sameDevices {taken : Bool} {target : Int} {s t : State} (h : jumpWhen taken target s = .ok t) :
    SameDevices s t := by
  obtain ⟨-, hjump⟩ | ⟨-, rfl⟩ := jumpWhen_ok h
  · exact jumpTo_sameDevices hjump
  · exact sameDevices_of_writes ..

theorem pushWord_sameDevices {w : Word} {s t : State} (h : pushWord w s = .ok t) : SameDevices s t := by
  obtain ⟨pa, -, -, -, rfl⟩ := pushWord_ok h
  exact sameDevices_of_writes ..

theorem popInto_sameDevices {r : Reg} {s t : State} (h : popInto r s = .ok t) : SameDevices s t := by
  obtain ⟨pa, -, -, -, rfl⟩ := popInto_ok h
  exact sameDevices_of_writes ..

theorem callTo_sameDevices {target : Int} {s t : State} (h : callTo target s = .ok t) : SameDevices s t := by
  obtain ⟨u, hpush, hjump⟩ := callTo_ok h
  exact (pushWord_sameDevices hpush).trans (jumpTo_sameDevices hjump)

theorem foldlM_sameDevices {f : State → Reg → Except Exn State}
    (hf : ∀ {s t : State} {r : Reg}, f s r = .ok t → SameDevices s t) :
    ∀ {rs : List Reg} {s t : State}, rs.foldlM f s = .ok t → SameDevices s t
  | [], s, _, h => Except.ok.inj h ▸ sameDevices_of_writes ..
  | r :: rs, s, t, h => by
    rw [List.foldlM_cons] at h
    cases hu : f s r with
    | error e => rw [hu] at h; cases h
    | ok u => rw [hu] at h; exact (hf hu).trans (foldlM_sameDevices hf h)

theorem trapEntry_sameDevices {n : Nat} {s t : State} (h : trapEntry n s = .ok t) : SameDevices s t := by
  obtain ⟨pa, -, -, -, -, rfl⟩ := trapEntry_ok h
  exact sameDevices_of_writes ..

theorem returnFromTrap_sameDevices {s t : State} (h : returnFromTrap s = .ok t) : SameDevices s t := by
  obtain ⟨pa, -, -, -, rfl⟩ := returnFromTrap_ok h
  exact sameDevices_of_writes ..

theorem transferBody_deviceEffect {page block : RegInt} {effect : Nat → Nat → State → State} {s t : State}
    (heffect : ∀ p b, DeviceEffect s (effect p b s)) (h : transferBody page block effect s = .ok t) :
    DeviceEffect s t := by
  unfold transferBody at h
  split at h
  · cases h
  · exact Except.ok.inj h ▸ heffect _ _

/-- LOAD, STORE, IN, OUT and INI alone have an effect here: LOADI's transfer does not go through the device (R243). -/
theorem instrBody_deviceEffect {i : Instr} {s t : State} (h : instrBody i s = .ok t) : DeviceEffect s t := by
  cases i with
  | mov | port => exact .none (moveWord_sameDevices h)
  | add | sub | mul | inr | dcr => exact .none (setInt_sameDevices h)
  | div | mod => exact .none (setInt_sameDevices (divideInto_ok h).2)
  | lt | gt | eq | ne | ge | le | encrypt | halt => exact Except.ok.inj h ▸ .none (sameDevices_of_writes ..)
  | jz | jnz | jmp => exact .none (jumpWhen_sameDevices h)
  | push => exact .none (pushWord_sameDevices h)
  | pop | ret => exact .none (popInto_sameDevices h)
  | call => exact .none (callTo_sameDevices h)
  | backup => exact .none (foldlM_sameDevices pushWord_sameDevices ((pushRegs_eq_foldlM ..).symm.trans h))
  | restore => exact .none (foldlM_sameDevices popInto_sameDevices ((popRegs_eq_foldlM ..).symm.trans h))
  | int => exact .none (trapEntry_sameDevices (softwareInterrupt_ok h).2)
  | iret => exact .none (returnFromTrap_sameDevices h)
  | loadi => exact transferBody_deviceEffect (fun _ _ => .none (sameDevices_of_writes ..)) h
  | load | store => exact transferBody_deviceEffect (fun _ _ => .disk ..) h
  | inp | out => exact Except.ok.inj h ▸ .console _
  | ini => exact Except.ok.inj h ▸ .line
  | brkp => exact Except.ok.inj h ▸ (callDebugHook_eq _ s).symm ▸ .none (sameDevices_of_writes ..)

theorem deliverFault_sameDevices (e : Exn) (ia : Int) (s : State) : SameDevices s (deliverFault e ia s) := by
  obtain ⟨_, _, _, _, -, h⟩ := deliverFault_frame e ia s
  rw [h]
  exact sameDevices_of_writes ..

theorem exec_deviceEffect {i : Instr} {s t : State} (h : exec i s = .next t) : DeviceEffect s t := by
  rw [exec_eq_commit] at h
  obtain hok | ⟨e, -, rfl⟩ := commit_next h
  · exact instrBody_deviceEffect hok
  · exact .none (deliverFault_sameDevices ..)

/-! ### The cycle up to its post-execute phase (R140) -/

section
variable {s t before after : State}

theorem CycleBody.begins (h : CycleBody s before after) : SameDevices s before := by
  obtain ⟨_, -, rfl, -⟩ | ⟨_, _, -, -, rfl, -⟩ | ⟨_, _, -, hadv, -, -⟩ | ⟨_, _, -, hadv, -, -⟩ := h
  · exact sameDevices_of_writes ..
  · exact sameDevices_of_writes ..
  · exact setInt_sameDevices hadv
  · exact setInt_sameDevices hadv

theorem CycleBody.deviceEffect (h : CycleBody s before after) : DeviceEffect before after := by
  obtain ⟨_, -, rfl, rfl⟩ | ⟨_, _, -, -, rfl, rfl⟩ | ⟨_, _, -, -, -, rfl⟩ | ⟨_, _, -, -, -, hexec⟩ := h
  · exact .none (deliverFault_sameDevices ..)
  · exact .none (deliverFault_sameDevices ..)
  · exact .none (deliverFault_sameDevices ..)
  · exact exec_deviceEffect hexec

/-- A step is the body of a cycle and its end. -/
theorem step_cycleBody (h : step s = .next t) :
    ∃ before after, CycleBody s before after ∧ t = finishCycle before after := by
  obtain ⟨-, ⟨e, hf, rfl⟩ | ⟨text, e, hf, ha, rfl⟩ | ⟨text, s1, e, hf, ha, hd, rfl⟩ |
    ⟨text, s1, i, u, hf, ha, hd, hexec, rfl⟩⟩ := step_next h
  · exact ⟨_, _, .inl ⟨e, hf, rfl, rfl⟩, rfl⟩
  · exact ⟨_, _, .inr (.inl ⟨text, e, hf, ha, rfl, rfl⟩), rfl⟩
  · exact ⟨_, _, .inr (.inr (.inl ⟨text, e, hf, ha, hd, rfl⟩)), rfl⟩
  · exact ⟨_, _, .inr (.inr (.inr ⟨text, i, hf, ha, hd, hexec⟩)), rfl⟩

/-- A cycle that leaves the machine running had its post-execute phase, which skips the tick of a device that was idle
when the cycle began and is busy now. -/
theorem step_running (h : step s = .next t) (hrun : t.status = .running) :
    ∃ before after, CycleBody s before after ∧
      t = postExecute (issuedDisk s after) (issuedConsole s after) after := by
  obtain ⟨before, after, hbody, rfl⟩ := step_cycleBody h
  refine ⟨before, after, hbody, ?_⟩
  obtain ⟨-, heq⟩ | ⟨hstop, heq⟩ := finishCycle_cases before after
  · obtain ⟨-, -, hdisk, hconsole, -⟩ := hbody.begins
    rw [heq, issuedDisk, issuedConsole, hdisk, hconsole]
    rfl
  · exact absurd (heq ▸ hrun) hstop

end

/-- What Execute leaves of the disk's side: a pending request, the block store, the latch. -/
structure KeepsDisk (s t : State) : Prop where
  cfg : t.cfg = s.cfg
  blocks : t.blocks = s.blocks
  diskPending : t.diskPending = s.diskPending
  busy : ∀ r, s.disk = some r → t.disk = some r

theorem KeepsDisk.trans {s t u : State} (h : KeepsDisk s t) (k : KeepsDisk t u) : KeepsDisk s u :=
  ⟨k.cfg.trans h.cfg, k.blocks.trans h.blocks, k.diskPending.trans h.diskPending, fun r hr => k.busy r (h.busy r hr)⟩

/-- A second request to the disk is dropped (R247); no other effect comes near it. -/
theorem DeviceEffect.keepsDisk {s t : State} (h : DeviceEffect s t) : KeepsDisk s t := by
  cases h with
  | none h =>
    obtain ⟨hcfg, -, hdisk, -, -, hpending, -, hblocks, -⟩ := h
    exact ⟨hcfg, hblocks, hpending, fun r hr => hdisk.trans hr⟩
  | disk op p b =>
    obtain ⟨-, h⟩ | ⟨hidle, h⟩ := issueDisk_cases op p b s <;> rw [h]
    · exact ⟨rfl, rfl, rfl, fun _ => id⟩
    · exact ⟨rfl, rfl, rfl, fun r hr => absurd (hidle ▸ hr) nofun⟩
  | console op =>
    obtain ⟨-, h⟩ | ⟨-, h⟩ := issueConsole_cases op s <;> rw [h] <;> exact ⟨rfl, rfl, rfl, fun _ => id⟩
  | line => exact ⟨rfl, rfl, rfl, fun _ => id⟩

theorem CycleBody.keepsDisk {s before after : State} (h : CycleBody s before after) : KeepsDisk s after :=
  (DeviceEffect.none h.begins).keepsDisk.trans h.deviceEffect.keepsDisk

/-! ### The post-execute phase, seen from the disk (R299) -/

/-- What the ticks of the timer and the console leave alone: of the registers, all but the P0 of a console line. -/
structure SameDiskSide (s t : State) : Prop where
  cfg : t.cfg = s.cfg
  mem : t.mem = s.mem
  mode : t.mode = s.mode
  disk : t.disk = s.disk
  diskPending : t.diskPending = s.diskPending
  blocks : t.blocks = s.blocks
  regs : SameRegsBut [.p 0] s t

theorem SameDiskSide.refl (s : State) : SameDiskSide s s := ⟨rfl, rfl, rfl, rfl, rfl, rfl, fun _ _ => rfl⟩

theorem SameDiskSide.trans {s t u : State} (h : SameDiskSide s t) (k : SameDiskSide t u) : SameDiskSide s u :=
  ⟨k.cfg.trans h.cfg, k.mem.trans h.mem, k.mode.trans h.mode, k.disk.trans h.disk, k.diskPending.trans h.diskPending,
    k.blocks.trans h.blocks, fun r hr => (k.regs r hr).trans (h.regs r hr)⟩

theorem timerTick_sameDiskSide (s : State) : SameDiskSide s (timerTick s) := by
  obtain ⟨-, h⟩ | ⟨-, -, h⟩ | ⟨-, -, h⟩ := timerTick_cases s <;> rw [h] <;>
    exact ⟨rfl, rfl, rfl, rfl, rfl, rfl, fun _ _ => rfl⟩

theorem consoleTransfer_sameDiskSide (op : ConsoleOp) (s : State) : SameDiskSide s (consoleTransfer op s) := by
  cases op with
  | read =>
    refine ⟨rfl, rfl, rfl, rfl, rfl, rfl, fun r hr => ?_⟩
    have hne : r ≠ .p 0 := by simpa using hr
    exact (reg_readConsole s r).trans (if_neg hne)
  | print w => exact ⟨rfl, rfl, rfl, rfl, rfl, rfl, fun _ _ => rfl⟩

theorem consoleTick_sameDiskSide (s : State) : SameDiskSide s (consoleTick s) := by
  obtain ⟨-, h⟩ | ⟨r, -, -, h⟩ | ⟨r, -, -, h⟩ := consoleTick_cases s <;> rw [h]
  · exact .refl s
  · exact ⟨rfl, rfl, rfl, rfl, rfl, rfl, fun _ _ => rfl⟩
  · obtain ⟨hcfg, hmem, hmode, hdisk, hpending, hblocks, hregs⟩ := consoleTransfer_sameDiskSide r.op s
    exact ⟨hcfg, hmem, hmode, hdisk, hpending, hblocks, hregs⟩

theorem SameDiskSide.transfer {s t : State} (h : SameDiskSide s t) (r : DiskRequest) :
    SameDiskSide (transfer r s) (transfer r t) := by
  obtain ⟨hcfg, hmem, hmode, hdisk, hpending, hblocks, hregs⟩ := h
  cases hop : r.op with
  | load =>
    rw [transfer_load hop, transfer_load hop]
    exact ⟨hcfg, by simp only [readBlock, hcfg, hmem, hblocks], hmode, hdisk, hpending, hblocks, hregs⟩
  | store =>
    rw [transfer_store hop, transfer_store hop]
    exact ⟨hcfg, hmem, hmode, hdisk, hpending, by simp only [writeBlock, hcfg, hmem, hblocks], hregs⟩

/-- The disk's tick looks at the disk's side alone, so that it may be taken before the timer's. -/
theorem SameDiskSide.diskTick {s t : State} (h : SameDiskSide s t) : SameDiskSide (diskTick s) (diskTick t) := by
  obtain ⟨hidle, hs⟩ | ⟨r, hr, hpos, hs⟩ | ⟨r, hr, hzero, hs⟩ := diskTick_cases s <;> rw [hs]
  · rwa [diskTick_idle (h.disk.trans hidle)]
  · rw [diskTick_countdown (h.disk.trans hr) hpos]
    exact { h with disk := rfl }
  · rw [diskTick_complete (h.disk.trans hr) hzero]
    exact { h.transfer r with disk := rfl, diskPending := rfl }

/-- The post-execute phase is the disk's tick, if it is not skipped, and the delivery of an interrupt; in between
nothing happens to the disk's side. -/
theorem postExecute_sameDiskSide (d c : Bool) (s : State) :
    ∃ u, SameDiskSide (if d then s else diskTick s) u ∧ postExecute d c s = deliverInterrupt u := by
  have htimer := timerTick_sameDiskSide s
  have hdisk : SameDiskSide (if d then s else diskTick s) (if d then timerTick s else diskTick (timerTick s)) := by
    cases d with
    | true => exact htimer
    | false => exact htimer.diskTick
  refine ⟨_, hdisk.trans ?_, rfl⟩
  cases c with
  | true => exact .refl _
  | false => exact consoleTick_sameDiskSide _

/-! ### The delivery of an interrupt (R303, R305) -/

theorem clearLatch_frame (src : Source) (s : State) : ∃ timer disk console, clearLatch src s =
    { s with timerPending := timer, diskPending := disk, consolePending := console } := by
  cases src <;> exact ⟨_, _, _, rfl⟩

theorem clearLatch_diskPending (src : Source) (s : State) :
    (clearLatch src s).diskPending = if src = .disk then false else s.diskPending := by
  cases src <;> rfl

/-- A machine that runs after the delivery of an interrupt had none to take, or entered its handler. -/
theorem deliverInterrupt_running {s : State} (hrun : (deliverInterrupt s).status = .running) :
    deliverInterrupt s = s ∨ ∃ src pa, s.mode = .user ∧ translateAddr .user (s.xi .sp + 1) true s = .ok pa ∧
      s.inMemory pa ∧ deliverInterrupt s = clearLatch src (trapState src.number pa s) := by
  obtain ⟨-, h⟩ | ⟨src, huser, -, ⟨t, ht, h⟩ | ⟨e, -, h⟩⟩ := deliverInterrupt_cases s
  · exact .inl h
  · obtain ⟨pa, htrans, hpa, -, -, rfl⟩ := trapEntry_ok ht
    exact .inr ⟨src, pa, huser, huser ▸ htrans, hpa, h⟩
  · rw [h] at hrun
    cases hrun

/-- The disk's interrupt is latched in `t`, or its handler has just been entered, at vector 2. -/
def DiskInterrupted (t : State) : Prop :=
  t.diskPending = true ∨ t.mode = .kernel ∧ HoldsInt t .ip (8 * t.cfg.pageSize)

/-- What the delivery of an interrupt, whichever it is, does on the disk's side to the state `s` of the ticks. -/
structure DiskDelivered (s t : State) : Prop where
  disk : t.disk = s.disk
  blocks : t.blocks = s.blocks
  pending : s.diskPending = true → DiskInterrupted t
  latch : t.diskPending = true → s.diskPending = true
  quiet : t.mode = s.mode → t.mem = s.mem
  entered : t.mode ≠ s.mode → ∀ pa, translateAddr .user (s.xi .sp + 1) true s = .ok pa → SameMemoryBut pa s t

theorem diskDelivered_refl (s : State) : DiskDelivered s s :=
  ⟨rfl, rfl, .inl, id, fun _ => rfl, fun h => absurd rfl h⟩

theorem diskDelivered_entry {s : State} {src : Source} {pa : Int} (huser : s.mode = .user)
    (ht : translateAddr .user (s.xi .sp + 1) true s = .ok pa) (hpa : s.inMemory pa) :
    DiskDelivered s (clearLatch src (trapState src.number pa s)) := by
  obtain ⟨-, hmem, ⟨-, -, hdisk, -, -, hpending, -, hblocks, -⟩, -, -⟩ :=
    trapState_frame (n := src.number) (s := s) hpa.1
  have hlatch := clearLatch_diskPending src (trapState src.number pa s)
  obtain ⟨_, _, _, hclear⟩ := clearLatch_frame src (trapState src.number pa s)
  have hmode : (clearLatch src (trapState src.number pa s)).mode = .kernel := by rw [hclear]; rfl
  refine ⟨by rw [hclear]; exact hdisk, by rw [hclear]; exact hblocks, fun hp => ?_,
    fun hp => ?_, fun hquiet => ?_, fun _ pa' ht' => ?_⟩
  · by_cases hsrc : src = .disk
    · subst hsrc
      exact .inr ⟨rfl, trapState_holdsIp (n := 2)⟩
    · exact .inl (by rw [hlatch, if_neg hsrc]; exact hpending.trans hp)
  · rw [hlatch] at hp
    split at hp
    · cases hp
    · exact hpending.symm.trans hp
  · rw [hmode, huser] at hquiet
    cases hquiet
  · obtain rfl : pa = pa' := Except.ok.inj (ht.symm.trans ht')
    rw [hclear]
    exact hmem

theorem deliverInterrupt_diskDelivered {s : State} (hrun : (deliverInterrupt s).status = .running) :
    DiskDelivered s (deliverInterrupt s) := by
  obtain h | ⟨src, pa, huser, ht, hpa, h⟩ := deliverInterrupt_running hrun <;> rw [h]
  · exact diskDelivered_refl s
  · exact diskDelivered_entry huser ht hpa

/-- The two other ticks make no difference to the disk's side, nor to where the interrupt pushes. -/
theorem SameDiskSide.delivered {s u t : State} (h : SameDiskSide s u) (k : DiskDelivered u t) : DiskDelivered s t := by
  obtain ⟨hcfg, hmem, hmode, hdisk, hpending, hblocks, hregs⟩ := h
  have hsp : u.xi .sp = s.xi .sp := congrArg asInteger (hregs .sp (by decide))
  have htrans : translateAddr .user (u.xi .sp + 1) true u = translateAddr .user (s.xi .sp + 1) true s := by
    rw [hsp]
    exact translate_congr hcfg hmem (hregs .ptbr (by decide)) (hregs .ptlr (by decide))
  refine ⟨k.disk.trans hdisk, k.blocks.trans hblocks, fun hp => k.pending (hpending.trans hp),
    fun hp => hpending.symm.trans (k.latch hp), fun hq => (k.quiet (hq.trans hmode.symm)).trans hmem,
    fun hne pa hpa a ha => ?_⟩
  rw [k.entered (hmode ▸ hne) pa (htrans.trans hpa) a ha, hmem]

/-! ### The pending request along a cycle (R246, R301) -/

/-- A cycle that leaves the machine running: Execute keeps the disk's side, the disk ticks unless the request is this
cycle's own, an interrupt may be delivered. -/
theorem step_disk {s t : State} (h : step s = .next t) (hrun : t.status = .running) :
    ∃ before after, CycleBody s before after ∧ KeepsDisk s after ∧
      DiskDelivered (if issuedDisk s after then after else diskTick after) t := by
  obtain ⟨before, after, hbody, rfl⟩ := step_running h hrun
  obtain ⟨u, hside, hpost⟩ := postExecute_sameDiskSide (issuedDisk s after) (issuedConsole s after) after
  rw [hpost] at hrun ⊢
  exact ⟨before, after, hbody, hbody.keepsDisk, hside.delivered (deliverInterrupt_diskDelivered hrun)⟩

section
variable {s after : State}

/-- A cycle that begins with the disk idle has no tick of the disk, or one that does nothing. -/
theorem ticked_of_idle (h : s.disk = none) : (if issuedDisk s after then after else diskTick after) = after := by
  cases hafter : after.disk with
  | none => rw [diskTick_idle hafter, ite_self]
  | some r => exact if_pos (by simp [issuedDisk, h, hafter])

theorem ticked_of_busy {r : DiskRequest} (h : s.disk = some r) :
    (if issuedDisk s after then after else diskTick after) = diskTick after :=
  if_neg (by simp [issuedDisk, h])

end

/-- What a completed Store leaves: the block is the page as Execute left it. -/
theorem DiskDelivered.of_store {r : DiskRequest} {u t : State} (hop : r.op = .store)
    (h : DiskDelivered { transfer r u with disk := none, diskPending := true } t) :
    t.blocks = (writeBlock r.page r.block u).blocks ∧ ∀ i, i < u.cfg.pageSize →
      t.blocks.read (r.block * u.cfg.pageSize + i) = u.mem.read (r.page * u.cfg.pageSize + i) := by
  rw [transfer_store hop] at h
  have hblocks : t.blocks = (writeBlock r.page r.block u).blocks := h.blocks
  refine ⟨hblocks, fun i hi => ?_⟩
  rw [hblocks, writeBlock_read_inside hi]

/-- What a completed Load leaves: the page is the block, but for the Word that an interrupt pushes. -/
theorem DiskDelivered.of_load {r : DiskRequest} {u t : State} (hop : r.op = .load)
    (h : DiskDelivered { transfer r u with disk := none, diskPending := true } t) :
    t.blocks = u.blocks ∧
    (t.mode = u.mode → t.mem = (readBlock r.page r.block u).mem ∧ ∀ i, i < u.cfg.pageSize →
      t.mem.read (r.page * u.cfg.pageSize + i) = u.blocks.read (r.block * u.cfg.pageSize + i)) ∧
    (t.mode ≠ u.mode → ∀ pa, translateAddr .user (u.xi .sp + 1) true (readBlock r.page r.block u) = .ok pa →
      SameMemoryBut pa (readBlock r.page r.block u) t) := by
  rw [transfer_load hop] at h
  refine ⟨h.blocks, fun hquiet => ?_, fun hne pa hpa => ?_⟩
  · have hmem : t.mem = (readBlock r.page r.block u).mem := h.quiet hquiet
    exact ⟨hmem, fun i hi => by rw [hmem, readBlock_read_inside hi]⟩
  · exact h.entered hne pa ((translate_congr rfl rfl rfl rfl).trans hpa)

/-- Settles O47: the disk's tick is none for a disk that was idle; of a busy one it is one of its two equations, from
which the interrupt takes nothing but a pushed Word and its own latch. -/
theorem everyCycleCountsThePendingDiskRequest : Obligations.EveryCycleCountsThePendingDiskRequest := by
  unfold Obligations.EveryCycleCountsThePendingDiskRequest
  intro s t hstep hrun
  obtain ⟨before, after, hbody, ⟨hcfg, hblocks, hpending, hbusy⟩, hend⟩ := step_disk hstep hrun
  have hinterrupted (h : DiskInterrupted t) :
      t.diskPending = true ∨ t.mode = .kernel ∧ HoldsInt t .ip (8 * s.cfg.pageSize) := by
    obtain ⟨hkept, -⟩ := (step_updates hstep).platformGrows
    rwa [DiskInterrupted, hkept] at h
  refine ⟨fun hp => hinterrupted (hend.pending ?_), before, after, hbody, fun hidle => ?_, fun r hr => ?_⟩
  · split
    · exact hpending.trans hp
    · exact diskTick_keepsLatch (hpending.trans hp)
  · rw [ticked_of_idle hidle] at hend
    exact ⟨hend.disk, hend.blocks.trans hblocks, fun hp => hpending.symm.trans (hend.latch hp)⟩
  · rw [ticked_of_busy hr] at hend
    refine ⟨hbusy r hr, fun hpos => ?_, fun hzero => ?_⟩
    · rw [diskTick_countdown (hbusy r hr) hpos] at hend
      exact ⟨hend.disk, hend.blocks.trans hblocks⟩
    · rw [diskTick_complete (hbusy r hr) hzero] at hend
      rw [← hcfg] at hinterrupted
      rw [← hcfg, ← hblocks]
      exact ⟨hend.disk, hinterrupted (hend.pending rfl), fun hop => hend.of_store hop, fun hop => hend.of_load hop⟩

end Sys2Proof.Machine
end

section
/-! PROOFS of spec/48_misc.md: ENCRYPT, the console's instructions, its ticks, and a pending request along a cycle. The
console ticks last, so a cycle that leaves the machine running is Execute, which keeps the pending request
(`KeepsConsole`), the two other ticks, which leave the console's side alone (`SameConsoleSide`), the console's own tick,
and the delivery of an interrupt (`InterruptTaken`, which the timer's proofs use as well). -/

namespace Sys2Proof.Machine

/-- Settles O53: the transform's text is cut to a legal Word, and its one argument besides the capacity is the Word. -/
theorem encryptWritesALegalWord : Obligations.EncryptWritesALegalWord := by
  unfold Obligations.EncryptWritesALegalWord
  intro s s' ra ra' hcfg hword
  refine ⟨_, _, rfl, rfl, ?_, ?_, setReg_onlyRegs s ra _⟩
  · rw [reg_setReg_same]
    exact encrypt_legal _ _
  · rw [reg_setReg_same, reg_setReg_same, hcfg, hword]

/-! ### The console's instructions (R257 to R260) -/

theorem issueConsole_idle {s : State} (h : s.console = none) (op : ConsoleOp) :
    issueConsole op s = { s with console := some ⟨s.cfg.consoleLatency, op⟩ } := by
  simp only [issueConsole, h]

theorem issueConsole_busy {s : State} (h : s.console ≠ none) (op : ConsoleOp) : issueConsole op s = s := by
  obtain ⟨r, hr⟩ := Option.ne_none_iff_exists'.mp h
  simp only [issueConsole, hr]

theorem nextLine_supplied {s : State} {line : Text} (h : s.consoleIn[s.consoleInPos]? = some line) :
    nextLine s = line := by
  simp only [nextLine, h]

/-- The reader takes a line that holds no 0x00 byte as it is, up to the capacity of a Word. -/
theorem consoleWord_text_of_no_zero {cap : Nat} {line : Text} (h : ∀ c ∈ line, 1 ≤ c.toNat) :
    (consoleWord cap line).text = line.take cap :=
  List.filter_eq_self.mpr fun c hc => decide_eq_true (Nat.pos_iff_ne_zero.mp (h c (List.mem_of_mem_take hc)))

theorem readConsole_p0 (s : State) : (readConsole s).reg (.p 0) = consoleWord s.cfg.wordCap (nextLine s) :=
  (reg_readConsole s _).trans (if_pos rfl)

theorem readConsole_sameRegsBut (s : State) : SameRegsBut [.p 0] s (readConsole s) :=
  fun q hq => (reg_readConsole s q).trans (if_neg (List.ne_of_not_mem_cons hq))

/-- Settles O54: IN and OUT are one request, INI one read of the console; BRKP's hook is the identity. -/
theorem consoleBreakpointAndHalt : Obligations.ConsoleBreakpointAndHalt := by
  unfold Obligations.ConsoleBreakpointAndHalt
  intro s
  refine ⟨fun hidle => ?idle, fun hbusy => ?busy, ⟨fun _ => nextLine_supplied, fun _ => rfl⟩, ?ini, ?brkp, rfl⟩
  case idle =>
    exact ⟨congrArg Host.Outcome.next (issueConsole_idle hidle _),
      congrArg Host.Outcome.next (issueConsole_idle hidle _)⟩
  case busy =>
    exact ⟨congrArg Host.Outcome.next (issueConsole_busy hbusy _),
      congrArg Host.Outcome.next (issueConsole_busy hbusy _)⟩
  case ini =>
    refine ⟨readConsole s, rfl, rfl, rfl, readConsole_p0 s, fun line hline hbytes => ?_, readConsole_sameRegsBut s,
      fun _ => rfl, rfl, rfl, rfl, rfl, rfl, rfl, rfl, rfl, rfl, rfl, rfl⟩
    rw [readConsole_p0, nextLine_supplied hline]
    exact consoleWord_text_of_no_zero hbytes
  case brkp => exact congrArg Host.Outcome.next (callDebugHook_eq _ s)

/-! ### The tick of the console (R302) -/

theorem consoleTick_idle {s : State} (h : s.console = none) : consoleTick s = s := by
  simp only [consoleTick, h]

section
variable {s : State} {r : ConsoleRequest}

theorem consoleTick_countdown (h : s.console = some r) (hr : 0 < r.remaining) :
    consoleTick s = { s with console := some { r with remaining := r.remaining - 1 } } := by
  simp only [consoleTick, h, gt_iff_lt, if_pos hr]

theorem consoleTick_complete (h : s.console = some r) (hr : r.remaining = 0) :
    consoleTick s = { consoleTransfer r.op s with console := none, consolePending := true } := by
  simp only [consoleTick, h, gt_iff_lt, hr, lt_irrefl, if_false]

theorem consoleTick_keepsLatch (h : s.consolePending = true) : (consoleTick s).consolePending = true := by
  obtain ⟨-, hs⟩ | ⟨r, -, -, hs⟩ | ⟨r, -, -, hs⟩ := consoleTick_cases s <;> rw [hs]
  · exact h
  · exact h

end

/-- A pending request counts its own ticks. -/
theorem repeatTick_consoleTick {s : State} {r : ConsoleRequest} (h : s.console = some r) : ∀ n ≤ r.remaining,
    repeatTick consoleTick n s = { s with console := some { r with remaining := r.remaining - n } }
  | 0, _ => by rw [repeatTick, Nat.sub_zero, ← h]
  | n + 1, hn => by
    rw [repeatTick, repeatTick_consoleTick h n (by omega), consoleTick_countdown rfl (Nat.sub_pos_of_lt hn)]
    rfl

/-! ### The delivery of an interrupt, seen from its latch (R303 to R305) -/

/-- The latch of a source (R52). -/
def Source.latch : Source → State → Bool
  | .timer, s => s.timerPending
  | .disk, s => s.diskPending
  | .console, s => s.consolePending

/-- Delivery clears the latch of its own number alone (R305). -/
theorem latch_clearLatch (q src : Source) (s : State) :
    q.latch (clearLatch src s) = if src.number = q.number then false else q.latch s := by
  cases q <;> cases src <;> rfl

/-- What the delivery of an interrupt leaves alone: all but SP, IP, the mode, the Word pushed, the latches and, when its
push fails, the run status. -/
structure InterruptFrame (s t : State) : Prop where
  cfg : t.cfg = s.cfg
  timer : t.timer = s.timer
  disk : t.disk = s.disk
  console : t.console = s.console
  blocks : t.blocks = s.blocks
  consoleIn : t.consoleIn = s.consoleIn
  consoleInPos : t.consoleInPos = s.consoleInPos
  consoleOut : t.consoleOut = s.consoleOut
  regs : SameRegsBut [.sp, .ip] s t

theorem InterruptFrame.refl (s : State) : InterruptFrame s s := ⟨rfl, rfl, rfl, rfl, rfl, rfl, rfl, rfl, fun _ _ => rfl⟩

section
variable {s : State} {src : Source} {n : Nat} {pa : Int}

theorem interruptFrame_entry (hpa : 0 ≤ pa) : InterruptFrame s (clearLatch src (trapState n pa s)) := by
  obtain ⟨hregs, -, ⟨hcfg, htimer, hdisk, hconsole, -, -, -, hblocks, hin, hpos, hout⟩, -, -⟩ :=
    trapState_frame (n := n) (s := s) hpa
  obtain ⟨_, _, _, hclear⟩ := clearLatch_frame src (trapState n pa s)
  rw [hclear]
  exact ⟨hcfg, htimer, hdisk, hconsole, hblocks, hin, hpos, hout, hregs⟩

theorem latch_entry (q : Source) :
    q.latch (clearLatch src (trapState n pa s)) = if src.number = q.number then false else q.latch s := by
  rw [latch_clearLatch]
  cases q <;> rfl

theorem entry_mode : (clearLatch src (trapState n pa s)).mode = .kernel := by
  cases src <;> rfl

theorem entry_holdsIp : HoldsInt (clearLatch src (trapState n pa s)) .ip ((2 * n + 4) * s.cfg.pageSize) := by
  obtain ⟨_, _, _, hclear⟩ := clearLatch_frame src (trapState n pa s)
  rw [hclear]
  exact trapState_holdsIp

end

/-- The interrupt of a source is latched, or its handler has just been entered. -/
def Source.Interrupted (src : Source) (t : State) : Prop :=
  src.latch t = true ∨ t.mode = .kernel ∧ HoldsInt t .ip ((2 * src.number + 4) * t.cfg.pageSize)

/-- What the delivery of an interrupt, whichever it is, does to the state `s` of the ticks if the machine still runs: no
interrupt is lost and none is latched anew. -/
structure InterruptTaken (s t : State) : Prop extends InterruptFrame s t where
  taken : ∀ q : Source, q.latch s = true → q.Interrupted t
  latched : ∀ q : Source, q.latch t = true → q.latch s = true

theorem deliverInterrupt_taken {s : State} (hrun : (deliverInterrupt s).status = .running) :
    InterruptTaken s (deliverInterrupt s) := by
  obtain h | ⟨src, pa, -, -, hpa, h⟩ := deliverInterrupt_running hrun <;> rw [h]
  · exact { InterruptFrame.refl s with taken := fun _ => .inl, latched := fun _ => id }
  · have hframe := interruptFrame_entry (s := s) (src := src) (n := src.number) hpa.1
    refine { hframe with taken := fun q hq => ?_, latched := fun q hq => ?_ }
    · by_cases hnumber : src.number = q.number
      · exact .inr ⟨entry_mode, by rw [hframe.cfg, ← hnumber]; exact entry_holdsIp⟩
      · exact .inl (by rw [latch_entry, if_neg hnumber, hq])
    · rw [latch_entry] at hq
      split at hq
      · cases hq
      · exact hq

/-! ### The console's side of a cycle (R299) -/

/-- What Execute leaves of the console's side: a pending request, the Words printed, the latch. -/
structure KeepsConsole (s t : State) : Prop where
  cfg : t.cfg = s.cfg
  consoleOut : t.consoleOut = s.consoleOut
  consolePending : t.consolePending = s.consolePending
  busy : ∀ r, s.console = some r → t.console = some r

theorem KeepsConsole.trans {s t u : State} (h : KeepsConsole s t) (k : KeepsConsole t u) : KeepsConsole s u :=
  ⟨k.cfg.trans h.cfg, k.consoleOut.trans h.consoleOut, k.consolePending.trans h.consolePending,
    fun r hr => k.busy r (h.busy r hr)⟩

/-- A second request to the console is dropped (R260); INI takes a line and prints nothing. -/
theorem DeviceEffect.keepsConsole {s t : State} (h : DeviceEffect s t) : KeepsConsole s t := by
  cases h with
  | none h =>
    obtain ⟨hcfg, -, -, hconsole, -, -, hpending, -, -, -, hout⟩ := h
    exact ⟨hcfg, hout, hpending, fun r hr => hconsole.trans hr⟩
  | disk op p b =>
    obtain ⟨-, h⟩ | ⟨-, h⟩ := issueDisk_cases op p b s <;> rw [h] <;> exact ⟨rfl, rfl, rfl, fun _ => id⟩
  | console op =>
    obtain ⟨-, h⟩ | ⟨hidle, h⟩ := issueConsole_cases op s <;> rw [h]
    · exact ⟨rfl, rfl, rfl, fun _ => id⟩
    · exact ⟨rfl, rfl, rfl, fun r hr => absurd (hidle ▸ hr) nofun⟩
  | line => exact ⟨rfl, rfl, rfl, fun _ => id⟩

theorem CycleBody.keepsConsole {s before after : State} (h : CycleBody s before after) : KeepsConsole s after :=
  (DeviceEffect.none h.begins).keepsConsole.trans h.deviceEffect.keepsConsole

/-- What the ticks of the timer and the disk leave alone. -/
structure SameConsoleSide (s t : State) : Prop where
  cfg : t.cfg = s.cfg
  console : t.console = s.console
  consolePending : t.consolePending = s.consolePending
  consoleIn : t.consoleIn = s.consoleIn
  consoleInPos : t.consoleInPos = s.consoleInPos
  consoleOut : t.consoleOut = s.consoleOut
  regs : ∀ r, t.reg r = s.reg r

theorem SameConsoleSide.refl (s : State) : SameConsoleSide s s := ⟨rfl, rfl, rfl, rfl, rfl, rfl, fun _ => rfl⟩

theorem SameConsoleSide.trans {s t u : State} (h : SameConsoleSide s t) (k : SameConsoleSide t u) :
    SameConsoleSide s u :=
  ⟨k.cfg.trans h.cfg, k.console.trans h.console, k.consolePending.trans h.consolePending,
    k.consoleIn.trans h.consoleIn, k.consoleInPos.trans h.consoleInPos, k.consoleOut.trans h.consoleOut,
    fun r => (k.regs r).trans (h.regs r)⟩

/-- The line a completed Read takes is the one that Execute left next. -/
theorem SameConsoleSide.nextLine {s t : State} (h : SameConsoleSide s t) :
    Machine.nextLine t = Machine.nextLine s := by
  simp only [Machine.nextLine, h.consoleIn, h.consoleInPos]

theorem timerTick_frame (s : State) : ∃ timer pending,
    timerTick s = { s with timer := timer, timerPending := pending } := by
  obtain ⟨-, h⟩ | ⟨-, -, h⟩ | ⟨-, -, h⟩ := timerTick_cases s <;> exact ⟨_, _, h⟩

/-- A transfer between memory and the block store writes one of the two. -/
theorem diskTick_frame (s : State) : ∃ mem blocks disk pending,
    diskTick s = { s with mem := mem, blocks := blocks, disk := disk, diskPending := pending } := by
  obtain ⟨-, h⟩ | ⟨r, -, -, h⟩ | ⟨r, -, -, h⟩ := diskTick_cases s
  · exact ⟨_, _, _, _, h⟩
  · exact ⟨_, _, _, _, h⟩
  · cases hop : r.op with
    | load => rw [transfer_load hop] at h; exact ⟨_, _, _, _, h⟩
    | store => rw [transfer_store hop] at h; exact ⟨_, _, _, _, h⟩

theorem timerTick_sameConsoleSide (s : State) : SameConsoleSide s (timerTick s) := by
  obtain ⟨_, _, h⟩ := timerTick_frame s
  rw [h]
  exact ⟨rfl, rfl, rfl, rfl, rfl, rfl, fun _ => rfl⟩

theorem diskTick_sameConsoleSide (s : State) : SameConsoleSide s (diskTick s) := by
  obtain ⟨_, _, _, _, h⟩ := diskTick_frame s
  rw [h]
  exact ⟨rfl, rfl, rfl, rfl, rfl, rfl, fun _ => rfl⟩

/-- The post-execute phase is, on the console's side, the console's tick, if it is not skipped, and the delivery of an
interrupt. -/
theorem postExecute_sameConsoleSide (d c : Bool) (s : State) :
    ∃ u, SameConsoleSide s u ∧ postExecute d c s = deliverInterrupt (if c then u else consoleTick u) := by
  refine ⟨if d then timerTick s else diskTick (timerTick s), (timerTick_sameConsoleSide s).trans ?_, rfl⟩
  split
  · exact .refl _
  · exact diskTick_sameConsoleSide _

/-! ### The pending request along a cycle (R260, R302) -/

/-- A cycle that leaves the machine running, seen from the console: `ticked` is the state in which the console's turn
comes. -/
theorem step_console {s t : State} (h : step s = .next t) (hrun : t.status = .running) :
    ∃ before after ticked, CycleBody s before after ∧ KeepsConsole s after ∧ SameConsoleSide after ticked ∧
      InterruptTaken (if issuedConsole s after then ticked else consoleTick ticked) t := by
  obtain ⟨before, after, hbody, rfl⟩ := step_running h hrun
  obtain ⟨ticked, hside, hpost⟩ := postExecute_sameConsoleSide (issuedDisk s after) (issuedConsole s after) after
  rw [hpost] at hrun ⊢
  exact ⟨before, after, ticked, hbody, hbody.keepsConsole, hside, deliverInterrupt_taken hrun⟩

section
variable {s after ticked : State}

/-- A cycle that begins with the console idle has no tick of the console, or one that does nothing. -/
theorem consoleTicked_of_idle (h : s.console = none) (hside : SameConsoleSide after ticked) :
    (if issuedConsole s after then ticked else consoleTick ticked) = ticked := by
  cases hafter : after.console with
  | none => rw [consoleTick_idle (hside.console.trans hafter), ite_self]
  | some r => exact if_pos (by simp [issuedConsole, h, hafter])

theorem consoleTicked_of_busy {r : ConsoleRequest} (h : s.console = some r) :
    (if issuedConsole s after then ticked else consoleTick ticked) = consoleTick ticked :=
  if_neg (by simp [issuedConsole, h])

end

theorem InterruptTaken.p0 {s t : State} (h : InterruptTaken s t) : t.reg (.p 0) = s.reg (.p 0) :=
  h.regs _ (by decide)

/-- Settles O49: the console's tick is none for a console that was idle; of a busy one it is one of its two equations,
from which the interrupt takes nothing but its own latch. -/
theorem consoleRequestCompletesAfterItsLatency : Obligations.ConsoleRequestCompletesAfterItsLatency := by
  unfold Obligations.ConsoleRequestCompletesAfterItsLatency
  refine ⟨fun s => consoleTick_idle, fun s r hr => ⟨consoleTick_countdown hr, fun hzero => ?complete⟩,
    fun s op hidle => ?latency, fun s t hstep hrun => ?cycle⟩
  case complete =>
    rw [consoleTick_complete hr hzero]
    cases r.op <;> rfl
  case latency =>
    rw [issueConsole_idle hidle]
    have hcount := repeatTick_consoleTick (s := { s with console := some ⟨s.cfg.consoleLatency, op⟩ }) rfl
    refine ⟨hcount, ?_⟩
    rw [repeatTick, hcount _ le_rfl, consoleTick_complete rfl (Nat.sub_self _)]
    cases op <;> rfl
  case cycle =>
    obtain ⟨before, after, ticked, hbody, hkept, hside, hend⟩ := step_console hstep hrun
    have hcfg : ticked.cfg = s.cfg := hside.cfg.trans hkept.cfg
    have hout : ticked.consoleOut = s.consoleOut := hside.consoleOut.trans hkept.consoleOut
    have hpending : ticked.consolePending = s.consolePending := hside.consolePending.trans hkept.consolePending
    have hinterrupted (h : Source.console.Interrupted t) :
        t.consolePending = true ∨ t.mode = .kernel ∧ HoldsInt t .ip (10 * s.cfg.pageSize) := by
      obtain ⟨hsame, -⟩ := (step_updates hstep).platformGrows
      exact hsame ▸ h
    refine ⟨fun hp => hinterrupted (hend.taken .console ?pending), before, after, hbody, fun hidle => ?idle,
      fun r hr => ⟨hkept.busy r hr, ?busy⟩⟩
    case pending =>
      split
      · exact hpending.trans hp
      · exact consoleTick_keepsLatch (hpending.trans hp)
    case idle =>
      rw [consoleTicked_of_idle hidle hside] at hend
      exact ⟨hend.console.trans hside.console, hend.consoleOut.trans hout, hend.consoleInPos.trans hside.consoleInPos,
        hend.p0.trans (hside.regs _), fun hp => hpending.symm.trans (hend.latched .console hp)⟩
    case busy =>
      have hrequest : ticked.console = some r := hside.console.trans (hkept.busy r hr)
      rw [consoleTicked_of_busy hr] at hend
      refine ⟨fun hpos => ?countdown, fun hzero => ?complete⟩
      case countdown =>
        rw [consoleTick_countdown hrequest hpos] at hend
        exact ⟨hend.console, hend.consoleOut.trans hout, hend.consoleInPos.trans hside.consoleInPos,
          hend.p0.trans (hside.regs _)⟩
      case complete =>
        rw [consoleTick_complete hrequest hzero] at hend
        refine ⟨hend.console, hinterrupted (hend.taken .console rfl), fun hop => ?_, fun w hop => ?_⟩ <;>
          rw [hop] at hend
        · have hword := readConsole_p0 ticked
          rw [hcfg, hside.nextLine] at hword
          exact ⟨hend.p0.trans hword, hend.consoleInPos.trans (congrArg (· + 1) hside.consoleInPos),
            hend.consoleOut.trans hout⟩
        · exact ⟨hend.consoleOut.trans (congrArg (· ++ [w]) hout), hend.consoleInPos.trans hside.consoleInPos,
            hend.p0.trans (hside.regs _)⟩

end Sys2Proof.Machine
end

section
/-! PROOFS of spec/60_exceptions.md: the kinds of faults, their delivery, the changes of mode, the timer, and the order
of interrupts. First the layer they share: the exception registers, and a push of User mode that fails. -/

namespace Sys2Proof.Machine

/-- Settles O35: the two tables, row by row. -/
theorem causeCodes : Obligations.CauseCodes := by
  unfold Obligations.CauseCodes
  exact ⟨⟨rfl, rfl, fun _ => rfl, fun _ => rfl, fun _ _ => rfl, fun _ _ => rfl, rfl, fun _ => rfl⟩,
    rfl, rfl, rfl, rfl, rfl, rfl, rfl, rfl⟩

/-! ### The clamp (R279) -/

section
variable {c : Config} {v : Int}

theorem clampInt_of_fits (h : Fits c v) : clampInt c v = v := by
  rw [clampInt, min_eq_right h.2, max_eq_right h.1]

theorem clampInt_of_lt (h : v < c.intMin) : clampInt c v = c.intMin :=
  max_eq_left ((min_le_right _ _).trans h.le)

theorem clampInt_of_gt (h : c.intMax < v) : clampInt c v = c.intMax := by
  have horder := (intMin_nonpos c).trans (intMax_nonneg c)
  rw [clampInt, min_eq_left h.le, max_eq_right horder]

/-- A Word holds every digit, so every cause code. -/
theorem causeCode_fits (hc : 2 ≤ c.wordSize) (k : FaultKind) : Fits c (causeCode k) := by
  have hlength : (renderInt (causeCode k)).length = 1 := by cases k <;> rfl
  exact (renderInt_length_le hc _).mp (by unfold Config.wordCap; omega)

end

/-! ### The exception registers (R280) -/

/-- EPN and EMA in `t` as R280's table writes them over those of `s`. -/
def PageInfoWritten (e : Exn) (s t : State) : Prop :=
  match e with
  | .pageFault va page => HoldsInt t .epn (clampInt s.cfg page) ∧ HoldsInt t .ema (clampInt s.cfg va)
  | .memoryProtectionFault va page => HoldsInt t .epn (clampInt s.cfg page) ∧ HoldsInt t .ema (clampInt s.cfg va)
  | .outOfRange addr => t.reg .epn = s.reg .epn ∧ HoldsInt t .ema (clampInt s.cfg addr)
  | _ => t.reg .epn = s.reg .epn ∧ t.reg .ema = s.reg .ema

/-- The exception registers in `t` as the delivery of `e` writes them over those of `s`. -/
structure FaultRecorded (e : Exn) (ia : Int) (s t : State) : Prop where
  eip : HoldsInt t .eip (clampInt s.cfg ia)
  ec : HoldsInt t .ec (clampInt s.cfg (causeCode e.kind))
  pageInfo : PageInfoWritten e s t

section
variable {e : Exn} {ia : Int} {s t : State}

theorem writeExceptionRegs_eip : (writeExceptionRegs e ia s).reg .eip = integerWord (clampInt s.cfg ia) := by
  cases e <;> simp [writeExceptionRegs, reg_putClamped]

theorem writeExceptionRegs_ec :
    (writeExceptionRegs e ia s).reg .ec = integerWord (clampInt s.cfg (causeCode e.kind)) := by
  cases e <;> simp [writeExceptionRegs, reg_putClamped]

theorem writeExceptionRegs_pageInfo : PageInfoWritten e s (writeExceptionRegs e ia s) := by
  cases e <;> simp [PageInfoWritten, writeExceptionRegs, reg_putClamped, holdsInt_iff]

theorem PageInfoWritten.congr {u : State} (h : PageInfoWritten e s u) (hepn : t.reg .epn = u.reg .epn)
    (hema : t.reg .ema = u.reg .ema) : PageInfoWritten e s t := by
  cases e <;> simpa only [PageInfoWritten, holdsInt_iff, hepn, hema] using h

/-- What is written after the exception registers is not one of them. -/
theorem faultRecorded_of_sameRegsBut {rs : List Reg} (hsame : SameRegsBut rs (writeExceptionRegs e ia s) t)
    (hrs : ∀ r ∈ [Reg.eip, .ec, .epn, .ema], r ∉ rs) : FaultRecorded e ia s t where
  eip := holdsInt_iff.mpr ((hsame _ (hrs _ (by decide))).trans writeExceptionRegs_eip)
  ec := holdsInt_iff.mpr ((hsame _ (hrs _ (by decide))).trans writeExceptionRegs_ec)
  pageInfo := writeExceptionRegs_pageInfo.congr (hsame _ (hrs _ (by decide))) (hsame _ (hrs _ (by decide)))

theorem FaultRecorded.eip_of_fits (h : FaultRecorded e ia s t) (hia : Fits s.cfg ia) : HoldsInt t .eip ia := by
  simpa only [clampInt_of_fits hia] using h.eip

theorem FaultRecorded.ec_of_wordSize (h : FaultRecorded e ia s t) (hc : 2 ≤ s.cfg.wordSize) :
    HoldsInt t .ec (causeCode e.kind) := by
  simpa only [clampInt_of_fits (causeCode_fits hc _)] using h.ec

theorem writeExceptionRegs_status (e : Exn) (ia : Int) (s : State) : (writeExceptionRegs e ia s).status = s.status := by
  obtain ⟨_, h⟩ := writeExceptionRegs_frame e ia s
  rw [h]

theorem writeExceptionRegs_sameDevices (e : Exn) (ia : Int) (s : State) :
    SameDevices s (writeExceptionRegs e ia s) := by
  obtain ⟨_, h⟩ := writeExceptionRegs_frame e ia s
  rw [h]
  exact sameDevices_of_writes ..

/-- The exception registers are none of those a push looks at. -/
theorem writeExceptionRegs_sameStackView (e : Exn) (ia : Int) (s : State) :
    SameStackView (writeExceptionRegs e ia s) s := by
  have hreg {r : Reg} := writeExceptionRegs_reg e ia s (r := r)
  have hsp : (writeExceptionRegs e ia s).xi .sp = s.xi .sp := congrArg asInteger (hreg (by decide))
  have hptbr := hreg (r := .ptbr) (by decide)
  have hptlr := hreg (r := .ptlr) (by decide)
  obtain ⟨_, h⟩ := writeExceptionRegs_frame e ia s
  rw [h] at hsp hptbr hptlr ⊢
  exact ⟨rfl, rfl, rfl, hsp, hptbr, hptlr⟩

end

/-! ### The stack of User mode -/

section
variable {u s : State}

theorem SameStackView.translate (h : SameStackView u s) (m : Mode) (va : Int) (forWrite : Bool) :
    translateAddr m va forWrite u = translateAddr m va forWrite s :=
  translate_congr h.cfg h.mem h.ptbr h.ptlr

theorem SameStackView.inMemory_iff (h : SameStackView u s) (pa : Int) : u.inMemory pa ↔ s.inMemory pa := by
  rw [State.inMemory, h.cfg]

theorem SameStackView.pushFails (h : SameStackView u s) (hs : PushFails s) : PushFails u := by
  simpa only [PushFails, h.translate, h.inMemory_iff, h.cfg, h.sp] using hs

/-- The three ways to fail are a push's own fault each. -/
theorem pushWord_of_pushFails (huser : s.mode = .user) (h : PushFails s) (w : Word) :
    ∃ e, pushWord w s = .error e := by
  unfold PushFails at h
  rw [← huser] at h
  obtain ⟨e, ht⟩ | ⟨pa, ht, hp⟩ | ⟨pa, ht, hp, hnone⟩ := h
  · exact ⟨e, pushWord_untranslated ht⟩
  · exact ⟨_, pushWord_outside ht hp⟩
  · exact ⟨.wordOverflow (s.xi .sp + 1), by simp only [pushWord, memWrite_of ht hp, setInt, hnone]⟩

theorem trapEntry_of_pushFails (huser : s.mode = .user) (h : PushFails s) (n : Nat) :
    ∃ e, trapEntry n s = .error e := by
  obtain ⟨e, he⟩ := pushWord_of_pushFails huser h (s.reg .ip)
  exact ⟨e, trapEntry_of_pushFault he⟩

end

/-! ### The delivery of a fault from User mode (R279, R280, R282) -/

section
variable {e : Exn} {ia pa : Int} {s : State}

theorem deliverFault_entered (hv : s.cfg.Valid) (huser : s.mode = .user)
    (ht : translateAddr .user (s.xi .sp + 1) true s = .ok pa) (hp : s.inMemory pa) (hf : Fits s.cfg (s.xi .sp + 1)) :
    deliverFault e ia s = trapState 0 pa (writeExceptionRegs e ia s) := by
  have hview := writeExceptionRegs_sameStackView e ia s
  have hentry : trapEntry Config.exceptionNumber (writeExceptionRegs e ia s) =
      .ok (trapState 0 pa (writeExceptionRegs e ia s)) := by
    refine trapEntry_eq_trapState (hview.cfg ▸ hv) (by decide) ?_ ((hview.inMemory_iff pa).mpr hp) ?_
    · rw [hview.mode, huser, hview.sp, hview.translate, ht]
    · rw [hview.cfg, hview.sp]
      exact hf
  simp only [deliverFault, huser, hentry]

theorem deliverFault_doubleFault (huser : s.mode = .user) (h : PushFails s) :
    deliverFault e ia s = crash .doubleFault (writeExceptionRegs e ia s) := by
  have hview := writeExceptionRegs_sameStackView e ia s
  obtain ⟨_, hentry⟩ :=
    trapEntry_of_pushFails (hview.mode.trans huser) (hview.pushFails h) Config.exceptionNumber
  simp only [deliverFault, huser, hentry]

end

/-- Settles O37: the trap entry with number 0, made after the exception registers are written. -/
theorem userFaultTraps : Obligations.UserFaultTraps := by
  unfold Obligations.UserFaultTraps
  refine ⟨fun c v => ⟨clampInt_of_fits, clampInt_of_lt, clampInt_of_gt⟩, fun s e ia pa hv huser hia ht hp hf => ?_⟩
  have ⟨hc, _⟩ := hv
  have hwrites : Updates (· ∈ trapWrites) True s (deliverFault e ia s) := deliverFault_updates (fun _ => id) e ia
  have hview := writeExceptionRegs_sameStackView e ia s
  obtain ⟨hregs, hmem, hdev, -, hstatus⟩ := trapState_frame (n := 0) (s := writeExceptionRegs e ia s) hp.1
  have hrecorded : FaultRecorded e ia s (trapState 0 pa (writeExceptionRegs e ia s)) :=
    faultRecorded_of_sameRegsBut hregs (by decide)
  rw [deliverFault_entered hv huser ht hp hf] at hwrites ⊢
  exact ⟨rfl, hview.cfg ▸ trapState_holdsIp, hview.sp ▸ trapState_holdsSp,
    trapState_read.trans (writeExceptionRegs_reg e ia s (by decide)),
    fun a ha => (hmem a ha).trans (congrArg (Memory.read · a) hview.mem),
    (writeExceptionRegs_sameDevices e ia s).trans hdev, hstatus.trans (writeExceptionRegs_status e ia s),
    hrecorded.eip_of_fits hia, hrecorded.ec_of_wordSize hc, hrecorded.pageInfo, hwrites.sameRegsBut⟩

/-- Settles O38: the failed entry leaves the state of the exception registers, crashed. -/
theorem failedTrapEntryIsADoubleFault : Obligations.FailedTrapEntryIsADoubleFault := by
  unfold Obligations.FailedTrapEntryIsADoubleFault
  intro s e ia huser hfails
  rw [deliverFault_doubleFault huser hfails]
  have hview := writeExceptionRegs_sameStackView e ia s
  have hrecorded : FaultRecorded e ia s (crash .doubleFault (writeExceptionRegs e ia s)) :=
    faultRecorded_of_sameRegsBut (rs := []) (fun _ _ => rfl) (by decide)
  exact ⟨rfl, hview.mode.trans huser, fun a => by rw [crash_mem, hview.mem], writeExceptionRegs_sameDevices e ia s,
    fun r => writeExceptionRegs_reg e ia s, hrecorded.eip, hrecorded.eip_of_fits,
    hrecorded.ec, hrecorded.pageInfo⟩

/-! ### The changes of mode (R291, R294, R316) -/

section
variable {s t : State}

theorem setInt_mode {r : Reg} {v : Int} (h : setInt r v s = .ok t) : t.mode = s.mode := by
  obtain ⟨rfl, -⟩ := setInt_ok h
  rfl

theorem moveWord_mode {d : Dst} {o : Src} (h : moveWord d o s = .ok t) : t.mode = s.mode := by
  obtain ⟨w, -, hw⟩ := moveWord_ok h
  obtain ⟨r, -, rfl⟩ | ⟨_, _, pa, -, -, -, rfl⟩ := writeTo_ok hw <;> rfl

theorem jumpTo_mode {target : Int} (h : jumpTo target s = .ok t) : t.mode = s.mode := by
  obtain ⟨pa, -, -, rfl⟩ := jumpTo_ok h
  rfl

theorem jumpWhen_mode {taken : Bool} {target : Int} (h : jumpWhen taken target s = .ok t) : t.mode = s.mode := by
  obtain ⟨-, hjump⟩ | ⟨-, rfl⟩ := jumpWhen_ok h
  · exact jumpTo_mode hjump
  · rfl

theorem pushWord_mode {w : Word} (h : pushWord w s = .ok t) : t.mode = s.mode := by
  obtain ⟨pa, -, -, -, rfl⟩ := pushWord_ok h
  rfl

theorem popInto_mode {r : Reg} (h : popInto r s = .ok t) : t.mode = s.mode := by
  obtain ⟨pa, -, -, -, rfl⟩ := popInto_ok h
  rfl

theorem callTo_mode {target : Int} (h : callTo target s = .ok t) : t.mode = s.mode := by
  obtain ⟨u, hpush, hjump⟩ := callTo_ok h
  exact (jumpTo_mode hjump).trans (pushWord_mode hpush)

theorem trapEntry_mode {n : Nat} (h : trapEntry n s = .ok t) : t.mode = .kernel := by
  obtain ⟨pa, -, -, -, -, rfl⟩ := trapEntry_ok h
  rfl

theorem returnFromTrap_mode (h : returnFromTrap s = .ok t) : t.mode = .user := by
  obtain ⟨pa, -, -, -, rfl⟩ := returnFromTrap_ok h
  rfl

theorem issueDisk_mode (op : DiskOp) (p b : Nat) (s : State) : (issueDisk op p b s).mode = s.mode := by
  obtain ⟨-, h⟩ | ⟨-, h⟩ := issueDisk_cases op p b s <;> rw [h]

theorem issueConsole_mode (op : ConsoleOp) (s : State) : (issueConsole op s).mode = s.mode := by
  obtain ⟨-, h⟩ | ⟨-, h⟩ := issueConsole_cases op s <;> rw [h]

theorem transferBody_mode {page block : RegInt} {effect : Nat → Nat → State → State}
    (heffect : ∀ p b, (effect p b s).mode = s.mode) (h : transferBody page block effect s = .ok t) :
    t.mode = s.mode := by
  unfold transferBody at h
  split at h
  · cases h
  · exact Except.ok.inj h ▸ heffect _ _

end

theorem foldlM_mode {f : State → Reg → Except Exn State}
    (hf : ∀ {s t : State} {r : Reg}, f s r = .ok t → t.mode = s.mode) :
    ∀ {rs : List Reg} {s t : State}, rs.foldlM f s = .ok t → t.mode = s.mode
  | [], _, _, h => Except.ok.inj h ▸ rfl
  | r :: rs, s, t, h => by
    rw [List.foldlM_cons] at h
    cases hu : f s r with
    | error e => rw [hu] at h; cases h
    | ok u => rw [hu] at h; exact (foldlM_mode hf h).trans (hf hu)

/-- A completed instruction changes the mode only if it is INT or IRET (R316). -/
theorem instrBody_mode {i : Instr} {s t : State} (h : instrBody i s = .ok t) :
    t.mode = s.mode ∨ (t.mode = .kernel ∧ ∃ n, i = .int n) ∨ (t.mode = .user ∧ i = .iret) := by
  cases i with
  | int n => exact .inr (.inl ⟨trapEntry_mode (softwareInterrupt_ok h).2, n, rfl⟩)
  | iret => exact .inr (.inr ⟨returnFromTrap_mode h, rfl⟩)
  | mov | port => exact .inl (moveWord_mode h)
  | add | sub | mul | inr | dcr => exact .inl (setInt_mode h)
  | div | mod => exact .inl (setInt_mode (divideInto_ok h).2)
  | jz | jnz | jmp => exact .inl (jumpWhen_mode h)
  | push => exact .inl (pushWord_mode h)
  | pop | ret => exact .inl (popInto_mode h)
  | call => exact .inl (callTo_mode h)
  | backup => exact .inl (foldlM_mode pushWord_mode ((pushRegs_eq_foldlM ..).symm.trans h))
  | restore => exact .inl (foldlM_mode popInto_mode ((popRegs_eq_foldlM ..).symm.trans h))
  | loadi => exact .inl (transferBody_mode (fun _ _ => rfl) h)
  | load | store => exact .inl (transferBody_mode (fun _ _ => issueDisk_mode ..) h)
  | inp | out => exact .inl (Except.ok.inj h ▸ issueConsole_mode ..)
  | brkp => exact .inl (congrArg State.mode ((Except.ok.inj h).symm.trans (callDebugHook_eq _ s)))
  | lt | gt | eq | ne | ge | le | encrypt | ini | halt => exact .inl (Except.ok.inj h ▸ rfl)

/-- Settles O39: a completed instruction neither crashes nor, unless it is INT, enters Kernel mode. -/
theorem userModeIsLeftOnlyByIntOrFault : Obligations.UserModeIsLeftOnlyByIntOrFault := by
  unfold Obligations.UserModeIsLeftOnlyByIntOrFault
  intro i s t huser hrun hexec hleft
  rw [exec_eq_commit] at hexec
  obtain hok | ⟨e, -, rfl⟩ := commit_next hexec
  · obtain hkernel | ⟨k, hcrashed⟩ := hleft
    · obtain hmode | ⟨-, hint⟩ | ⟨hmode, -⟩ := instrBody_mode hok
      · cases hkernel.symm.trans (hmode.trans huser)
      · exact .inl hint
      · cases hkernel.symm.trans hmode
    · exact absurd hcrashed (instrBody_not_crashed hrun hok)
  · exact .inr ⟨e, rfl⟩

/-- A delivered interrupt enters Kernel mode or crashes where it was (R291, R303). -/
theorem deliverInterrupt_user {s : State} (h : (deliverInterrupt s).mode = .user) : s.mode = .user := by
  obtain ⟨-, hs⟩ | ⟨src, huser, -⟩ := deliverInterrupt_cases s
  · rwa [hs] at h
  · exact huser

theorem diskTick_mode (s : State) : (diskTick s).mode = s.mode := by
  obtain ⟨_, _, _, _, h⟩ := diskTick_frame s
  rw [h]

/-- The end of a cycle does not enter User mode. -/
theorem finishCycle_user {before after : State} (h : (finishCycle before after).mode = .user) : after.mode = .user := by
  obtain ⟨-, heq⟩ | ⟨-, heq⟩ := finishCycle_cases before after <;> rw [heq] at h
  · obtain ⟨u, hside, hpost⟩ :=
      postExecute_sameDiskSide (issuedDisk before after) (issuedConsole before after) after
    have huser := hside.mode.symm.trans (deliverInterrupt_user (hpost ▸ h))
    split at huser
    · exact huser
    · exact (diskTick_mode after).symm.trans huser
  · exact h

/-- Settles O40: of the parts of a cycle that begins in Kernel mode, only a completed IRET leaves it in User mode. -/
theorem onlyIretEntersUserMode : Obligations.OnlyIretEntersUserMode := by
  unfold Obligations.OnlyIretEntersUserMode
  intro s t hstep hkernel huser
  have faulted {u before : State} {e : Exn} {ia : Int} (hu : u.mode = .kernel)
      (h : (finishCycle before (deliverFault e ia u)).mode = .user) : False := by
    have hmode := finishCycle_user h
    rw [deliverFault_kernel e ia hu, crash_mode, hu] at hmode
    cases hmode
  obtain ⟨-, ⟨e, -, rfl⟩ | ⟨_, e, -, -, rfl⟩ | ⟨_, s1, e, -, hadv, -, rfl⟩ |
    ⟨text, s1, i, u, hfetch, hadv, hdec, hexec, rfl⟩⟩ := step_next hstep
  · exact (faulted hkernel huser).elim
  · exact (faulted hkernel huser).elim
  · exact (faulted ((setInt_mode hadv).trans hkernel) huser).elim
  · have hs1 : s1.mode = .kernel := (setInt_mode hadv).trans hkernel
    rw [exec_eq_commit] at hexec
    obtain hok | ⟨e, -, rfl⟩ := commit_next hexec
    · have hu := finishCycle_user huser
      obtain hmode | ⟨hmode, -⟩ | ⟨-, rfl⟩ := instrBody_mode hok
      · cases hs1.symm.trans (hmode.symm.trans hu)
      · cases hmode.symm.trans hu
      · exact ⟨text, hfetch, hdec⟩
    · exact (faulted hs1 huser).elim

/-! ### The tick of the timer (R300) -/

section
variable {s : State}

theorem timerTick_disabled (h : s.cfg.timerInterval ≤ 0) : timerTick s = s :=
  if_neg h.not_gt

theorem timerTick_countdown (hon : 0 < s.cfg.timerInterval) (h : 1 < s.timer) :
    timerTick s = { s with timer := s.timer - 1 } := by
  have hleft : ¬ s.timer - 1 ≤ 0 := by omega
  rw [timerTick, if_pos hon, if_neg hleft]

theorem timerTick_expired (hon : 0 < s.cfg.timerInterval) (h : s.timer ≤ 1) :
    timerTick s = { s with timer := s.cfg.timerInterval, timerPending := true } := by
  have hspent : s.timer - 1 ≤ 0 := by omega
  rw [timerTick, if_pos hon, if_pos hspent]

theorem timerTick_timer (s : State) : (timerTick s).timer =
    if s.cfg.timerInterval ≤ 0 then s.timer else if s.timer ≤ 1 then s.cfg.timerInterval else s.timer - 1 := by
  obtain ⟨hoff, h⟩ | ⟨hon, hspent, h⟩ | ⟨hon, hleft, h⟩ := timerTick_cases s <;> rw [h]
  · rw [if_pos hoff]
  · rw [if_neg hon.not_ge, if_pos hspent]
  · rw [if_neg hon.not_ge, if_neg hleft.not_ge]

/-- A tick latches the interrupt exactly when the timer runs out. -/
theorem timerTick_timerPending (s : State) : (timerTick s).timerPending = true ↔
    s.timerPending = true ∨ 0 < s.cfg.timerInterval ∧ s.timer ≤ 1 := by
  obtain ⟨hoff, h⟩ | ⟨hon, hspent, h⟩ | ⟨hon, hleft, h⟩ := timerTick_cases s <;> rw [h]
  · simp [hoff.not_gt]
  · simp [hon, hspent]
  · simp [hleft.not_ge]

/-- An enabled timer that starts at its interval counts its own ticks, until one is left. -/
theorem repeatTick_timerTick (hstart : s.timer = s.cfg.timerInterval) : ∀ n : Nat, (n : Int) < s.cfg.timerInterval →
    repeatTick timerTick n s = { s with timer := s.cfg.timerInterval - n }
  | 0, _ => by rw [repeatTick, Nat.cast_zero, Int.sub_zero, ← hstart]
  | n + 1, hn => by
    have hon : 0 < s.cfg.timerInterval := by omega
    have hleft : 1 < s.cfg.timerInterval - n := by omega
    rw [repeatTick, repeatTick_timerTick hstart n (by omega),
      timerTick_countdown (s := { s with timer := s.cfg.timerInterval - n }) hon hleft]
    simp only [Nat.cast_add, Nat.cast_one, Int.sub_sub]

theorem repeatTick_timerTick_interval (hon : 0 < s.cfg.timerInterval) (hstart : s.timer = s.cfg.timerInterval) :
    repeatTick timerTick s.cfg.timerInterval.toNat s = { s with timerPending := true } := by
  obtain ⟨m, hm⟩ : ∃ m, s.cfg.timerInterval.toNat = m + 1 := ⟨s.cfg.timerInterval.toNat - 1, by omega⟩
  have hlast : s.cfg.timerInterval - m ≤ 1 := by omega
  rw [hm, repeatTick, repeatTick_timerTick hstart m (by omega),
    timerTick_expired (s := { s with timer := s.cfg.timerInterval - m }) hon hlast]
  simp only [← hstart]

end

/-! ### The timer along a cycle (R299) -/

/-- What Execute and the ticks of the two devices leave alone. -/
structure SameTimerSide (s t : State) : Prop where
  cfg : t.cfg = s.cfg
  timer : t.timer = s.timer
  timerPending : t.timerPending = s.timerPending

theorem SameTimerSide.refl (s : State) : SameTimerSide s s := ⟨rfl, rfl, rfl⟩

theorem SameTimerSide.trans {s t u : State} (h : SameTimerSide s t) (k : SameTimerSide t u) : SameTimerSide s u :=
  ⟨k.cfg.trans h.cfg, k.timer.trans h.timer, k.timerPending.trans h.timerPending⟩

theorem ExecFrame.sameTimerSide {s t : State} (h : ExecFrame s t) : SameTimerSide s t :=
  ⟨h.cfg, h.timer, h.timerPending⟩

theorem DeviceEffect.sameTimerSide {s t : State} (h : DeviceEffect s t) : SameTimerSide s t := by
  cases h with
  | none h =>
    obtain ⟨hcfg, htimer, -, -, hpending, -⟩ := h
    exact ⟨hcfg, htimer, hpending⟩
  | disk op p b => exact (issueDisk_execFrame op p b s).sameTimerSide
  | console op => exact (issueConsole_execFrame op s).sameTimerSide
  | line => exact ⟨rfl, rfl, rfl⟩

theorem CycleBody.sameTimerSide {s before after : State} (h : CycleBody s before after) : SameTimerSide s after :=
  (DeviceEffect.none h.begins).sameTimerSide.trans h.deviceEffect.sameTimerSide

theorem diskTick_sameTimerSide (s : State) : SameTimerSide s (diskTick s) := by
  obtain ⟨_, _, _, _, h⟩ := diskTick_frame s
  rw [h]
  exact ⟨rfl, rfl, rfl⟩

theorem consoleTick_sameTimerSide (s : State) : SameTimerSide s (consoleTick s) := by
  obtain ⟨-, h⟩ | ⟨r, -, -, h⟩ | ⟨r, -, -, h⟩ := consoleTick_cases s <;> rw [h]
  · exact .refl s
  · exact ⟨rfl, rfl, rfl⟩
  · cases r.op <;> exact ⟨rfl, rfl, rfl⟩

theorem skippableTick_sameTimerSide {tick : State → State} (htick : ∀ u, SameTimerSide u (tick u)) (skip : Bool)
    (s : State) : SameTimerSide s (if skip then s else tick s) := by
  split
  · exact .refl s
  · exact htick s

/-- The post-execute phase is, on the timer's side, its tick and the delivery of an interrupt. -/
theorem postExecute_sameTimerSide (d c : Bool) (s : State) :
    ∃ u, SameTimerSide (timerTick s) u ∧ postExecute d c s = deliverInterrupt u :=
  ⟨_, (skippableTick_sameTimerSide diskTick_sameTimerSide d _).trans
    (skippableTick_sameTimerSide consoleTick_sameTimerSide c _), rfl⟩

theorem timerTick_cfg (s : State) : (timerTick s).cfg = s.cfg := by
  obtain ⟨_, _, h⟩ := timerTick_frame s
  rw [h]

/-- The timer's tick looks at the timer's side alone. -/
theorem SameTimerSide.timerTick {s t : State} (h : SameTimerSide s t) :
    SameTimerSide (Machine.timerTick s) (Machine.timerTick t) where
  cfg := by rw [timerTick_cfg, timerTick_cfg, h.cfg]
  timer := by rw [timerTick_timer, timerTick_timer, h.cfg, h.timer]
  timerPending := by
    rw [Bool.eq_iff_iff, timerTick_timerPending, timerTick_timerPending, h.cfg, h.timer, h.timerPending]

/-- A cycle that leaves the machine running is, on the timer's side, a tick and the delivery of an interrupt. -/
theorem step_timer {s t : State} (h : step s = .next t) (hrun : t.status = .running) :
    ∃ u, SameTimerSide (timerTick s) u ∧ InterruptTaken u t := by
  obtain ⟨before, after, hbody, rfl⟩ := step_running h hrun
  obtain ⟨u, hside, hpost⟩ := postExecute_sameTimerSide (issuedDisk s after) (issuedConsole s after) after
  rw [hpost] at hrun ⊢
  exact ⟨u, hbody.sameTimerSide.timerTick.trans hside, deliverInterrupt_taken hrun⟩

/-- Settles O45: the tick is one of its three equations, and of a cycle only the tick and the delivery of an interrupt
come near the timer. -/
theorem timerRaisesEveryInterval : Obligations.TimerRaisesEveryInterval := by
  unfold Obligations.TimerRaisesEveryInterval
  refine ⟨fun s => ⟨timerTick_disabled, timerTick_countdown, timerTick_expired⟩,
    fun s hon hstart => ⟨repeatTick_timerTick hstart, repeatTick_timerTick_interval hon hstart⟩,
    fun s t hstep hrun => ?_⟩
  obtain ⟨u, hside, hend⟩ := step_timer hstep hrun
  have hlatch : u.timerPending = true ↔ s.timerPending = true ∨ 0 < s.cfg.timerInterval ∧ s.timer ≤ 1 := by
    rw [hside.timerPending, timerTick_timerPending]
  refine ⟨(hend.timer.trans hside.timer).trans (timerTick_timer s), fun hraised => ?_, fun hidle hp => ?_⟩
  · obtain ⟨hsame, -⟩ := (step_updates hstep).platformGrows
    exact hsame ▸ hend.taken .timer (hlatch.mpr hraised)
  · exact (hlatch.mp (hend.latched .timer hp)).resolve_right hidle

/-! ### The order of interrupts (R303, R304) -/

/-- The priorities: timer before disk before console. -/
theorem exists_pendingSource {s : State} {n : Nat}
    (h : n = 1 ∧ s.timerPending = true ∨ n = 2 ∧ s.timerPending = false ∧ s.diskPending = true ∨
      n = 3 ∧ s.timerPending = false ∧ s.diskPending = false ∧ s.consolePending = true) :
    ∃ src : Source, n = src.number ∧ pendingSource s = some src := by
  obtain ⟨rfl, ht⟩ | ⟨rfl, ht, hd⟩ | ⟨rfl, ht, hd, hc⟩ := h
  · exact ⟨.timer, rfl, by simp [pendingSource, ht]⟩
  · exact ⟨.disk, rfl, by simp [pendingSource, ht, hd]⟩
  · exact ⟨.console, rfl, by simp [pendingSource, ht, hd, hc]⟩

section
variable {s : State} {src : Source} {pa : Int}

theorem deliverInterrupt_kernel (h : s.mode = .kernel) : deliverInterrupt s = s := by
  simp only [deliverInterrupt, h]

theorem deliverInterrupt_none (h : pendingSource s = none) : deliverInterrupt s = s := by
  obtain ⟨-, hs⟩ | ⟨src, -, hpending, -⟩ := deliverInterrupt_cases s
  · exact hs
  · cases h.symm.trans hpending

theorem deliverInterrupt_entered (hv : s.cfg.Valid) (huser : s.mode = .user) (hpending : pendingSource s = some src)
    (ht : translateAddr .user (s.xi .sp + 1) true s = .ok pa) (hp : s.inMemory pa) (hf : Fits s.cfg (s.xi .sp + 1)) :
    deliverInterrupt s = clearLatch src (trapState src.number pa s) := by
  have hnumber : src.number ≤ 18 := by cases src <;> decide
  simp only [deliverInterrupt, huser, hpending, trapEntry_eq_trapState hv hnumber (huser ▸ ht) hp hf]

theorem deliverInterrupt_doubleFault (huser : s.mode = .user) (hpending : pendingSource s = some src)
    (h : PushFails s) : deliverInterrupt s = crash .doubleFault s := by
  obtain ⟨_, hentry⟩ := trapEntry_of_pushFails huser h src.number
  simp only [deliverInterrupt, huser, hpending, hentry]

end

/-- What the entry of an interrupt's handler pushes (R291). -/
theorem entry_push {s : State} {src : Source} {n : Nat} {pa : Int} (hpa : 0 ≤ pa) :
    let t := clearLatch src (trapState n pa s)
    HoldsInt t .sp (s.xi .sp + 1) ∧ t.mem.read pa.toNat = s.reg .ip ∧ SameMemoryBut pa s t ∧ t.status = s.status := by
  obtain ⟨-, hmem, -, -, hstatus⟩ := trapState_frame (n := n) (s := s) hpa
  obtain ⟨_, _, _, hclear⟩ := clearLatch_frame src (trapState n pa s)
  rw [hclear]
  exact ⟨trapState_holdsSp (n := n), trapState_read (n := n), hmem, hstatus⟩

/-- Settles O50: the source with the highest priority enters its handler, which clears its latch. -/
theorem interruptsAreDeliveredInUserModeByPriority : Obligations.InterruptsAreDeliveredInUserModeByPriority := by
  unfold Obligations.InterruptsAreDeliveredInUserModeByPriority
  intro s hv
  refine ⟨deliverInterrupt_kernel, fun ht hd hc => ?none, fun huser n hn => ?user⟩
  case none => exact deliverInterrupt_none (by simp [pendingSource, ht, hd, hc])
  case user =>
    obtain ⟨src, rfl, hpending⟩ := exists_pendingSource hn
    refine ⟨fun pa ht hp hf => ?_, deliverInterrupt_doubleFault huser hpending⟩
    rw [deliverInterrupt_entered hv huser hpending ht hp hf]
    obtain ⟨hcfg, htimer, hdisk, hconsole, hblocks, hin, hpos, hout, hregs⟩ :=
      interruptFrame_entry (s := s) (src := src) (n := src.number) hp.1
    obtain ⟨hsp, hread, hmem, hstatus⟩ := entry_push (s := s) (src := src) (n := src.number) hp.1
    exact ⟨entry_mode, entry_holdsIp, hsp, hread, hmem, hregs, hstatus, latch_entry .timer, latch_entry .disk,
      latch_entry .console, hcfg, htimer, hdisk, hconsole, hblocks, hin, hpos, hout⟩

end Sys2Proof.Machine
end
